-- ==== Sys2Proof/Config.lean ====
section
/-! DEFINITION. The implementation parameters of spec/00_scope.md R6, and the free values of the model: what the spec
leaves open and the machine goes on. -/

namespace Sys2Proof

/-- The parameters of one interchange format (R6), in the order in which `FINENC` (R70) takes the last four. -/
structure Format where
  /-- `MW`: width of the mantissa field. -/
  mw : Nat
  /-- `BIAS`: the exponent bias. -/
  bias : Int
  /-- `UF`: a biased exponent at or below it underflows to a signed zero. -/
  uf : Int
  /-- `EMAXF`: the largest finite exponent field. -/
  emaxf : Int
  deriving DecidableEq, Repr

/-- binary32: `MW32`, `BIAS32`, `UF32`, `EMAXF32` of R6. -/
def binary32 : Format := { mw := 23, bias := 127, uf := -24, emaxf := 254 }

/-- binary64: `MW64`, `BIAS64`, `UF64`, `EMAXF64` of R6. `UF64 = -52` is the source's literal, kept by
spec/90_conflicts.md C3; no operand reaches it (R79). -/
def binary64 : Format := { mw := 52, bias := 1023, uf := -52, emaxf := 2046 }

namespace Config

/-- `POW2_MIN` of R6: the least index of the power-of-two table. -/
def pow2Min : Int := -1074

/-- `POW2_MAX` of R6: the greatest index of the power-of-two table. -/
def pow2Max : Int := 1023

/-- `QNAN32` of R6: the canonical quiet NaN of binary32. -/
def qnan32 : BitVec 32 := 0x7FC00000#32

/-- `QNAN64` of R6, its high word (decision D7 of the spec). -/
def qnan64Hi : BitVec 32 := 0x7FF80000#32

/-- `QNAN64` of R6, its low word. -/
def qnan64Lo : BitVec 32 := 0x00000000#32

/-- `AW` of R6: the width of the signed `offset` port. -/
def aw : Nat := 32

/-- FREE VALUE (log entry 8; R28, U8). When the operation of the race numbered `n` accesses the byte at `addr` of the store:
after so many of the racing agent's writes. Nothing constrains it. -/
opaque accessAfter (n addr : Nat) : Nat

/-- FREE VALUE (log entry 9; R106, U10). Whether the `i`-th byte write of an operation that reset cut short has reached the
buffer, for the cut numbered `n`. Nothing constrains it. -/
opaque writeLanded (n i : Nat) : Bool

end Config

end Sys2Proof
end

