-- ==== Sys2Proof/Machine/Pow2.lean ====
section
/-! DEFINITION. The Power-of-two table `POW2` (R11), the block's one lasting piece of state. It is read-only and holds exact
powers of two from the first moment an operation can be accepted (R105), so it is a constant here (log entry 1). -/

namespace Sys2Proof

/-- `POW2[n]` (R11): `2^n` exactly. The table's indexes are `Config.pow2Min` to `Config.pow2Max`; R11 lets a model take
the exact rational `2^n` at every `n`. -/
def POW2 (n : Int) : ℚ :=
  if n < 0 then mkRat 1 (2 ^ (-n).toNat) else ((2 ^ n.toNat : Nat) : ℚ)

/-- `POW2` is exact exponentiation (R7). -/
theorem POW2_eq_zpow (n : Int) : POW2 n = (2 : ℚ) ^ n := by
  unfold POW2
  split
  · rename_i h
    obtain ⟨k, rfl⟩ : ∃ k : Nat, n = -(k : Int) := ⟨(-n).toNat, by omega⟩
    simp [Rat.mkRat_eq_div]
  · rename_i h
    obtain ⟨k, rfl⟩ := Int.eq_ofNat_of_zero_le (not_lt.mp h)
    simp

end Sys2Proof
end

