-- ==== Sys2Proof/Word.lean ====
section
/-! DEFINITION. The word types of the block: a buffer byte (R20), a BitWord32 (R18) and a sign bit (R9). All three are
unsigned (R7, R47 (a)): no rule reads one of them as a two's-complement number. -/

namespace Sys2Proof

/-- A buffer element: 8 bits, `BYTE_W` of R6. -/
abbrev Byte := BitVec 8

/-- BitWord32 (R18): "the storage unit for float32 and for each half of float64". -/
abbrev BitWord32 := BitVec 32

/-- The sign `s` (R9): 0 for positive, 1 for negative. -/
abbrev Sign := BitVec 1

end Sys2Proof
end

