-- ==== Sys2Proof/Syntax.lean ====
section
/-! DEFINITION. What crosses the block's interfaces: the numeric values `NV` (R17), the command format `CMD` as the ports
carry it (R40), and the twelve operations of the opcode map (R41) with their operands (R42, R45). -/

namespace Sys2Proof

/-- The byte order of a buffer operation (R24). -/
inductive Order where
  /-- Big-endian, `BE`: the most significant byte at the lowest address. -/
  | be
  /-- Little-endian, `LE`: the least significant byte at the lowest address. -/
  | le
  deriving DecidableEq, Repr

/-- The Byte Buffer a buffer operation is given (R19, R20, R40 `buf` and `LEN`): the `len` bytes of the host's byte store
that begin at `base`. Address `a` of the buffer, `0 <= a < len`, is byte `base + a` of the store (DESIGN CHOICE, log
entry 3: the spec gives the `buf` operand no width and no form). -/
structure Buffer where
  base : Nat
  len : Nat
  deriving DecidableEq, Repr

/-- Membership in `F64pos` (R17), in the form "`x = K * 2^q` for some integers `1 <= K < 2^53` and `-1074 <= q <= 971`". -/
def InF64pos (x : ℚ) : Prop :=
  ∃ (K : Nat) (q : Int), 1 ≤ K ∧ K < 2 ^ 53 ∧ -1074 ≤ q ∧ q ≤ 971 ∧ x = K * (2 : ℚ) ^ q

/-- `F64pos` (R17): the positive finite magnitudes a binary64 word pair can hold, as exact rationals. -/
abbrev F64pos := { x : ℚ // InF64pos x }

/-- NumericValue (R17). Equality is "the same constructor with the same `s` and the same rational `x`"; there is one
`nan`, without sign or payload. -/
inductive NV where
  | nan
  | inf (s : Sign)
  | zero (s : Sign)
  | fin (s : Sign) (x : F64pos)
  deriving DecidableEq, Repr

/-- The operations of the opcode map (R41), with the operands each reads (R42). The argument order of the buffer
operations is that of R45: a write takes the value before the offset. Every integer is a legal `offset` (R21, R25). -/
inductive Instr where
  | dec32 (w : BitWord32)
  | dec64 (hi lo : BitWord32)
  | enc32 (v : NV)
  | enc64 (v : NV)
  | readFloatBE (buf : Buffer) (offset : Int)
  | readFloatLE (buf : Buffer) (offset : Int)
  | readDoubleBE (buf : Buffer) (offset : Int)
  | readDoubleLE (buf : Buffer) (offset : Int)
  | writeFloatBE (buf : Buffer) (v : NV) (offset : Int)
  | writeFloatLE (buf : Buffer) (v : NV) (offset : Int)
  | writeDoubleBE (buf : Buffer) (v : NV) (offset : Int)
  | writeDoubleLE (buf : Buffer) (v : NV) (offset : Int)
  deriving DecidableEq, Repr

/-- The pseudo-form of R46: a read or write written without its `offset` argument means `offset = 0`. -/
def offsetOperand (written : Option Int) : Int := written.getD 0

/-- One command as the input ports carry it: the format `CMD` of R40, all fields valid together (R110). `val` is a 68-bit
value carrier (R39); `offset` is two's complement. -/
structure Request where
  op : BitVec 4
  val : BitVec 68
  wHi : BitWord32
  wLo : BitWord32
  offset : BitVec 32
  buf : Buffer
  deriving DecidableEq, Repr

end Sys2Proof
end

