-- ==== Sys2Proof/WellFormed.lean ====
section
/-! DEFINITION. Which instructions a command can carry. Values need no check here: `NV` holds only the numeric values of
R17. What the 32-bit `offset` port of R40 bounds is checked. -/

namespace Sys2Proof

/-- The signed integers of the `offset` port, `AW` bits two's complement (R6, R40). -/
def offsetFits (offset : Int) : Bool :=
  decide (-2 ^ (Config.aw - 1) ≤ offset ∧ offset < 2 ^ (Config.aw - 1))

/-- A command of format `CMD` (R40) can carry the instruction. -/
def Instr.wf : Instr → Bool
  | .dec32 _ => true
  | .dec64 _ _ => true
  | .enc32 _ => true
  | .enc64 _ => true
  | .readFloatBE _ offset => offsetFits offset
  | .readFloatLE _ offset => offsetFits offset
  | .readDoubleBE _ offset => offsetFits offset
  | .readDoubleLE _ offset => offsetFits offset
  | .writeFloatBE _ _ offset => offsetFits offset
  | .writeFloatLE _ _ offset => offsetFits offset
  | .writeDoubleBE _ _ offset => offsetFits offset
  | .writeDoubleLE _ _ offset => offsetFits offset

end Sys2Proof
end

