-- ==== Sys2Proof/Decode.lean ====
section
/-! DEFINITION. The value carrier (R39), the decoder from the command's ports to an instruction (R40 to R43), total and
rejecting by name, the encoder back, and the numbering of the ports as one word. -/

namespace Sys2Proof

/-! ### The numeric-value carrier (R39) -/

/-- `cls`, `nv[67:66]` (R39). -/
def carrierClass (nv : BitVec 68) : BitVec 2 := nv.extractLsb' 66 2

/-- `sign`, `nv[65]` (R39): the hardware's form of the "reciprocal-sign test". -/
def carrierSign (nv : BitVec 68) : Sign := nv.extractLsb' 65 1

/-- `exp`, `nv[64:53]`, the 12-bit two's-complement integer `q` (R39). -/
def carrierExp (nv : BitVec 68) : Int := (nv.extractLsb' 53 12).toInt

/-- `sig`, `nv[52:0]`, the 53-bit unsigned integer `K` (R39). -/
def carrierSig (nv : BitVec 68) : Nat := (nv.extractLsb' 0 53).toNat

/-- `K != 0` and `K * 2^q` is in `F64pos`, for a 53-bit `K` (R39): decided on the integers. Below `q = -1074` the factors
of two that are missing must be in `K`; above `q = 971` those that are too many must fit beside `K` in 53 bits. -/
def finiteLegal (K : Nat) (q : Int) : Bool :=
  K != 0 &&
    (if q < -1074 then K % 2 ^ (-1074 - q).toNat == 0
     else if 971 < q then decide (K * 2 ^ (q - 971).toNat < 2 ^ 53)
     else true)

/-- What `finiteLegal` accepts is in `F64pos` (R17). -/
theorem inF64pos_of_finiteLegal {K : Nat} {q : Int} (hK : K < 2 ^ 53) (h : finiteLegal K q = true) :
    InF64pos (K * POW2 q) := by
  rw [POW2_eq_zpow]
  simp only [finiteLegal, Bool.and_eq_true, bne_iff_ne] at h
  obtain ⟨h0, h⟩ := h
  split at h
  · rename_i hq
    obtain ⟨c, hc⟩ := Nat.dvd_of_mod_eq_zero (by simpa using h)
    have hc0 : c ≠ 0 := by rintro rfl; simp at hc; exact h0 hc
    refine ⟨c, -1074, by omega, ?_, by omega, by omega, ?_⟩
    · calc c ≤ 2 ^ (-1074 - q).toNat * c := Nat.le_mul_of_pos_left _ (by positivity)
        _ = K := hc.symm
        _ < 2 ^ 53 := hK
    · have : (2 : ℚ) ^ (-1074 : Int) = 2 ^ (-1074 - q).toNat * (2 : ℚ) ^ q := by
        rw [← zpow_natCast, ← zpow_add₀ (by norm_num)]
        congr 1; omega
      rw [hc, this]; push_cast; ring
  · split at h
    · rename_i hq
      refine ⟨K * 2 ^ (q - 971).toNat, 971, ?_, by simpa using h, by omega, by omega, ?_⟩
      · exact Nat.mul_pos (Nat.pos_of_ne_zero h0) (by positivity)
      · have : (2 : ℚ) ^ q = 2 ^ (q - 971).toNat * (2 : ℚ) ^ (971 : Int) := by
          rw [← zpow_natCast, ← zpow_add₀ (by norm_num)]
          congr 1; omega
        rw [this, ← mul_assoc, Nat.cast_mul, Nat.cast_pow, Nat.cast_ofNat]
    · exact ⟨K, q, Nat.pos_of_ne_zero h0, hK, by omega, by omega, rfl⟩

/-- Reading a carrier (R39): the `NV` it denotes, or none. `exp` and `sig` count only for `cls = 1`, and `sign` does not
count for `cls = 3`. -/
def readCarrier (nv : BitVec 68) : Option NV :=
  if carrierClass nv = 0#2 then some (.zero (carrierSign nv))
  else if carrierClass nv = 2#2 then some (.inf (carrierSign nv))
  else if carrierClass nv = 3#2 then some .nan
  else if h : finiteLegal (carrierSig nv) (carrierExp nv) = true then
    some (.fin (carrierSign nv)
      ⟨carrierSig nv * POW2 (carrierExp nv), inF64pos_of_finiteLegal (BitVec.isLt _) h⟩)
  else none

/-- The 68 bits of a carrier from its four fields (R39). -/
def packCarrier (cls : BitVec 2) (s : Sign) (q : Int) (K : Nat) : BitVec 68 :=
  cls ++ s ++ BitVec.ofInt 12 q ++ BitVec.ofNat 53 K

/-- The exponent `q` of the canonical carrier of a magnitude `x` of a format: the weight of the last mantissa bit `x` has
in that format. For a normal `(E, M)` it is `E - BIAS - MW`, for a subnormal `1 - BIAS - MW` (R39, "Writing a carrier"). -/
def canonicalExp (fmt : Format) (x : ℚ) : Int :=
  max (Int.log 2 x - fmt.mw) (1 - fmt.bias - fmt.mw)

/-- Writing a carrier (R39): the canonical form the block produces for a value read from a pattern of format `fmt`. -/
def writeCarrier (fmt : Format) : NV → BitVec 68
  | .nan => packCarrier 3#2 0#1 0 0
  | .inf s => packCarrier 2#2 s 0 0
  | .zero s => packCarrier 0#2 s 0 0
  | .fin s x =>
    packCarrier 1#2 s (canonicalExp fmt x.val) ⌊x.val / POW2 (canonicalExp fmt x.val)⌋₊

/-! ### The decoder (R40 to R44) -/

/-- Why a command selects no operation (R97). -/
inductive Reject where
  /-- `op` is one of the reserved codes 1, 3, 5, 7 (R43). -/
  | reservedOp (op : BitVec 4)
  /-- The operation reads `val`, and `val` is a `cls = 1` carrier that denotes no `NV` (R39, U2). -/
  | noNumericValue (val : BitVec 68)
  deriving DecidableEq, Repr

/-- The instruction of an operation that reads the `val` port (R42), if the carrier there denotes an `NV`. -/
def withValue (r : Request) (f : NV → Instr) : Except Reject Instr :=
  match readCarrier r.val with
  | some v => .ok (f v)
  | none => .error (.noNumericValue r.val)

/-- The opcode map (R41). A field the operation does not read is ignored (R42). -/
def decode (r : Request) : Except Reject Instr :=
  match r.op.toNat with
  | 0b0000 => .ok (.dec32 r.wHi)
  | 0b0010 => .ok (.dec64 r.wHi r.wLo)
  | 0b0100 => withValue r .enc32
  | 0b0110 => withValue r .enc64
  | 0b1000 => .ok (.readFloatBE r.buf r.offset.toInt)
  | 0b1001 => .ok (.readFloatLE r.buf r.offset.toInt)
  | 0b1010 => .ok (.readDoubleBE r.buf r.offset.toInt)
  | 0b1011 => .ok (.readDoubleLE r.buf r.offset.toInt)
  | 0b1100 => withValue r fun v => .writeFloatBE r.buf v r.offset.toInt
  | 0b1101 => withValue r fun v => .writeFloatLE r.buf v r.offset.toInt
  | 0b1110 => withValue r fun v => .writeDoubleBE r.buf v r.offset.toInt
  | 0b1111 => withValue r fun v => .writeDoubleLE r.buf v r.offset.toInt
  | _ => .error (.reservedOp r.op)

/-! ### The encoder -/

/-- A command with the given `op` and every other port 0. -/
def Request.blank (op : BitVec 4) : Request :=
  { op := op, val := 0#68, wHi := 0#32, wLo := 0#32, offset := 0#32, buf := { base := 0, len := 0 } }

/-- The command of a read operation. -/
def encodeRead (op : BitVec 4) (buf : Buffer) (offset : Int) : Request :=
  { Request.blank op with buf := buf, offset := BitVec.ofInt 32 offset }

/-- The command of a write operation; its value travels as the canonical binary64 carrier. -/
def encodeWrite (op : BitVec 4) (buf : Buffer) (v : NV) (offset : Int) : Request :=
  { Request.blank op with buf := buf, offset := BitVec.ofInt 32 offset, val := writeCarrier binary64 v }

/-- A command that requests the instruction (R40, R41); the ports the operation does not read hold 0. -/
def encode : Instr → Request
  | .dec32 w => { Request.blank 0b0000#4 with wHi := w }
  | .dec64 hi lo => { Request.blank 0b0010#4 with wHi := hi, wLo := lo }
  | .enc32 v => { Request.blank 0b0100#4 with val := writeCarrier binary64 v }
  | .enc64 v => { Request.blank 0b0110#4 with val := writeCarrier binary64 v }
  | .readFloatBE buf offset => encodeRead 0b1000#4 buf offset
  | .readFloatLE buf offset => encodeRead 0b1001#4 buf offset
  | .readDoubleBE buf offset => encodeRead 0b1010#4 buf offset
  | .readDoubleLE buf offset => encodeRead 0b1011#4 buf offset
  | .writeFloatBE buf v offset => encodeWrite 0b1100#4 buf v offset
  | .writeFloatLE buf v offset => encodeWrite 0b1101#4 buf v offset
  | .writeDoubleBE buf v offset => encodeWrite 0b1110#4 buf v offset
  | .writeDoubleLE buf v offset => encodeWrite 0b1111#4 buf v offset

/-! ### The ports as one numbered word -/

/-- The command whose ports hold the bits of `w` (DESIGN CHOICE, log entry 13: R40 gives the format no length and no
layout beyond the four bits of `op`): `op` bits 3..0, `val` 71..4, `w_hi` 103..72, `w_lo` 135..104, `offset` 167..136, `LEN`
199..168, and the bits above give the buffer's base. -/
def Request.ofWord (w : Nat) : Request where
  op := BitVec.ofNat 4 w
  val := BitVec.ofNat 68 (w / 2 ^ 4)
  wHi := BitVec.ofNat 32 (w / 2 ^ 72)
  wLo := BitVec.ofNat 32 (w / 2 ^ 104)
  offset := BitVec.ofNat 32 (w / 2 ^ 136)
  buf := { base := w / 2 ^ 200, len := w / 2 ^ 168 % 2 ^ 32 }

/-- The instruction the decoder reads from the low `nbits` bits of `w`, every port bit above them 0. -/
def decodeTableWord (nbits w : Nat) : Option Instr :=
  (decode (Request.ofWord (w % 2 ^ nbits))).toOption

end Sys2Proof
end

