-- ==== Sys2Proof/Machine/State.lean ====
section
/-! DEFINITION. The machine as plain data: the inputs that wait for the block, the host's byte store in which buffers lie,
and the result ports. The block itself keeps nothing between operations but the constant table `POW2` (R10, R16). -/

namespace Sys2Proof.Machine

/-- A response (R112) as the output ports of R40 carry it. Each constructor holds the ports its operation produces (R42);
the ports it does not produce are unspecified and are not exposed (R40, R93, U9; log entry 5). -/
inductive Response where
  /-- A decode or a read: `res_val`, a value carrier (R39). -/
  | value (resVal : BitVec 68)
  /-- `ENC32`: the word on `res_hi`. -/
  | word (resHi : BitWord32)
  /-- `ENC64`: the word pair on `res_hi` and `res_lo`. -/
  | wordPair (resHi resLo : BitWord32)
  /-- A write: "nothing but its completion" (R93). -/
  | completed
  deriving DecidableEq, Repr

/-- What the outside world presents to the machine, in the order in which it happens (R113; log entries 2, 8, 9). -/
inductive Input where
  /-- A requester presents a command, and nothing disturbs it (R112). -/
  | command (r : Request)
  /-- The caller or another agent writes one byte of the byte store while no operation is in progress (R113). -/
  | agentWrite (addr : Nat) (b : Byte)
  /-- A requester presents a command, and another agent writes bytes of the store while it is in progress (R28). -/
  | racedCommand (r : Request) (writes : List Host.Cell)
  /-- Reset is asserted while the block is idle (R106). -/
  | reset
  /-- A requester presents a command, and reset is asserted while it is in progress (R106). -/
  | cutCommand (r : Request)
  deriving DecidableEq, Repr

/-- Why a step ends in a fault: never. The block raises no exception, for any operation, on any input (R95), and the bounds
policy of the buffer is none (R96). -/
inductive Fault where
  deriving DecidableEq, Repr

/-- Why a command has no step, no result and no state change (R97). -/
inductive Refusal where
  /-- Raised by an arm of `exec` for an instruction that has no meaning yet; no arm raises it. Safe. -/
  | notModelled (mnemonic : String)
  /-- Raised by `runRequest` for a command whose `op` is one of the reserved codes 1, 3, 5, 7 (R43). Safe. -/
  | reservedOp (op : BitVec 4)
  /-- Raised by `runRequest` for a command whose `val` port is read and denotes no `NV` (R39, R97, U2). Safe. -/
  | noNumericValue (val : BitVec 68)
  deriving DecidableEq, Repr

/-- The state of the machine. -/
structure State where
  /-- What waits to be presented to the block, oldest first (R31, R110). -/
  inputs : List Input
  /-- The host's byte store, in which every Byte Buffer is a window (R19, R20): addresses strictly rising, no byte 0 listed
  (an unlisted byte reads 0, log entry 4). -/
  mem : List Host.Cell
  /-- The result ports: the last response, or none while they carry no valid result (R106). They keep it until the next
  response or a reset (DESIGN CHOICE, log entry 20). -/
  response : Option Response
  /-- The model's own, not the spec's: how many races and cuts have drawn a free value (log entry 10). -/
  draws : Nat
  deriving DecidableEq, Repr

/-- The machine right after reset (R105, R106): no command presented, no byte of the store listed, no valid result. -/
def State.reset : State := { inputs := [], mem := [], response := none, draws := 0 }

end Sys2Proof.Machine
end

