-- ==== Sys2Proof/Machine/Ops.lean ====
section
/-! DEFINITION. The named operations over the state: the byte store, the byte primitives of the Byte Buffer with their
bounds policy (R22, R23), and the response. There is no operation that takes an exception or returns from one: "no state is
saved, no mode or mask changes" (R100, R101). -/

namespace Sys2Proof.Machine

/-- The byte store in its one canonical form (log entry 4). -/
abbrev Memory := List Host.Cell

/-- What an unlisted byte of the store reads as: 0 (DESIGN CHOICE, log entry 4). -/
def Memory.unlisted : Byte := 0#8

/-- The byte of the store at address `a`. -/
def Memory.read (m : Memory) (a : Nat) : Byte :=
  match m with
  | [] => Memory.unlisted
  | (k, v) :: rest => if k = a then v else Memory.read rest a

/-- The store with byte `b` at address `a`, in canonical form. -/
def Memory.write (m : Memory) (a : Nat) (b : Byte) : Memory :=
  match m with
  | [] => if b = Memory.unlisted then [] else [(a, b)]
  | (k, v) :: rest =>
    if a < k then (if b = Memory.unlisted then (k, v) :: rest else (a, b) :: (k, v) :: rest)
    else if a = k then (if b = Memory.unlisted then rest else (a, b) :: rest)
    else (k, v) :: Memory.write rest a b

/-- The canonical form: addresses strictly rising, no unlisted value listed. -/
def Memory.wf (m : Memory) : Bool :=
  match m with
  | [] => true
  | (k, v) :: rest => (v != Memory.unlisted) && rest.all (fun c => decide (k < c.1)) && Memory.wf rest

/-- The store after the writes of an agent, in order. -/
def Memory.writeCells (m : Memory) (cells : List Host.Cell) : Memory :=
  cells.foldl (fun m c => Memory.write m c.1 c.2) m

/-- "Its valid addresses are the integers `0 <= a < LEN`" (R20). -/
abbrev Buffer.Valid (buf : Buffer) (a : Int) : Prop := 0 ≤ a ∧ a < buf.len

/-- Where in the store the byte at a valid address of a buffer lies (log entry 3). -/
def Buffer.cell (buf : Buffer) (a : Int) : Nat := buf.base + a.toNat

/-- `MemRead(a, 1)` (R22): zero fill, per byte. -/
def memRead (m : Memory) (buf : Buffer) (a : Int) : Byte :=
  if Buffer.Valid buf a then Memory.read m (Buffer.cell buf a) else 0#8

/-- `MemWrite(a, 1, b)` (R23): skip, per byte. -/
def memWrite (m : Memory) (buf : Buffer) (a : Int) (b : Byte) : Memory :=
  if Buffer.Valid buf a then Memory.write m (Buffer.cell buf a) b else m

/-- One byte write of an operation: the buffer address and the byte. -/
abbrev Store := Int × Byte

/-- The byte writes of an operation, first to last. Their order is open (R29); it makes no difference (log entry 7). -/
def memWriteAll (m : Memory) (buf : Buffer) (stores : List Store) : Memory :=
  stores.foldl (fun m w => memWrite m buf w.1 w.2) m

/-- The operation answers (R112): the result ports carry its response. -/
def State.respond (s : State) (r : Response) : State := { s with response := some r }

/-- The operation performs byte writes to its buffer. -/
def State.store (s : State) (buf : Buffer) (stores : List Store) : State :=
  { s with mem := memWriteAll s.mem buf stores }

end Sys2Proof.Machine
end

