-- ==== Sys2Proof/Machine/Operands.lean ====
section
/-! DEFINITION. The operand forms: a value operand (R39, read by the decoder), the one addressing mode of the buffer
operations (R49), and the splitting of a word into the bytes of its image (R37). -/

namespace Sys2Proof.Machine

/-- "effective address of byte `i` is `offset + i`" (R49), in unbounded integers (R21). -/
def effectiveAddress (offset : Int) (i : Nat) : Int := offset + i

/-- Byte `k` of a word, byte 0 the least significant: `W[8k+7:8k]` (R7, R37). -/
def wordByte (w : BitWord32) (k : Nat) : Byte := w.extractLsb' (8 * k) 8

/-- The word whose bytes are `b3` (most significant) to `b0`: `b3 * 2^24 + b2 * 2^16 + b1 * 2^8 + b0` (R50). The sum is
below `2^32` (R47 (b)). -/
def wordOfBytes (b3 b2 b1 b0 : Byte) : BitWord32 :=
  BitVec.ofNat 32 (b3.toNat * 2 ^ 24 + b2.toNat * 2 ^ 16 + b1.toNat * 2 ^ 8 + b0.toNat)

end Sys2Proof.Machine
end

