-- ==== Sys2Proof/Machine/Assembler.lean ====
section
/-! DEFINITION. The Word Assembler (R50 to R53): the only component that touches the Byte Buffer, and only through
`memRead` and `memWrite`, so the bounds policy is built in. The unpack functions are given as the list of byte writes they
issue; the order of the accesses is open and makes no difference (R29, log entry 7). -/

namespace Sys2Proof.Machine

/-- `PACKW(buf, offset, order)` (R50). -/
def packw (m : Memory) (buf : Buffer) (offset : Int) : Order → BitWord32
  | .be => wordOfBytes
      (memRead m buf (effectiveAddress offset 0)) (memRead m buf (effectiveAddress offset 1))
      (memRead m buf (effectiveAddress offset 2)) (memRead m buf (effectiveAddress offset 3))
  | .le => wordOfBytes
      (memRead m buf (effectiveAddress offset 3)) (memRead m buf (effectiveAddress offset 2))
      (memRead m buf (effectiveAddress offset 1)) (memRead m buf (effectiveAddress offset 0))

/-- The byte writes of `UNPACKW(buf, offset, W, order)` (R51). -/
def unpackw (offset : Int) (w : BitWord32) : Order → List Store
  | .be => [(effectiveAddress offset 0, wordByte w 3), (effectiveAddress offset 1, wordByte w 2),
      (effectiveAddress offset 2, wordByte w 1), (effectiveAddress offset 3, wordByte w 0)]
  | .le => [(effectiveAddress offset 0, wordByte w 0), (effectiveAddress offset 1, wordByte w 1),
      (effectiveAddress offset 2, wordByte w 2), (effectiveAddress offset 3, wordByte w 3)]

/-- `PACKD(buf, offset, order)` (R52): the word pair `(HI, LO)`. The order of the two words follows the same flag. -/
def packd (m : Memory) (buf : Buffer) (offset : Int) : Order → BitWord32 × BitWord32
  | .be => (packw m buf offset .be, packw m buf (offset + 4) .be)
  | .le => (packw m buf (offset + 4) .le, packw m buf offset .le)

/-- The byte writes of `UNPACKD(buf, offset, HI, LO, order)` (R53). -/
def unpackd (offset : Int) (p : BitWord32 × BitWord32) : Order → List Store
  | .be => unpackw offset p.1 .be ++ unpackw (offset + 4) p.2 .be
  | .le => unpackw offset p.2 .le ++ unpackw (offset + 4) p.1 .le

end Sys2Proof.Machine
end

