-- ==== Sys2Proof/Machine/Flags.lean ====
section
/-! DEFINITION. The block has no flags (R14). What other hardware flags is here a condition evaluated inside one encode, in
the order R99 fixes: denormal, underflow, carry after rounding, overflow last. None is readable from outside. -/

namespace Sys2Proof.Machine

/-- "`be <= 0`": the denormal range (R70, R99 (2)). -/
abbrev denormalRange (be : Int) : Prop := be ≤ 0

/-- "`be <= UF`": underflow to a signed zero (R70, R99 (2)). -/
abbrev underflows (fmt : Format) (be : Int) : Prop := be ≤ fmt.uf

/-- "`r >= 2^MW`": the Rounder's result has reached the next power of two (R62, R70, R99 (3)). -/
abbrev carries (fmt : Format) (r : Nat) : Prop := 2 ^ fmt.mw ≤ r

/-- "`E > EMAXF`": overflow to a signed infinity, tested after the carry (R70, R99 (4)). -/
abbrev overflows (fmt : Format) (e : Int) : Prop := fmt.emaxf < e

end Sys2Proof.Machine
end

