-- ==== Sys2Proof/Machine/Normalizer.lean ====
section
/-! DEFINITION. The Normalizer (R55 to R59): the closed form the encoder uses, the staged procedure of the source, and the
integer form of the sub-block's interface. -/

namespace Sys2Proof.Machine

/-- `NORMALIZE(x)` (R55): "`e = floor(log2(x))` ... and `m = x / 2^e`". Its domain is the positive magnitudes (R56). -/
def normalForm (x : ℚ) : Int × ℚ := (Int.log 2 x, x / POW2 (Int.log 2 x))

/-- One downward stage of R57: `while m >= 2^step: m <- m / 2^step; e <- e + step`, for at most `fuel` rounds. -/
def stageDown (step : Nat) : Nat → Int × ℚ → Int × ℚ
  | 0, p => p
  | fuel + 1, (e, m) =>
    if POW2 step ≤ m then stageDown step fuel (e + step, m / POW2 step) else (e, m)

/-- One upward stage of R57: `while m < bound: m <- m * 2^step; e <- e - step`, for at most `fuel` rounds. The bound is
`2^-step`, but 1 in the last stage. -/
def stageUp (step : Nat) (bound : ℚ) : Nat → Int × ℚ → Int × ℚ
  | 0, p => p
  | fuel + 1, (e, m) =>
    if m < bound then stageUp step bound fuel (e - step, m * POW2 step) else (e, m)

/-- The staged procedure of R57: by 2^256, then 2^32, then 2^4, then 2^1. The rounds allowed to each stage are the maxima
of R58 (d), so that agreeing with `normalForm` on `F64pos` says that they suffice. -/
def normalFormStaged (x : ℚ) : Int × ℚ :=
  if 2 ≤ x then
    stageDown 1 3 (stageDown 4 7 (stageDown 32 7 (stageDown 256 3 (0, x))))
  else if x < 1 then
    stageUp 1 1 4 (stageUp 4 (POW2 (-4)) 7 (stageUp 32 (POW2 (-32)) 7 (stageUp 256 (POW2 (-256)) 4 (0, x))))
  else (0, x)

/-- The Normalizer as "a leading-zero count" (R59): for `x = K * 2^q`, the exponent `q + floor(log2(K))` and the 53-bit
integer `m * 2^52 = K * 2^(52 - floor(log2(K)))`. -/
def normalFormPair (K : Nat) (q : Int) : Int × Nat := (q + Nat.log2 K, K * 2 ^ (52 - Nat.log2 K))

end Sys2Proof.Machine
end

