-- ==== Sys2Proof/Machine/Rounder.lean ====
section
/-! DEFINITION. The Rounder (R60 to R64): round half to even, one integer result; the carry is a predicate on it (R62,
Machine/Flags.lean). -/

namespace Sys2Proof.Machine

/-- The choice of R60 between `n = floor(y)` and `n + 1` for an exact `y >= 0`. -/
def roundHalfEven (y : ℚ) : Nat :=
  if y - ⌊y⌋₊ > 1 / 2 then ⌊y⌋₊ + 1
  else if y - ⌊y⌋₊ < 1 / 2 then ⌊y⌋₊
  else if ⌊y⌋₊ % 2 = 0 then ⌊y⌋₊
  else ⌊y⌋₊ + 1

/-- `ROUND(f, k)` (R60): "the integer nearest to `f * 2^k`, ties to even", on every non-negative rational (R63). -/
def roundToScale (f : ℚ) (k : Nat) : Nat := roundHalfEven (f * POW2 k)

end Sys2Proof.Machine
end

