-- ==== Sys2Proof/Machine/Encoder.lean ====
section
/-! DEFINITION. What the two encoders share: the sign/magnitude split (R68) and the finite-value path `FINENC` (R70), with
the order of its tests (R99). -/

namespace Sys2Proof.Machine

/-- The classes of a magnitude that bypass the Normalizer and the Rounder (R69, R78, R99 (1)). -/
inductive Special where
  | zero
  | inf
  | nan
  deriving DecidableEq, Repr

/-- The class of a magnitude and, for a finite non-zero one, the magnitude (R68). -/
inductive Magnitude where
  | special (c : Special)
  | finite (x : F64pos)
  deriving DecidableEq, Repr

/-- `SIGNMAG(v)` (R68). A NaN has no sign and is given 0. -/
def signmag : NV → Sign × Magnitude
  | .nan => (0#1, .special .nan)
  | .inf s => (s, .special .inf)
  | .zero s => (s, .special .zero)
  | .fin s x => (s, .finite x)

/-- The provisional exponent field and the mantissa field of `FINENC` (R70) before its overflow test, from the NormalForm
`(e, m)`: biasing, the denormal and underflow tests, rounding and the carry. -/
def provisionalFields (fmt : Format) (e : Int) (m : ℚ) : Int × Nat :=
  if denormalRange (e + fmt.bias) then
    if underflows fmt (e + fmt.bias) then (0, 0)
    else if carries fmt (roundToScale (m * POW2 (e + fmt.bias - 1)) fmt.mw) then
      (1, roundToScale (m * POW2 (e + fmt.bias - 1)) fmt.mw - 2 ^ fmt.mw)
    else (0, roundToScale (m * POW2 (e + fmt.bias - 1)) fmt.mw)
  else if carries fmt (roundToScale (m - 1) fmt.mw) then
    (e + fmt.bias + 1, roundToScale (m - 1) fmt.mw - 2 ^ fmt.mw)
  else (e + fmt.bias, roundToScale (m - 1) fmt.mw)

/-- The last step of `FINENC` (R70): overflow to infinity. What is left is a field, a non-negative integer (R47 (b)). -/
def clampFields (fmt : Format) (p : Int × Nat) : Nat × Nat :=
  if overflows fmt p.1 then ((fmt.emaxf + 1).toNat, 0) else (p.1.toNat, p.2)

/-- `FINENC(x; MW, BIAS, UF, EMAXF)` (R70): the fields `(E, M)` of a positive finite magnitude. -/
def finenc (fmt : Format) (x : ℚ) : Nat × Nat :=
  clampFields fmt (provisionalFields fmt (normalForm x).1 (normalForm x).2)

end Sys2Proof.Machine
end

