-- ==== Sys2Proof/Machine/Float32.lean ====
section
/-! DEFINITION. The Float32 Codec: `FIELDS32` and `DEC32` (R65, R66), `SPECIAL32` and `ENC32` (R69, R72). -/

namespace Sys2Proof.Machine

/-- The FieldSet of a binary32 word (R9, R35): transient, never stored (R12). -/
structure FieldSet32 where
  s : Sign
  E : BitVec 8
  M : BitVec 23
  deriving DecidableEq, Repr

/-- `FIELDS32(W)` (R65): `s = W[31]`, `E = W[30:23]`, `M = W[22:0]`. -/
def fields32 (w : BitWord32) : FieldSet32 where
  s := w.extractLsb' 31 1
  E := w.extractLsb' 23 8
  M := w.extractLsb' 0 23

/-- The magnitude of a binary32 subnormal, `M * 2^(1 - 127 - 23)` (R66), is in `F64pos` (R67 (b)). -/
theorem subnormal32_mem {M : BitVec 23} (h : M ≠ 0#23) : InF64pos (M.toNat * POW2 (1 - 127 - 23)) := by
  have h0 : M.toNat ≠ 0 := fun h' => h (BitVec.eq_of_toNat_eq (by simpa using h'))
  exact ⟨M.toNat, 1 - 127 - 23, by omega, by have := M.isLt; omega, by norm_num, by norm_num, by rw [POW2_eq_zpow]⟩

/-- The magnitude of a binary32 normal, `(1 + M / 2^23) * 2^(E - 127)` (R66), is in `F64pos` (R67 (b)). -/
theorem normal32_mem (E : BitVec 8) (M : BitVec 23) :
    InF64pos ((1 + M.toNat / 2 ^ 23) * POW2 (E.toNat - 127)) := by
  have hE := E.isLt
  have hM := M.isLt
  refine ⟨2 ^ 23 + M.toNat, E.toNat - 150, by omega, by omega, by omega, by omega, ?_⟩
  have : (2 : ℚ) ^ ((E.toNat : Int) - 127) = 2 ^ 23 * (2 : ℚ) ^ ((E.toNat : Int) - 150) := by
    rw [← zpow_natCast, ← zpow_add₀ (by norm_num)]
    congr 1; push_cast; ring
  rw [POW2_eq_zpow, this]; push_cast; field_simp; norm_num

/-- `DEC32(W)` (R66): the exponent field is examined first, the mantissa field second (R99). -/
def dec32 (w : BitWord32) : NV :=
  if (fields32 w).E = 0#8 then
    if h : (fields32 w).M = 0#23 then .zero (fields32 w).s
    else .fin (fields32 w).s ⟨(fields32 w).M.toNat * POW2 (1 - 127 - 23), subnormal32_mem h⟩
  else if (fields32 w).E = 255#8 then
    if (fields32 w).M = 0#23 then .inf (fields32 w).s else .nan
  else .fin (fields32 w).s
    ⟨(1 + (fields32 w).M.toNat / 2 ^ 23) * POW2 ((fields32 w).E.toNat - 127), normal32_mem _ _⟩

/-- `SPECIAL32(s, class)` (R69). -/
def special32 (s : Sign) : Special → BitWord32
  | .zero => BitVec.ofNat 32 (s.toNat * 2 ^ 31)
  | .inf => BitVec.ofNat 32 (s.toNat * 2 ^ 31 + 0x7F800000)
  | .nan => Config.qnan32

/-- The assembly of a binary32 word, `s * 2^31 + E * 2^23 + M` (R35, R72). -/
def assemble32 (s : Sign) (f : Nat × Nat) : BitWord32 :=
  BitVec.ofNat 32 (s.toNat * 2 ^ 31 + f.1 * 2 ^ 23 + f.2)

/-- `ENC32(v)` (R72). -/
def enc32 (v : NV) : BitWord32 :=
  match signmag v with
  | (s, .special c) => special32 s c
  | (s, .finite x) => assemble32 s (finenc binary32 x.val)

end Sys2Proof.Machine
end

