-- ==== Sys2Proof/Machine/Float64.lean ====
section
/-! DEFINITION. The Float64 Codec: `FIELDS64` and `DEC64` (R75, R76), `SPECIAL64`, `SPLIT64` and `ENC64` (R78, R80, R81). -/

namespace Sys2Proof.Machine

/-- The FieldSet of a binary64 word pair (R9, R36): transient, never stored (R12). -/
structure FieldSet64 where
  s : Sign
  E : BitVec 11
  M : BitVec 52
  deriving DecidableEq, Repr

/-- `FIELDS64(HI, LO)` (R75): `s = HI[31]`, `E = HI[30:20]`, `M = HI[19:0] * 2^32 + LO`. -/
def fields64 (hi lo : BitWord32) : FieldSet64 where
  s := hi.extractLsb' 31 1
  E := hi.extractLsb' 20 11
  M := hi.extractLsb' 0 20 ++ lo

/-- The magnitude of a binary64 subnormal, `M * 2^(1 - 1023 - 52)` (R76), is in `F64pos`. -/
theorem subnormal64_mem {M : BitVec 52} (h : M ≠ 0#52) : InF64pos (M.toNat * POW2 (1 - 1023 - 52)) := by
  have h0 : M.toNat ≠ 0 := fun h' => h (BitVec.eq_of_toNat_eq (by simpa using h'))
  exact ⟨M.toNat, 1 - 1023 - 52, by omega, by have := M.isLt; omega, by norm_num, by norm_num, by rw [POW2_eq_zpow]⟩

/-- The magnitude of a binary64 normal, `(1 + M / 2^52) * 2^(E - 1023)` with `0 < E < 2047` (R76), is in `F64pos`. -/
theorem normal64_mem {E : BitVec 11} (M : BitVec 52) (h0 : E ≠ 0#11) (h1 : E ≠ 2047#11) :
    InF64pos ((1 + M.toNat / 2 ^ 52) * POW2 (E.toNat - 1023)) := by
  have hE := E.isLt
  have hM := M.isLt
  have hE0 : E.toNat ≠ 0 := fun h' => h0 (BitVec.eq_of_toNat_eq (by simpa using h'))
  have hE1 : E.toNat ≠ 2047 := fun h' => h1 (BitVec.eq_of_toNat_eq (by simpa using h'))
  refine ⟨2 ^ 52 + M.toNat, E.toNat - 1075, by omega, by omega, by omega, by omega, ?_⟩
  have : (2 : ℚ) ^ ((E.toNat : Int) - 1023) = 2 ^ 52 * (2 : ℚ) ^ ((E.toNat : Int) - 1075) := by
    rw [← zpow_natCast, ← zpow_add₀ (by norm_num)]
    congr 1; push_cast; ring
  rw [POW2_eq_zpow, this]; push_cast; field_simp; norm_num

/-- `DEC64(HI, LO)` (R76). -/
def dec64 (hi lo : BitWord32) : NV :=
  if hE : (fields64 hi lo).E = 0#11 then
    if h : (fields64 hi lo).M = 0#52 then .zero (fields64 hi lo).s
    else .fin (fields64 hi lo).s ⟨(fields64 hi lo).M.toNat * POW2 (1 - 1023 - 52), subnormal64_mem h⟩
  else if hE' : (fields64 hi lo).E = 2047#11 then
    if (fields64 hi lo).M = 0#52 then .inf (fields64 hi lo).s else .nan
  else .fin (fields64 hi lo).s
    ⟨(1 + (fields64 hi lo).M.toNat / 2 ^ 52) * POW2 ((fields64 hi lo).E.toNat - 1023), normal64_mem _ hE hE'⟩

/-- `SPECIAL64(s, class)` (R78). -/
def special64 (s : Sign) : Special → BitWord32 × BitWord32
  | .zero => (BitVec.ofNat 32 (s.toNat * 2 ^ 31), 0#32)
  | .inf => (BitVec.ofNat 32 (s.toNat * 2 ^ 31 + 0x7FF00000), 0#32)
  | .nan => (Config.qnan64Hi, Config.qnan64Lo)

/-- `SPLIT64(s, E, M)` (R80): the mantissa is split by exact division by `2^32`. -/
def split64 (s : Sign) (f : Nat × Nat) : BitWord32 × BitWord32 :=
  (BitVec.ofNat 32 (s.toNat * 2 ^ 31 + f.1 * 2 ^ 20 + f.2 / 2 ^ 32), BitVec.ofNat 32 (f.2 % 2 ^ 32))

/-- `ENC64(v)` (R81). -/
def enc64 (v : NV) : BitWord32 × BitWord32 :=
  match signmag v with
  | (s, .special c) => special64 s c
  | (s, .finite x) => split64 s (finenc binary64 x.val)

end Sys2Proof.Machine
end

