-- ==== Sys2Proof/Machine/Words.lean ====
section
/-! DEFINITION. The meanings of the four operations at the word ports (`BUF = 0`, R41). They touch no memory (R20). -/

namespace Sys2Proof.Machine

/-- The answer of a decode or a read of format `fmt`: the value on `res_val`, as its canonical carrier (R39, R112). -/
def State.answerValue (s : State) (fmt : Format) (v : NV) : State := s.respond (.value (writeCarrier fmt v))

/-- `DEC32` (R66). -/
def execDec32 (w : BitWord32) (s : State) : Host.Outcome State Fault Refusal :=
  .next (s.answerValue binary32 (dec32 w))

/-- `DEC64` (R76). -/
def execDec64 (hi lo : BitWord32) (s : State) : Host.Outcome State Fault Refusal :=
  .next (s.answerValue binary64 (dec64 hi lo))

/-- `ENC32` (R72): the word on `res_hi`. -/
def execEnc32 (v : NV) (s : State) : Host.Outcome State Fault Refusal :=
  .next (s.respond (.word (enc32 v)))

/-- `ENC64` (R81): the word pair on `res_hi` and `res_lo`. -/
def execEnc64 (v : NV) (s : State) : Host.Outcome State Fault Refusal :=
  .next (s.respond (.wordPair (enc64 v).1 (enc64 v).2))

end Sys2Proof.Machine
end

