-- ==== Sys2Proof/Machine/Reads.lean ====
section
/-! DEFINITION. The meanings of the four read operations (R85 to R88): the whole decode path, from the buffer to a value. -/

namespace Sys2Proof.Machine

/-- `readFloatBE(buffer, offset)` (R85). -/
def execReadFloatBE (buf : Buffer) (offset : Int) (s : State) : Host.Outcome State Fault Refusal :=
  .next (s.answerValue binary32 (dec32 (packw s.mem buf offset .be)))

/-- `readFloatLE(buffer, offset)` (R86). -/
def execReadFloatLE (buf : Buffer) (offset : Int) (s : State) : Host.Outcome State Fault Refusal :=
  .next (s.answerValue binary32 (dec32 (packw s.mem buf offset .le)))

/-- `readDoubleBE(buffer, offset)` (R87). -/
def execReadDoubleBE (buf : Buffer) (offset : Int) (s : State) : Host.Outcome State Fault Refusal :=
  .next (s.answerValue binary64 (dec64 (packd s.mem buf offset .be).1 (packd s.mem buf offset .be).2))

/-- `readDoubleLE(buffer, offset)` (R88). -/
def execReadDoubleLE (buf : Buffer) (offset : Int) (s : State) : Host.Outcome State Fault Refusal :=
  .next (s.answerValue binary64 (dec64 (packd s.mem buf offset .le).1 (packd s.mem buf offset .le).2))

end Sys2Proof.Machine
end

