-- ==== Sys2Proof/Machine/Writes.lean ====
section
/-! DEFINITION. The meanings of the four write operations (R89 to R92): the whole encode path, from a value to the buffer.
A write answers with its completion alone (R93). -/

namespace Sys2Proof.Machine

/-- `writeFloatBE(buffer, value, offset)` (R89). -/
def execWriteFloatBE (buf : Buffer) (v : NV) (offset : Int) (s : State) : Host.Outcome State Fault Refusal :=
  .next ((s.store buf (unpackw offset (enc32 v) .be)).respond .completed)

/-- `writeFloatLE(buffer, value, offset)` (R90). -/
def execWriteFloatLE (buf : Buffer) (v : NV) (offset : Int) (s : State) : Host.Outcome State Fault Refusal :=
  .next ((s.store buf (unpackw offset (enc32 v) .le)).respond .completed)

/-- `writeDoubleBE(buffer, value, offset)` (R91). -/
def execWriteDoubleBE (buf : Buffer) (v : NV) (offset : Int) (s : State) : Host.Outcome State Fault Refusal :=
  .next ((s.store buf (unpackd offset (enc64 v) .be)).respond .completed)

/-- `writeDoubleLE(buffer, value, offset)` (R92). -/
def execWriteDoubleLE (buf : Buffer) (v : NV) (offset : Int) (s : State) : Host.Outcome State Fault Refusal :=
  .next ((s.store buf (unpackd offset (enc64 v) .le)).respond .completed)

/-- The buffer an instruction writes and the byte writes it issues: what `reset` can cut short (R106). Every other
instruction issues none (R20, R26). -/
def Instr.stores : Instr → Option (Buffer × List Store)
  | .dec32 _ => none
  | .dec64 _ _ => none
  | .enc32 _ => none
  | .enc64 _ => none
  | .readFloatBE _ _ => none
  | .readFloatLE _ _ => none
  | .readDoubleBE _ _ => none
  | .readDoubleLE _ _ => none
  | .writeFloatBE buf v offset => some (buf, unpackw offset (enc32 v) .be)
  | .writeFloatLE buf v offset => some (buf, unpackw offset (enc32 v) .le)
  | .writeDoubleBE buf v offset => some (buf, unpackd offset (enc64 v) .be)
  | .writeDoubleLE buf v offset => some (buf, unpackd offset (enc64 v) .le)

end Sys2Proof.Machine
end

