-- ==== Sys2Proof/Machine/Dispatch.lean ====
section
/-! DEFINITION. One arm per operation of the opcode map (R41), each a direct call of its meaning. -/

namespace Sys2Proof.Machine

def exec (i : Instr) (s : State) : Host.Outcome State Fault Refusal :=
  match i with
  | .dec32 w => Sys2Proof.Machine.execDec32 w s
  | .dec64 hi lo => Sys2Proof.Machine.execDec64 hi lo s
  | .enc32 v => Sys2Proof.Machine.execEnc32 v s
  | .enc64 v => Sys2Proof.Machine.execEnc64 v s
  | .readFloatBE buf offset => Sys2Proof.Machine.execReadFloatBE buf offset s
  | .readFloatLE buf offset => Sys2Proof.Machine.execReadFloatLE buf offset s
  | .readDoubleBE buf offset => Sys2Proof.Machine.execReadDoubleBE buf offset s
  | .readDoubleLE buf offset => Sys2Proof.Machine.execReadDoubleLE buf offset s
  | .writeFloatBE buf v offset => Sys2Proof.Machine.execWriteFloatBE buf v offset s
  | .writeFloatLE buf v offset => Sys2Proof.Machine.execWriteFloatLE buf v offset s
  | .writeDoubleBE buf v offset => Sys2Proof.Machine.execWriteDoubleBE buf v offset s
  | .writeDoubleLE buf v offset => Sys2Proof.Machine.execWriteDoubleLE buf v offset s

end Sys2Proof.Machine
end

