-- ==== Sys2Proof/Machine/Inputs.lean ====
section
/-! DEFINITION. What the machine does with each input (R106, R112, R113). A command is taken whole from the ports and
decoded; there is no program counter and no fetch (R13, R48). -/

namespace Sys2Proof.Machine

/-- A command that selects no operation has no step, no result and no state change (R97). -/
def Reject.refusal : Reject → Refusal
  | .reservedOp op => .reservedOp op
  | .noNumericValue val => .noNumericValue val

/-- The block accepts a command, runs it and answers it (R112). -/
def runRequest (r : Request) (s : State) : Host.Outcome State Fault Refusal :=
  match decode r with
  | .ok i => exec i s
  | .error why => .refused (Reject.refusal why)

/-- The items of a list that `pick` selects by their index, counted from `i`, and by what they are; in their order. -/
def chosen {α : Type} (pick : Nat → α → Bool) : Nat → List α → List α
  | _, [] => []
  | i, x :: rest => if pick i x then x :: chosen pick (i + 1) rest else chosen pick (i + 1) rest

/-- The `i`-th write of the agent of race `n` lands before the operation's one access to the byte it writes (R26, R28). -/
def landsBefore (n i : Nat) (c : Host.Cell) : Bool := decide (i < Config.accessAfter n c.1)

/-- A command during which another agent writes bytes of the store (R28, U8): the agent's writes land in their order (R31),
and nothing says between which of them the operation accesses a byte (free value, log entry 8). So the writes to each byte
split into those before the access and those after it. -/
def runRaced (r : Request) (writes : List Host.Cell) (s : State) : Host.Outcome State Fault Refusal :=
  match runRequest r { s with
      mem := Memory.writeCells s.mem (chosen (landsBefore s.draws) 0 writes)
      draws := s.draws + 1 } with
  | .next t => .next { t with
      mem := Memory.writeCells t.mem (chosen (fun i c => !landsBefore s.draws i c) 0 writes) }
  | .fault why => .fault why
  | .refused why => .refused why

/-- Another agent, or the caller, writes one byte while the block is idle (R113). The result ports keep the last response
meanwhile (DESIGN CHOICE, log entry 20). -/
def agentWrites (addr : Nat) (b : Byte) (s : State) : Host.Outcome State Fault Refusal :=
  .next { s with mem := Memory.write s.mem addr b }

/-- Reset of the idle block (R106): the result ports carry no valid result; the buffer is neither read nor written. -/
def resetBlock (s : State) : Host.Outcome State Fault Refusal :=
  .next { s with response := none }

/-- Reset while a command is in progress (R106, U10): the operation is abandoned and gives no response, and nothing says
which of its byte writes have reached the buffer (free value, log entry 9). -/
def runCut (r : Request) (s : State) : Host.Outcome State Fault Refusal :=
  match decode r with
  | .ok i =>
    match Instr.stores i with
    | some (buf, stores) => .next { s with
        mem := memWriteAll s.mem buf (chosen (fun i _ => Config.writeLanded s.draws i) 0 stores)
        response := none
        draws := s.draws + 1 }
    | none => .next { s with response := none, draws := s.draws + 1 }
  | .error why => .refused (Reject.refusal why)

/-- One input, taken from the head of those that wait. -/
def runInput (input : Input) (s : State) : Host.Outcome State Fault Refusal :=
  match input with
  | .command r => runRequest r s
  | .agentWrite addr b => agentWrites addr b s
  | .racedCommand r writes => runRaced r writes s
  | .reset => resetBlock s
  | .cutCommand r => runCut r s

end Sys2Proof.Machine
end

