-- ==== Sys2Proof/Machine/Step.lean ====
section
/-! DEFINITION. One step: the machine takes the oldest input and does what it asks for (R31, R112); with no input the block
idles, and the result ports keep the last response (log entries 14 and 20). -/

namespace Sys2Proof.Machine

def step (s : State) : Host.Outcome State Fault Refusal :=
  match s.inputs with
  | [] => .next s
  | input :: rest => runInput input { s with inputs := rest }

/-- The state with a command presented to the block whose ports hold the low `nbits` bits of `w`, as `Request.ofWord`
numbers them, before every input that waits (log entries 13 and 14). -/
def State.withFetchWord (s : State) (nbits w : Nat) : State :=
  { s with inputs := .command (Request.ofWord (w % 2 ^ nbits)) :: s.inputs }

end Sys2Proof.Machine
end

