-- ==== Sys2Proof/Safety.lean ====
section
/-! DEFINITION. What counts as a safe run, in the terms the statements use: the invariant of the machine, the inputs it can
serve, and the bytes a command may touch (R113). -/

namespace Sys2Proof.Machine

/-- The command selects an operation and, where the operation reads a value, carries one (R97, R113 "what the host must
do"). -/
def Servable (r : Request) : Prop := ∃ i, decode r = .ok i

/-- The input asks for nothing the block refuses. -/
def ServableInput : Input → Prop
  | .command r => Servable r
  | .agentWrite _ _ => True
  | .racedCommand r _ => Servable r
  | .reset => True
  | .cutCommand r => Servable r

/-- The invariant of the machine: its byte store is in canonical form. -/
def State.Inv (s : State) : Prop := Memory.wf s.mem = true

/-- A state from which every run completes: the invariant holds and every input that waits can be served. -/
def State.Safe (s : State) : Prop := s.Inv ∧ ∀ input ∈ s.inputs, ServableInput input

/-- The buffer and the buffer addresses an instruction may access (R26, R49): 4 from `offset` for a float, 8 for a double,
none at the word ports. -/
def Instr.window : Instr → Option (Buffer × Int × Nat)
  | .dec32 _ => none
  | .dec64 _ _ => none
  | .enc32 _ => none
  | .enc64 _ => none
  | .readFloatBE buf offset => some (buf, offset, 4)
  | .readFloatLE buf offset => some (buf, offset, 4)
  | .readDoubleBE buf offset => some (buf, offset, 8)
  | .readDoubleLE buf offset => some (buf, offset, 8)
  | .writeFloatBE buf _ offset => some (buf, offset, 4)
  | .writeFloatLE buf _ offset => some (buf, offset, 4)
  | .writeDoubleBE buf _ offset => some (buf, offset, 8)
  | .writeDoubleLE buf _ offset => some (buf, offset, 8)

/-- Byte `h` of the store lies in the part of the instruction's window that is in its buffer (R113 "what the block may
touch"). -/
def Instr.Touches (i : Instr) (h : Nat) : Prop :=
  ∃ buf offset n, Instr.window i = some (buf, offset, n) ∧
    ∃ k : Nat, k < n ∧ Buffer.Valid buf (effectiveAddress offset k) ∧
      h = Buffer.cell buf (effectiveAddress offset k)

end Sys2Proof.Machine
end

