-- ==== Sys2Proof/Certificates/Slice0/Obligations.lean ====
section
/-! DEFINITION. The statements for the provers, from the numbered rules of spec/. The definitions before them only name what
several statements speak of. -/

namespace Sys2Proof.Machine

/-- `F32pos` (R67 (d)): the positive finite magnitudes a binary32 word can hold. -/
def F32pos (x : ℚ) : Prop :=
  (∃ E M : Nat, 1 ≤ E ∧ E ≤ 254 ∧ M < 2 ^ 23 ∧ x = (2 ^ 23 + M) * (2 : ℚ) ^ ((E : Int) - 150)) ∨
    ∃ M : Nat, 1 ≤ M ∧ M < 2 ^ 23 ∧ x = M * (2 : ℚ) ^ (-149 : Int)

/-- The word is a NaN pattern of binary32: exponent field all ones, mantissa field not 0 (R66). -/
def NaNPattern32 (w : BitWord32) : Prop := w.toNat / 2 ^ 23 % 2 ^ 8 = 255 ∧ w.toNat % 2 ^ 23 ≠ 0

/-- The 52-bit mantissa field of a word pair: `(HI mod 2^20) * 2^32 + LO` (R75). -/
def mantissa64 (hi lo : BitWord32) : Nat := hi.toNat % 2 ^ 20 * 2 ^ 32 + lo.toNat

/-- The word pair is a NaN pattern of binary64 (R76). -/
def NaNPattern64 (hi lo : BitWord32) : Prop := hi.toNat / 2 ^ 20 % 2 ^ 11 = 2047 ∧ mantissa64 hi lo ≠ 0

/-- The sign bit of a word, `floor(W / 2^31)` (R65, R75). -/
def signBit (w : BitWord32) : Sign := BitVec.ofNat 1 (w.toNat / 2 ^ 31)

/-- Where a value of the image of `DEC32` stands for the comparison of R73 (c): a zero at 0 and an infinity at `2^128`. -/
def magnitude32 : NV → ℚ
  | .nan => 0
  | .inf _ => 2 ^ 128
  | .zero _ => 0
  | .fin _ x => x.val

/-- The byte, as an integer, that a read of byte `i` of the window at `offset` gives (R22, R49). -/
def windowByte (m : Memory) (buf : Buffer) (offset : Int) (i : Nat) : Nat :=
  (memRead m buf (effectiveAddress offset i)).toNat

/-- The integer of `n` bytes in a byte order (R24): byte 0 is the most significant under `BE`, the least under `LE`. -/
def ofBytes (b : Nat → Nat) (n : Nat) : Order → Nat
  | .be => ∑ i ∈ Finset.range n, b i * 2 ^ (8 * (n - 1 - i))
  | .le => ∑ i ∈ Finset.range n, b i * 2 ^ (8 * i)

/-- Byte `i` of the `n`-byte image of the integer `p` in a byte order (R24, R37). -/
def imageByte (p n : Nat) (o : Order) (i : Nat) : Nat :=
  match o with
  | .be => p / 2 ^ (8 * (n - 1 - i)) % 2 ^ 8
  | .le => p / 2 ^ (8 * i) % 2 ^ 8

/-- A word pair as one integer, `HI * 2^32 + LO` (R18, R36). -/
def pairNat (p : BitWord32 × BitWord32) : Nat := p.1.toNat * 2 ^ 32 + p.2.toNat

/-- The effect of the byte writes of an operation on the store: each in-range byte of the window holds its byte of the
image of `p`, and every other byte of the store reads as before (R23, R26). -/
def ImageWritten (m m' : Memory) (buf : Buffer) (offset : Int) (p n : Nat) (o : Order) : Prop :=
  (∀ i < n, Buffer.Valid buf (effectiveAddress offset i) →
      (Memory.read m' (Buffer.cell buf (effectiveAddress offset i))).toNat = imageByte p n o i) ∧
    ∀ h : Nat, (∀ i < n, Buffer.Valid buf (effectiveAddress offset i) →
      h ≠ Buffer.cell buf (effectiveAddress offset i)) → Memory.read m' h = Memory.read m h

/-- The window of `n` bytes at `offset` lies in the buffer. -/
def InBounds (buf : Buffer) (offset : Int) (n : Nat) : Prop := 0 ≤ offset ∧ offset + n ≤ buf.len

/-- The window of `n` bytes at `offset` lies wholly outside the buffer. -/
def OutOfBounds (buf : Buffer) (offset : Int) (n : Nat) : Prop :=
  ∀ i < n, ¬ Buffer.Valid buf (effectiveAddress offset i)

/-- The finite operand of `cls = 1` carriers is an `NV` (R39): `K != 0` and `K * 2^q` in `F64pos`. -/
def DenotesFinite (nv : BitVec 68) : Prop :=
  carrierSig nv ≠ 0 ∧ InF64pos (carrierSig nv * (2 : ℚ) ^ carrierExp nv)

/-- The state after an answer on `res_val`: nothing else has changed. -/
def answered (s : State) (c : BitVec 68) : State := { s with response := some (.value c) }

end Sys2Proof.Machine

open Sys2Proof Sys2Proof.Machine

/-! ### The power-of-two table and the value type -/

/-- R105, R11: `POW2[n] = 2^n` for every index of the table. -/
def Obligations.Pow2EntriesAreExactPowers : Prop :=
  ∀ n : Int, Config.pow2Min ≤ n → n ≤ Config.pow2Max → POW2 n = (2 : ℚ) ^ n

/-- R17: the form `K * 2^q` of `F64pos` and the two set expressions describe the same magnitudes, whose least is `2^-1074`
and whose greatest is `(2^53 - 1) * 2^971`. -/
def Obligations.F64posIsTheSetOfBinary64Magnitudes : Prop :=
  (∀ x : ℚ, InF64pos x ↔
    (∃ E f : Nat, 1 ≤ E ∧ E ≤ 2046 ∧ f < 2 ^ 52 ∧ x = (2 ^ 52 + f) * (2 : ℚ) ^ ((E : Int) - 1075)) ∨
      ∃ f : Nat, 1 ≤ f ∧ f < 2 ^ 52 ∧ x = f * (2 : ℚ) ^ (-1074 : Int)) ∧
  (InF64pos ((2 : ℚ) ^ (-1074 : Int)) ∧ InF64pos ((2 ^ 53 - 1) * (2 : ℚ) ^ (971 : Int)) ∧
    ∀ x : ℚ, InF64pos x → (2 : ℚ) ^ (-1074 : Int) ≤ x ∧ x ≤ (2 ^ 53 - 1) * (2 : ℚ) ^ (971 : Int))

/-! ### The Normalizer -/

/-- R55: `NORMALIZE(x)` is the one pair with `1 <= m < 2` and `x = m * 2^e`, with the rule's corner cases and example. -/
def Obligations.NormalFormIsTheUniquePair : Prop :=
  (∀ x : ℚ, 0 < x →
    x = (normalForm x).2 * (2 : ℚ) ^ (normalForm x).1 ∧ 1 ≤ (normalForm x).2 ∧ (normalForm x).2 < 2 ∧
      ((2 : ℚ) ^ (normalForm x).1 ≤ x ∧ x < (2 : ℚ) ^ ((normalForm x).1 + 1)) ∧
      ∀ (e : Int) (m : ℚ), 1 ≤ m → m < 2 → x = m * (2 : ℚ) ^ e → (e, m) = normalForm x) ∧
  (∀ n : Int, normalForm ((2 : ℚ) ^ n) = (n, 1)) ∧
  normalForm ((2 - (2 : ℚ) ^ (-52 : Int)) * (2 : ℚ) ^ (1023 : Int)) = (1023, 2 - (2 : ℚ) ^ (-52 : Int)) ∧
  normalForm (0x1999999999999A * (2 : ℚ) ^ (-56 : Int)) = (-4, 0x1999999999999A / 2 ^ 52)

/-- R58 (c): over `F64pos` the exponent is in `[-1074, 1023]` and `m * 2^52` is an integer in `[2^52, 2^53)`. -/
def Obligations.NormalFormRangesOverF64pos : Prop :=
  ∀ x : F64pos, -1074 ≤ (normalForm x.val).1 ∧ (normalForm x.val).1 ≤ 1023 ∧
    ∃ n : Nat, (normalForm x.val).2 * 2 ^ 52 = n ∧ 2 ^ 52 ≤ n ∧ n < 2 ^ 53

/-- R57, R58 (a), (d): the staged procedure, with the loop bounds of R58 (d), returns the pair of R55 on all of `F64pos`. -/
def Obligations.StagedNormalizerComputesTheNormalForm : Prop :=
  ∀ x : F64pos, normalFormStaged x.val = normalForm x.val

/-- R59: for `x = K * 2^q`, `1 <= K < 2^53`, the leading-zero count gives the pair of R55, with `m` as a 53-bit integer
whose top bit is set; and the rule's worked example. -/
def Obligations.NormalFormIsALeadingZeroCount : Prop :=
  (∀ (K : Nat) (q : Int), 1 ≤ K → K < 2 ^ 53 →
    normalForm (K * (2 : ℚ) ^ q) = ((normalFormPair K q).1, ((normalFormPair K q).2 : ℚ) / 2 ^ 52) ∧
      2 ^ 52 ≤ (normalFormPair K q).2 ∧ (normalFormPair K q).2 < 2 ^ 53) ∧
  normalFormPair (2 ^ 24 - 1) (-150) = (-127, 0x1FFFFFE0000000)

/-! ### The Rounder -/

/-- R60, R61: `ROUND(f, k)` is `floor(y)` or `floor(y) + 1` for `y = f * 2^k` by the fraction `d = y - floor(y)`, the even
one of the two at a tie; no integer is nearer to `y`; "add 0.5 and floor" goes up at every tie, so it differs where the
floor is even. -/
def Obligations.RoundGoesToTheNearestTiesToEven : Prop :=
  ∀ (f : ℚ) (k : Nat), 0 ≤ f →
    let y := f * 2 ^ k
    let n := ⌊y⌋₊
    let d := y - n
    (d > 1 / 2 → roundToScale f k = n + 1) ∧ (d < 1 / 2 → roundToScale f k = n) ∧
    (d = 1 / 2 → n % 2 = 0 → roundToScale f k = n ∧ ⌊y + 1 / 2⌋₊ = n + 1) ∧
    (d = 1 / 2 → n % 2 = 1 → roundToScale f k = n + 1 ∧ ⌊y + 1 / 2⌋₊ = n + 1) ∧
    (d = 1 / 2 → roundToScale f k % 2 = 0) ∧
    (∀ j : Nat, |(roundToScale f k : ℚ) - y| ≤ |(j : ℚ) - y|) ∧
    (∀ j : Nat, y = j → roundToScale f k = j)

/-- R62 with R60: the range of `ROUND` on `[0, 1)` and `[0, 2)`, and when it carries. R62 is corrected at `k = 0`, which the
block never uses: there `2^k - 1` is 0, which is even, so by R60 the tie at one half stays at 0 and the carry needs more than
one half; R62's condition, whose reason is that `2^k - 1` is odd, is that of `k > 0`. -/
def Obligations.RoundRangeAndCarry : Prop :=
  (∀ (f : ℚ) (k : Nat), 0 ≤ f → f < 1 →
    roundToScale f k ≤ 2 ^ k ∧
    (0 < k → (roundToScale f k = 2 ^ k ↔ f * 2 ^ k ≥ 2 ^ k - 1 / 2)) ∧
    (k = 0 → (roundToScale f k = 1 ↔ f > 1 / 2))) ∧
  (∀ (f : ℚ) (k : Nat), 0 ≤ f → f < 2 → roundToScale f k ≤ 2 ^ (k + 1)) ∧
  (∀ (fmt : Format) (r : Nat), carries fmt r ↔ r ≥ 2 ^ fmt.mw)

/-- R63, with the branches of R70: the operand `f` that the encoder hands the Rounder is a fraction below 1, in the normal
branch `m - 1` in `[0, 1)`, in the subnormal branch `m * 2^(be - 1)` in `(0, 1)`; the underflow branch rounds nothing. The
fields of `FINENC` are those of these branches, with the overflow test last. A caller that kept the leading 1 would get
results in `[2^k, 2^(k+1)]`. -/
def Obligations.EncoderRoundsFractionsBelowOne : Prop :=
  (∀ (m : ℚ) (k : Nat), 1 ≤ m → m < 2 → 2 ^ k ≤ roundToScale m k ∧ roundToScale m k ≤ 2 ^ (k + 1)) ∧
  ∀ (x : F64pos) (fmt : Format), fmt = binary32 ∨ fmt = binary64 →
    let e := (normalForm x.val).1
    let m := (normalForm x.val).2
    let be := e + fmt.bias
    (0 < be → ∃ f : ℚ, f = m - 1 ∧ 0 ≤ f ∧ f < 1 ∧
      provisionalFields fmt e m = if 2 ^ fmt.mw ≤ roundToScale f fmt.mw then (be + 1, roundToScale f fmt.mw - 2 ^ fmt.mw)
        else (be, roundToScale f fmt.mw)) ∧
    (fmt.uf < be → be ≤ 0 → ∃ f : ℚ, f = m * (2 : ℚ) ^ (be - 1) ∧ 0 < f ∧ f < 1 ∧
      provisionalFields fmt e m = if 2 ^ fmt.mw ≤ roundToScale f fmt.mw then (1, roundToScale f fmt.mw - 2 ^ fmt.mw)
        else (0, roundToScale f fmt.mw)) ∧
    (be ≤ fmt.uf → provisionalFields fmt e m = (0, 0)) ∧
    finenc fmt x.val = if fmt.emaxf < (provisionalFields fmt e m).1 then ((fmt.emaxf + 1).toNat, 0)
      else ((provisionalFields fmt e m).1.toNat, (provisionalFields fmt e m).2)

/-! ### Decoding -/

/-- R65, R35: the fields of a binary32 word by floor and mod, and the word from its fields; the rule's examples. -/
def Obligations.Fields32AreTheNumberedBits : Prop :=
  (∀ w : BitWord32,
    (fields32 w).s.toNat = w.toNat / 2 ^ 31 ∧ (fields32 w).E.toNat = w.toNat / 2 ^ 23 % 2 ^ 8 ∧
    (fields32 w).M.toNat = w.toNat % 2 ^ 23 ∧
    w.toNat = (fields32 w).s.toNat * 2 ^ 31 + (fields32 w).E.toNat * 2 ^ 23 + (fields32 w).M.toNat) ∧
  fields32 0x3FC00000#32 = { s := 0#1, E := 127#8, M := 0x400000#23 } ∧
  fields32 0xFF800000#32 = { s := 1#1, E := 255#8, M := 0#23 }

/-- R75, R36: the fields of a binary64 word pair, and the pair from its fields; the rule's examples. -/
def Obligations.Fields64AreTheNumberedBits : Prop :=
  (∀ hi lo : BitWord32,
    (fields64 hi lo).s.toNat = hi.toNat / 2 ^ 31 ∧ (fields64 hi lo).E.toNat = hi.toNat / 2 ^ 20 % 2 ^ 11 ∧
    (fields64 hi lo).M.toNat = hi.toNat % 2 ^ 20 * 2 ^ 32 + lo.toNat ∧
    hi.toNat * 2 ^ 32 + lo.toNat
      = (fields64 hi lo).s.toNat * 2 ^ 63 + (fields64 hi lo).E.toNat * 2 ^ 52 + (fields64 hi lo).M.toNat) ∧
  fields64 0x3FF80000#32 0x00000000#32 = { s := 0#1, E := 1023#11, M := BitVec.ofNat 52 (2 ^ 51) } ∧
  fields64 0x800FFFFF#32 0xFFFFFFFF#32 = { s := 1#1, E := 0#11, M := BitVec.ofNat 52 (2 ^ 52 - 1) }

/-- R66: `DEC32` completes in every state, its answer on `res_val` is the canonical carrier (R39) of the value that the rule's
cases give and reads as that value, and nothing but the response changes. -/
def Obligations.Dec32AnswersTheValueOfTheWord : Prop :=
  ∀ (w : BitWord32) (s : State),
    let E : Nat := w.toNat / 2 ^ 23 % 2 ^ 8
    let M : Nat := w.toNat % 2 ^ 23
    ∃ (c : BitVec 68) (v : NV),
      exec (.dec32 w) s = .next (answered s c) ∧ v = dec32 w ∧ c = writeCarrier binary32 v ∧ readCarrier c = some v ∧
      (E = 0 → M = 0 → v = .zero (signBit w)) ∧
      (E = 0 → M ≠ 0 → ∃ x : F64pos, v = .fin (signBit w) x ∧ x.val = M * (2 : ℚ) ^ (1 - 127 - 23 : Int)) ∧
      (E = 255 → M = 0 → v = .inf (signBit w)) ∧
      (E = 255 → M ≠ 0 → v = .nan ∧ carrierSign c = 0#1) ∧
      (0 < E → E < 255 → ∃ x : F64pos, v = .fin (signBit w) x ∧
        x.val = (1 + (M : ℚ) / 2 ^ 23) * (2 : ℚ) ^ ((E : Int) - 127))

/-- R76: `DEC64` completes in every state, its answer on `res_val` is the canonical carrier (R39) of the value that the rule's
cases give and reads as that value, and nothing but the response changes. -/
def Obligations.Dec64AnswersTheValueOfThePair : Prop :=
  ∀ (hi lo : BitWord32) (s : State),
    let E : Nat := hi.toNat / 2 ^ 20 % 2 ^ 11
    let M : Nat := mantissa64 hi lo
    ∃ (c : BitVec 68) (v : NV),
      exec (.dec64 hi lo) s = .next (answered s c) ∧ v = dec64 hi lo ∧ c = writeCarrier binary64 v ∧
      readCarrier c = some v ∧
      (E = 0 → M = 0 → v = .zero (signBit hi)) ∧
      (E = 0 → M ≠ 0 → ∃ x : F64pos, v = .fin (signBit hi) x ∧ x.val = M * (2 : ℚ) ^ (1 - 1023 - 52 : Int)) ∧
      (E = 2047 → M = 0 → v = .inf (signBit hi)) ∧
      (E = 2047 → M ≠ 0 → v = .nan ∧ carrierSign c = 0#1) ∧
      (0 < E → E < 2047 → ∃ x : F64pos, v = .fin (signBit hi) x ∧
        x.val = (1 + (M : ℚ) / 2 ^ 52) * (2 : ℚ) ^ ((E : Int) - 1023))

/-- R67: `DEC32` is injective except on NaN patterns, and its image is NaN, the infinities, the zeros and `F32pos`, all of it
in `F64pos`. -/
def Obligations.Dec32IsInjectiveOntoItsImage : Prop :=
  (∀ w w' : BitWord32, ¬ NaNPattern32 w → ¬ NaNPattern32 w' → dec32 w = dec32 w' → w = w') ∧
  (∀ w : BitWord32, NaNPattern32 w ↔ dec32 w = .nan) ∧
  (∀ (v : NV), (∃ w : BitWord32, dec32 w = v) ↔
    v = .nan ∨ (∃ s, v = .inf s) ∨ (∃ s, v = .zero s) ∨ ∃ s x, v = .fin s x ∧ F32pos x.val) ∧
  (∀ x : ℚ, F32pos x → InF64pos x)

/-- R77: `DEC64` is injective except on NaN patterns, and onto `NV`. -/
def Obligations.Dec64IsInjectiveOntoNV : Prop :=
  (∀ hi lo hi' lo' : BitWord32, ¬ NaNPattern64 hi lo → ¬ NaNPattern64 hi' lo' →
    dec64 hi lo = dec64 hi' lo' → hi = hi' ∧ lo = lo') ∧
  (∀ hi lo : BitWord32, NaNPattern64 hi lo ↔ dec64 hi lo = .nan) ∧
  (∀ v : NV, ∃ hi lo : BitWord32, dec64 hi lo = v)

/-! ### Encoding -/

/-- R69, R78 (and the split of R68 that leads to them): the patterns of the special values, as `ENC32` and `ENC64` answer
them; the rules' examples. -/
def Obligations.SpecialValuesEncodeToTheirPatterns : Prop :=
  (∀ (sg : Sign) (s : State),
    exec (.enc32 (.zero sg)) s
      = .next { s with response := some (.word (BitVec.ofNat 32 (sg.toNat * 2 ^ 31 + 0x00000000))) } ∧
    exec (.enc32 (.inf sg)) s
      = .next { s with response := some (.word (BitVec.ofNat 32 (sg.toNat * 2 ^ 31 + 0x7F800000))) } ∧
    exec (.enc32 .nan) s = .next { s with response := some (.word 0x7FC00000#32) } ∧
    exec (.enc64 (.zero sg)) s
      = .next { s with response := some (.wordPair (BitVec.ofNat 32 (sg.toNat * 2 ^ 31)) 0x00000000#32) } ∧
    exec (.enc64 (.inf sg)) s
      = .next { s with response := some (.wordPair (BitVec.ofNat 32 (sg.toNat * 2 ^ 31 + 0x7FF00000)) 0x00000000#32) } ∧
    exec (.enc64 .nan) s = .next { s with response := some (.wordPair 0x7FF80000#32 0x00000000#32) }) ∧
  special32 1#1 .inf = 0xFF800000#32 ∧ special64 1#1 .inf = (0xFFF00000#32, 0x00000000#32)

/-- R72: `ENC32` completes in every state for every value, with the word `s * 2^31 + E * 2^23 + M` of the fields `FINENC`
gives, which is the bitwise OR of the shifted fields; nothing but the response changes. -/
def Obligations.Enc32AnswersTheAssembledWord : Prop :=
  ∀ (v : NV) (s : State), ∃ w : BitWord32,
    exec (.enc32 v) s = .next { s with response := some (.word w) } ∧
    (∀ (sg : Sign) (x : F64pos), v = .fin sg x →
      w.toNat = sg.toNat * 2 ^ 31 + (finenc binary32 x.val).1 * 2 ^ 23 + (finenc binary32 x.val).2 ∧
      (finenc binary32 x.val).1 ≤ 255 ∧ (finenc binary32 x.val).2 < 2 ^ 23 ∧
      w.toNat = sg.toNat <<< 31 ||| (finenc binary32 x.val).1 <<< 23 ||| (finenc binary32 x.val).2 ∧
      (finenc binary32 x.val = (0, 0) → w.toNat = sg.toNat * 2 ^ 31) ∧
      ((finenc binary32 x.val).1 = 255 → w.toNat = sg.toNat * 2 ^ 31 + 0x7F800000)) ∧
    (∀ sg, v = .zero sg → w.toNat = sg.toNat * 2 ^ 31) ∧
    (∀ sg, v = .inf sg → w.toNat = sg.toNat * 2 ^ 31 + 0x7F800000) ∧
    (v = .nan → w.toNat = 0x7FC00000)

/-- R81, R80: `ENC64` completes in every state for every value, with the pair that `SPLIT64` makes of the fields `FINENC`
gives: `HI * 2^32 + LO = s * 2^63 + E * 2^52 + M`; nothing but the response changes. -/
def Obligations.Enc64AnswersTheSplitPair : Prop :=
  ∀ (v : NV) (s : State), ∃ hi lo : BitWord32,
    exec (.enc64 v) s = .next { s with response := some (.wordPair hi lo) } ∧
    (∀ (sg : Sign) (x : F64pos), v = .fin sg x →
      hi.toNat = sg.toNat * 2 ^ 31 + (finenc binary64 x.val).1 * 2 ^ 20 + (finenc binary64 x.val).2 / 2 ^ 32 ∧
      lo.toNat = (finenc binary64 x.val).2 % 2 ^ 32 ∧
      (finenc binary64 x.val).1 ≤ 2046 ∧ (finenc binary64 x.val).2 < 2 ^ 52) ∧
    (∀ sg, v = .zero sg → hi.toNat = sg.toNat * 2 ^ 31 ∧ lo = 0#32) ∧
    (∀ sg, v = .inf sg → hi.toNat = sg.toNat * 2 ^ 31 + 0x7FF00000 ∧ lo = 0#32) ∧
    (v = .nan → hi = 0x7FF80000#32 ∧ lo = 0#32)

/-- R71: the table of ranges and corner cases of `FINENC` with the binary32 parameters, over `F64pos`. `RNE` is the choice of
R60; `e` is the binary exponent, `m` the mantissa of the NormalForm, `be = e + 127`. -/
def Obligations.FinencCasesForBinary32 : Prop :=
  ∀ X : F64pos,
    let x := X.val
    let m := (normalForm x).2
    let be := (normalForm x).1 + 127
    (-947 ≤ be ∧ be ≤ 1150) ∧
    (be ≤ -24 → x * 2 ^ 149 < 1 / 2 ∧ roundHalfEven (x * 2 ^ 149) = 0) ∧
    (x < (2 : ℚ) ^ (-150 : Int) → be ≤ -24 ∧ finenc binary32 x = (0, 0)) ∧
    (x = (2 : ℚ) ^ (-150 : Int) → be = -23 ∧ m = 1 ∧ finenc binary32 x = (0, 0)) ∧
    ((2 : ℚ) ^ (-150 : Int) < x → x < (2 : ℚ) ^ (-149 : Int) → be = -23 ∧ finenc binary32 x = (0, 1)) ∧
    ((2 : ℚ) ^ (-149 : Int) ≤ x → roundHalfEven (x * 2 ^ 149) < 2 ^ 23 →
      (-22 ≤ be ∧ be ≤ 0) ∧ finenc binary32 x = (0, roundHalfEven (x * 2 ^ 149))) ∧
    ((2 ^ 23 - 1 / 2) * (2 : ℚ) ^ (-149 : Int) ≤ x → x < (2 : ℚ) ^ (-126 : Int) →
      be = 0 ∧ finenc binary32 x = (1, 0)) ∧
    ((2 : ℚ) ^ (-126 : Int) ≤ x → be ≤ 254 → m < 2 - (2 : ℚ) ^ (-24 : Int) →
      1 ≤ be ∧ finenc binary32 x = (be.toNat, roundHalfEven ((m - 1) * 2 ^ 23))) ∧
    ((2 : ℚ) ^ (-126 : Int) ≤ x → be ≤ 253 → 2 - (2 : ℚ) ^ (-24 : Int) ≤ m →
      1 ≤ be ∧ finenc binary32 x = (be.toNat + 1, 0)) ∧
    (be = 254 → 2 - (2 : ℚ) ^ (-24 : Int) ≤ m →
      (2 - (2 : ℚ) ^ (-24 : Int)) * (2 : ℚ) ^ (127 : Int) ≤ x ∧ finenc binary32 x = (255, 0)) ∧
    ((2 - (2 : ℚ) ^ (-24 : Int)) * (2 : ℚ) ^ (127 : Int) ≤ x → finenc binary32 x = (255, 0)) ∧
    ((2 : ℚ) ^ (128 : Int) ≤ x → 255 ≤ be ∧ finenc binary32 x = (255, 0))

/-- R79: `FINENC` with the binary64 parameters is exact over `F64pos`: the Rounder is given an integer number of units and
returns it, so it never carries; `be` is in `[-51, 2046]`, so neither the underflow nor the overflow arm is taken. -/
def Obligations.FinencIsExactForBinary64 : Prop :=
  ∀ X : F64pos,
    let x := X.val
    let m := (normalForm x).2
    let be := (normalForm x).1 + 1023
    (x < (2 : ℚ) ^ (-1022 : Int) →
      (-51 ≤ be ∧ be ≤ 0) ∧
      ∃ n : Nat, 1 ≤ n ∧ n < 2 ^ 52 ∧ m * (2 : ℚ) ^ (be - 1) * 2 ^ 52 = n ∧ x * 2 ^ 1074 = n ∧
        roundToScale (m * (2 : ℚ) ^ (be - 1)) 52 = n ∧ finenc binary64 x = (0, n)) ∧
    ((2 : ℚ) ^ (-1022 : Int) ≤ x →
      (1 ≤ be ∧ be ≤ 2046) ∧
      ∃ n : Nat, n < 2 ^ 52 ∧ (m - 1) * 2 ^ 52 = n ∧ roundToScale (m - 1) 52 = n ∧
        finenc binary64 x = (be.toNat, n))

/-- R73 (a): `ENC32` undoes `DEC32` on every word that is not a NaN pattern, and gives the canonical NaN for every NaN
pattern. -/
def Obligations.Enc32UndoesDec32 : Prop :=
  ∀ w : BitWord32, (¬ NaNPattern32 w → enc32 (dec32 w) = w) ∧ (NaNPattern32 w → enc32 (dec32 w) = 0x7FC00000#32)

/-- R73 (b): every value of the image of `DEC32` survives the round trip: "for all finite values v exactly representable in
the target precision", both zeros, both infinities and NaN. -/
def Obligations.Dec32UndoesEnc32OnRepresentableValues : Prop :=
  ∀ v : NV, (∀ s x, v = .fin s x → F32pos x.val) → dec32 (enc32 v) = v

/-- R73 (c): `ENC32` rounds to the nearest candidate of the value's sign, an infinity standing at `2^128`, and a tie goes to the
even word. -/
def Obligations.Enc32IsNearestTiesToEven : Prop :=
  ∀ (s : Sign) (x : F64pos),
    ¬ NaNPattern32 (enc32 (.fin s x)) ∧ signBit (enc32 (.fin s x)) = s ∧
    ∀ w : BitWord32, ¬ NaNPattern32 w → signBit w = s →
      |magnitude32 (dec32 (enc32 (.fin s x))) - x.val| ≤ |magnitude32 (dec32 w) - x.val| ∧
      (|magnitude32 (dec32 w) - x.val| = |magnitude32 (dec32 (enc32 (.fin s x))) - x.val| →
        w ≠ enc32 (.fin s x) → (enc32 (.fin s x)).toNat % 2 = 0)

/-- R73 (d), R82 (c): the sign bit of the word (of the high word) is the sign of the value, and 0 for a NaN. -/
def Obligations.EncodedSignIsTheSignOfTheValue : Prop :=
  (∀ (s : Sign) (x : F64pos), signBit (enc32 (.fin s x)) = s ∧ signBit (enc64 (.fin s x)).1 = s) ∧
  (∀ s : Sign, signBit (enc32 (.zero s)) = s ∧ signBit (enc64 (.zero s)).1 = s ∧
    signBit (enc32 (.inf s)) = s ∧ signBit (enc64 (.inf s)).1 = s) ∧
  signBit (enc32 .nan) = 0#1 ∧ signBit (enc64 .nan).1 = 0#1

/-- R73 (e): `ENC32` is monotone on the positive magnitudes. -/
def Obligations.Enc32IsMonotone : Prop :=
  ∀ x y : F64pos, x.val ≤ y.val → (enc32 (.fin 0#1 x)).toNat ≤ (enc32 (.fin 0#1 y)).toNat

/-- R82 (a): `ENC64` and `DEC64` are inverse to each other away from NaN, and every NaN pattern becomes the canonical one. -/
def Obligations.Enc64AndDec64AreInverse : Prop :=
  (∀ hi lo : BitWord32, (¬ NaNPattern64 hi lo → enc64 (dec64 hi lo) = (hi, lo)) ∧
    (NaNPattern64 hi lo → enc64 (dec64 hi lo) = (0x7FF80000#32, 0x00000000#32))) ∧
  ∀ v : NV, dec64 (enc64 v).1 (enc64 v).2 = v

/-- R38: no data pattern is refused by a decoder; "the only NaN patterns they ever produce are" the canonical ones. With
R82 (b): `ENC64` makes no infinity, no zero and no NaN of a finite operand. -/
def Obligations.EncodersProduceOnlyTheCanonicalNaN : Prop :=
  (∀ r : Request, (r.op = 0#4 → decode r = .ok (.dec32 r.wHi)) ∧ (r.op = 2#4 → decode r = .ok (.dec64 r.wHi r.wLo))) ∧
  (∀ v : NV, (NaNPattern32 (enc32 v) → enc32 v = 0x7FC00000#32 ∧ v = .nan) ∧
    (NaNPattern64 (enc64 v).1 (enc64 v).2 → enc64 v = (0x7FF80000#32, 0x00000000#32) ∧ v = .nan)) ∧
  ∀ (s : Sign) (x : F64pos), pairNat (enc64 (.fin s x)) % 2 ^ 63 ≠ 0 ∧
    (enc64 (.fin s x)).1.toNat / 2 ^ 20 % 2 ^ 11 ≠ 2047

/-! ### The value carrier -/

/-- R39, "Reading a carrier": the value each class of carrier denotes, and that a `cls = 1` carrier denotes one exactly when
`K != 0` and `K * 2^q` is in `F64pos`. -/
def Obligations.CarrierReadsAsItsClassSays : Prop :=
  ∀ nv : BitVec 68,
    (carrierClass nv = 0#2 → readCarrier nv = some (.zero (carrierSign nv))) ∧
    (carrierClass nv = 2#2 → readCarrier nv = some (.inf (carrierSign nv))) ∧
    (carrierClass nv = 3#2 → readCarrier nv = some .nan) ∧
    (carrierClass nv = 1#2 → DenotesFinite nv → ∃ x : F64pos, readCarrier nv = some (.fin (carrierSign nv) x) ∧
      x.val = carrierSig nv * (2 : ℚ) ^ carrierExp nv) ∧
    (carrierClass nv = 1#2 → ¬ DenotesFinite nv → readCarrier nv = none)

/-- R39: "every rule depends only on the rational `K * 2^q`, never on which pair carried it": two carriers of one sign and
one rational read alike. -/
def Obligations.CarrierPairDoesNotMatter : Prop :=
  ∀ nv nv' : BitVec 68, carrierClass nv = 1#2 → carrierClass nv' = 1#2 → carrierSign nv = carrierSign nv' →
    (carrierSig nv : ℚ) * (2 : ℚ) ^ carrierExp nv = carrierSig nv' * (2 : ℚ) ^ carrierExp nv' →
    readCarrier nv = readCarrier nv'

/-- R39, "Writing a carrier": the table of canonical results, by the fields of the pattern decoded. -/
def Obligations.ResultCarriersAreCanonical : Prop :=
  (∀ s : Sign, ∀ fmt : Format, writeCarrier fmt .nan = packCarrier 3#2 0#1 0 0 ∧
    writeCarrier fmt (.inf s) = packCarrier 2#2 s 0 0 ∧ writeCarrier fmt (.zero s) = packCarrier 0#2 s 0 0) ∧
  (∀ w : BitWord32,
    let E : Nat := w.toNat / 2 ^ 23 % 2 ^ 8
    let M : Nat := w.toNat % 2 ^ 23
    (0 < E → E < 255 →
      writeCarrier binary32 (dec32 w) = packCarrier 1#2 (signBit w) ((E : Int) - 150) (2 ^ 23 + M)) ∧
    (E = 0 → M ≠ 0 → writeCarrier binary32 (dec32 w) = packCarrier 1#2 (signBit w) (-149) M)) ∧
  (∀ hi lo : BitWord32,
    let E : Nat := hi.toNat / 2 ^ 20 % 2 ^ 11
    let M : Nat := mantissa64 hi lo
    (0 < E → E < 2047 →
      writeCarrier binary64 (dec64 hi lo) = packCarrier 1#2 (signBit hi) ((E : Int) - 1075) (2 ^ 52 + M)) ∧
    (E = 0 → M ≠ 0 → writeCarrier binary64 (dec64 hi lo) = packCarrier 1#2 (signBit hi) (-1074) M))

/-- R39: what is written reads back: the answer of a binary32 decode, and the canonical binary64 carrier of every value. -/
def Obligations.WrittenCarriersReadBack : Prop :=
  (∀ w : BitWord32, readCarrier (writeCarrier binary32 (dec32 w)) = some (dec32 w)) ∧
  ∀ v : NV, readCarrier (writeCarrier binary64 v) = some v

/-! ### Commands -/

/-- R39 to R41: every instruction that a command can carry is read back from the command that requests it. -/
def Obligations.DecodeUndoesEncode : Prop :=
  ∀ i : Instr, i.wf = true → decode (encode i) = .ok i

/-- R41, and the commands of spec/95_test_vectors.md section 3: a few commands written out port by port decode to the
operations they stand for (a model's view of the ports of P1, P2 and P4). -/
def Obligations.WrittenOutCommandsDecode : Prop :=
  let buf : Buffer := { base := 0, len := 12 }
  (decode { op := 0b0000#4, val := 0#68, wHi := 0x7F800000#32, wLo := 0#32, offset := 0#32, buf := buf }
    = .ok (.dec32 0x7F800000#32)) ∧
  (decode { op := 0b0010#4, val := 0#68, wHi := 0xFFF00000#32, wLo := 1#32, offset := 0#32, buf := buf }
    = .ok (.dec64 0xFFF00000#32 1#32)) ∧
  (decode { op := 0b0100#4, val := 0xC0000000000000000#68, wHi := 0#32, wLo := 0#32, offset := 0#32, buf := buf }
    = .ok (.enc32 .nan)) ∧
  (decode { op := 0b0110#4, val := 0x20000000000000000#68, wHi := 0#32, wLo := 0#32, offset := 0#32, buf := buf }
    = .ok (.enc64 (.zero 1#1))) ∧
  (decode { op := 0b1000#4, val := 0#68, wHi := 0#32, wLo := 0#32, offset := 0xFFFFFFFE#32, buf := buf }
    = .ok (.readFloatBE buf (-2))) ∧
  (decode { op := 0b1001#4, val := 0#68, wHi := 0#32, wLo := 0#32, offset := 8#32, buf := buf }
    = .ok (.readFloatLE buf 8)) ∧
  (decode { op := 0b1101#4, val := 0x20000000000000000#68, wHi := 0#32, wLo := 0#32, offset := 0xFFFFFFFE#32, buf := buf }
    = .ok (.writeFloatLE buf (.zero 1#1) (-2)))

/-- R42, "reads": what a command decodes to depends only on `op` and on the operand fields the operation reads. -/
def Obligations.UnusedOperandFieldsAreIgnored : Prop :=
  ∀ r r' : Request, r.op = r'.op →
    (r.op.toNat = 0 → r.wHi = r'.wHi → decode r = decode r') ∧
    (r.op.toNat = 2 → r.wHi = r'.wHi → r.wLo = r'.wLo → decode r = decode r') ∧
    (r.op.toNat = 4 ∨ r.op.toNat = 6 → r.val = r'.val → decode r = decode r') ∧
    (8 ≤ r.op.toNat → r.op.toNat ≤ 11 → r.offset = r'.offset → r.buf = r'.buf → decode r = decode r') ∧
    (12 ≤ r.op.toNat → r.val = r'.val → r.offset = r'.offset → r.buf = r'.buf → decode r = decode r')

/-- R43: the reserved codes 1, 3, 5, 7, and no other, select no operation, and a command that holds one is refused. -/
def Obligations.ReservedCodesAreRefused : Prop :=
  ∀ (s : State) (r : Request) (rest : List Input), s.inputs = .command r :: rest →
    (r.op = 1#4 ∨ r.op = 3#4 ∨ r.op = 5#4 ∨ r.op = 7#4 ↔ step s = .refused (.reservedOp r.op))

/-- R97: a step refuses exactly when the command it takes holds a reserved code, or reads a `cls = 1` carrier that denotes no
numeric value. -/
def Obligations.RefusalsAreExactlyTheMeaninglessCommands : Prop :=
  ∀ (s : State) (why : Refusal), step s = .refused why ↔
    ∃ (r : Request) (rest : List Input),
      (s.inputs = .command r :: rest ∨ (∃ ws, s.inputs = .racedCommand r ws :: rest) ∨ s.inputs = .cutCommand r :: rest) ∧
      (((r.op.toNat = 1 ∨ r.op.toNat = 3 ∨ r.op.toNat = 5 ∨ r.op.toNat = 7) ∧ why = .reservedOp r.op) ∨
       ((r.op.toNat = 4 ∨ r.op.toNat = 6 ∨ 12 ≤ r.op.toNat) ∧ carrierClass r.val = 1#2 ∧ ¬ DenotesFinite r.val ∧
          why = .noNumericValue r.val))

/-! ### The byte primitives and the Word Assembler -/

/-- R22: a read gives the byte of a valid address and 0 for every other address. -/
def Obligations.MemReadFillsWithZero : Prop :=
  ∀ (m : Memory) (buf : Buffer) (a : Int),
    (0 ≤ a → a < buf.len → memRead m buf a = Memory.read m (Buffer.cell buf a)) ∧
    (a < 0 ∨ (buf.len : Int) ≤ a → memRead m buf a = 0#8)

/-- R23: a write sets the byte of a valid address and does nothing for every other address; no other byte changes, in the
buffer or in the host's store. -/
def Obligations.MemWriteSkipsOutOfRange : Prop :=
  ∀ (m : Memory) (buf : Buffer) (a : Int) (b : Byte), Memory.wf m = true →
    (0 ≤ a → a < buf.len → memRead (memWrite m buf a b) buf a = b ∧
      (∀ a' : Int, a' ≠ a → memRead (memWrite m buf a b) buf a' = memRead m buf a') ∧
      ∀ h : Nat, h ≠ Buffer.cell buf a → Memory.read (memWrite m buf a b) h = Memory.read m h) ∧
    (a < 0 ∨ (buf.len : Int) ≤ a → memWrite m buf a b = m)

/-- R29, R26: an instruction leaves the store as its byte writes make it, in whatever order they are performed; an instruction
without byte writes leaves it alone. -/
def Obligations.OrderOfByteWritesDoesNotMatter : Prop :=
  ∀ (i : Instr) (s : State), s.Inv → ∃ t, exec i s = .next t ∧
    (Instr.stores i = none → t.mem = s.mem) ∧
    ∀ (buf : Buffer) (stores stores' : List Store), Instr.stores i = some (buf, stores) → stores'.Perm stores →
      t.mem = memWriteAll s.mem buf stores'

/-- R50, R52: `PACKW` and `PACKD` are the integers of the four and the eight bytes of their window in the byte order asked
for, each out-of-range byte 0; for a double "byte order is uniform across all 8 bytes". -/
def Obligations.PackIsTheIntegerOfTheWindow : Prop :=
  ∀ (m : Memory) (buf : Buffer) (offset : Int) (o : Order),
    (packw m buf offset o).toNat = ofBytes (windowByte m buf offset) 4 o ∧
    (OutOfBounds buf offset 4 → packw m buf offset o = 0#32) ∧
    pairNat (packd m buf offset o) = ofBytes (windowByte m buf offset) 8 o

/-- R51, R53: `UNPACKW` and `UNPACKD` write the image of their word or word pair to the in-range bytes of the window and
change no other byte. -/
def Obligations.UnpackWritesTheImage : Prop :=
  ∀ (m : Memory) (buf : Buffer) (offset : Int) (o : Order), Memory.wf m = true →
    (∀ w : BitWord32, ImageWritten m (memWriteAll m buf (unpackw offset w o)) buf offset w.toNat 4 o) ∧
    ∀ p : BitWord32 × BitWord32, ImageWritten m (memWriteAll m buf (unpackd offset p o)) buf offset (pairNat p) 8 o

/-- R54: the inverse laws of the Word Assembler, (a) to (e). -/
def Obligations.PackAndUnpackAreInverse : Prop :=
  ∀ (m : Memory) (buf : Buffer) (offset : Int) (o : Order), Memory.wf m = true →
    (InBounds buf offset 4 →
      (∀ w : BitWord32, packw (memWriteAll m buf (unpackw offset w o)) buf offset o = w) ∧
      memWriteAll m buf (unpackw offset (packw m buf offset o) o) = m) ∧
    (InBounds buf offset 8 →
      (∀ p : BitWord32 × BitWord32, packd (memWriteAll m buf (unpackd offset p o)) buf offset o = p ∧
        packw (memWriteAll m buf (unpackd offset p .be)) buf offset .be = p.1) ∧
      memWriteAll m buf (unpackd offset (packd m buf offset o) o) = m) ∧
    (∀ (w : BitWord32), ∀ i < 4,
      imageByte (packw (memWriteAll m buf (unpackw offset w o)) buf offset o).toNat 4 o i
        = if Buffer.Valid buf (effectiveAddress offset i) then imageByte w.toNat 4 o i else 0) ∧
    (∀ i < 4, imageByte (packw m buf offset .le).toNat 4 .be i = imageByte (packw m buf offset .be).toNat 4 .le i) ∧
    packd m buf offset .be = (packw m buf offset .be, packw m buf (offset + 4) .be)

/-! ### The buffer operations -/

/-- R85, R86: the float reads complete in every state; the answer is the canonical carrier (R39) of `DEC32` of the word of the
window's bytes and reads as that value; the buffer, and everything but the response, is unchanged. -/
def Obligations.ReadFloatAnswersTheValueInTheBuffer : Prop :=
  ∀ (buf : Buffer) (offset : Int) (s : State),
    (∃ (c : BitVec 68) (w : BitWord32), exec (.readFloatBE buf offset) s = .next (answered s c) ∧
      w.toNat = ofBytes (windowByte s.mem buf offset) 4 .be ∧ c = writeCarrier binary32 (dec32 w) ∧
      readCarrier c = some (dec32 w)) ∧
    (∃ (c : BitVec 68) (w : BitWord32), exec (.readFloatLE buf offset) s = .next (answered s c) ∧
      w.toNat = ofBytes (windowByte s.mem buf offset) 4 .le ∧ c = writeCarrier binary32 (dec32 w) ∧
      readCarrier c = some (dec32 w))

/-- R87, R88: the double reads complete in every state; the answer is the canonical carrier (R39) of `DEC64` of the word pair of
the window's bytes and reads as that value; the buffer, and everything but the response, is unchanged. -/
def Obligations.ReadDoubleAnswersTheValueInTheBuffer : Prop :=
  ∀ (buf : Buffer) (offset : Int) (s : State),
    (∃ (c : BitVec 68) (p : BitWord32 × BitWord32), exec (.readDoubleBE buf offset) s = .next (answered s c) ∧
      pairNat p = ofBytes (windowByte s.mem buf offset) 8 .be ∧ c = writeCarrier binary64 (dec64 p.1 p.2) ∧
      readCarrier c = some (dec64 p.1 p.2)) ∧
    (∃ (c : BitVec 68) (p : BitWord32 × BitWord32), exec (.readDoubleLE buf offset) s = .next (answered s c) ∧
      pairNat p = ofBytes (windowByte s.mem buf offset) 8 .le ∧ c = writeCarrier binary64 (dec64 p.1 p.2) ∧
      readCarrier c = some (dec64 p.1 p.2))

/-- R89, R90: the float writes complete in every state for every value with their completion alone (R93); they write the
image of `ENC32(value)` to the in-range bytes of the window and change no other byte of the host's store. -/
def Obligations.WriteFloatStoresTheEncodedWord : Prop :=
  ∀ (buf : Buffer) (v : NV) (offset : Int) (s : State),
    (∃ m : Memory, exec (.writeFloatBE buf v offset) s = .next { s with mem := m, response := some .completed } ∧
      (s.Inv → Memory.wf m = true ∧ ImageWritten s.mem m buf offset (enc32 v).toNat 4 .be)) ∧
    (∃ m : Memory, exec (.writeFloatLE buf v offset) s = .next { s with mem := m, response := some .completed } ∧
      (s.Inv → Memory.wf m = true ∧ ImageWritten s.mem m buf offset (enc32 v).toNat 4 .le))

/-- R91, R92: the double writes complete in every state for every value with their completion alone (R93); they write the
image of `ENC64(value)` to the in-range bytes of the window and change no other byte of the host's store. -/
def Obligations.WriteDoubleStoresTheEncodedPair : Prop :=
  ∀ (buf : Buffer) (v : NV) (offset : Int) (s : State),
    (∃ m : Memory, exec (.writeDoubleBE buf v offset) s = .next { s with mem := m, response := some .completed } ∧
      (s.Inv → Memory.wf m = true ∧ ImageWritten s.mem m buf offset (pairNat (enc64 v)) 8 .be)) ∧
    (∃ m : Memory, exec (.writeDoubleLE buf v offset) s = .next { s with mem := m, response := some .completed } ∧
      (s.Inv → Memory.wf m = true ∧ ImageWritten s.mem m buf offset (pairNat (enc64 v)) 8 .le))

/-- R85 to R92, corner cases: a range entirely out of bounds reads as `Zero(0)`, and a write to it changes no byte. -/
def Obligations.OutOfBoundsReadsZeroAndWritesNothing : Prop :=
  ∀ (buf : Buffer) (offset : Int) (v : NV) (s : State),
    (OutOfBounds buf offset 4 →
      exec (.readFloatBE buf offset) s = .next (answered s 0#68) ∧
      exec (.readFloatLE buf offset) s = .next (answered s 0#68) ∧
      exec (.writeFloatBE buf v offset) s = .next { s with response := some .completed } ∧
      exec (.writeFloatLE buf v offset) s = .next { s with response := some .completed }) ∧
    (OutOfBounds buf offset 8 →
      exec (.readDoubleBE buf offset) s = .next (answered s 0#68) ∧
      exec (.readDoubleLE buf offset) s = .next (answered s 0#68) ∧
      exec (.writeDoubleBE buf v offset) s = .next { s with response := some .completed } ∧
      exec (.writeDoubleLE buf v offset) s = .next { s with response := some .completed }) ∧
    readCarrier 0#68 = some (.zero 0#1)

/-- R94 (a), (b): in bounds and in either byte order, a double read after a double write returns the value written, and a
float read after a float write returns `DEC32(ENC32(v))`, which is `v` where binary32 holds `v`. -/
def Obligations.ReadAfterWriteReturnsTheValue : Prop :=
  ∀ (buf : Buffer) (offset : Int) (v : NV) (s : State), s.Inv →
    (InBounds buf offset 8 →
      (∃ t c, exec (.writeDoubleBE buf v offset) s = .next t ∧ exec (.readDoubleBE buf offset) t = .next (answered t c) ∧
        readCarrier c = some v) ∧
      (∃ t c, exec (.writeDoubleLE buf v offset) s = .next t ∧ exec (.readDoubleLE buf offset) t = .next (answered t c) ∧
        readCarrier c = some v)) ∧
    (InBounds buf offset 4 →
      (∃ t c, exec (.writeFloatBE buf v offset) s = .next t ∧ exec (.readFloatBE buf offset) t = .next (answered t c) ∧
        readCarrier c = some (dec32 (enc32 v)) ∧
        ((∀ sg x, v = .fin sg x → F32pos x.val) → readCarrier c = some v)) ∧
      (∃ t c, exec (.writeFloatLE buf v offset) s = .next t ∧ exec (.readFloatLE buf offset) t = .next (answered t c) ∧
        readCarrier c = some (dec32 (enc32 v)) ∧
        ((∀ sg x, v = .fin sg x → F32pos x.val) → readCarrier c = some v)))

/-- R94 (c): a read in the other byte order returns the value of the byte-reversed pattern. -/
def Obligations.ReadInTheOtherOrderReversesTheBytes : Prop :=
  ∀ (buf : Buffer) (offset : Int) (v : NV) (s : State), s.Inv →
    (InBounds buf offset 4 →
      (∃ t c w, exec (.writeFloatBE buf v offset) s = .next t ∧ exec (.readFloatLE buf offset) t = .next (answered t c) ∧
        readCarrier c = some (dec32 w) ∧ ∀ i < 4, imageByte w.toNat 4 .le i = imageByte (enc32 v).toNat 4 .be i) ∧
      (∃ t c w, exec (.writeFloatLE buf v offset) s = .next t ∧ exec (.readFloatBE buf offset) t = .next (answered t c) ∧
        readCarrier c = some (dec32 w) ∧ ∀ i < 4, imageByte w.toNat 4 .be i = imageByte (enc32 v).toNat 4 .le i)) ∧
    (InBounds buf offset 8 →
      (∃ t c p, exec (.writeDoubleBE buf v offset) s = .next t ∧ exec (.readDoubleLE buf offset) t = .next (answered t c) ∧
        readCarrier c = some (dec64 p.1 p.2) ∧ ∀ i < 8, imageByte (pairNat p) 8 .le i = imageByte (pairNat (enc64 v)) 8 .be i) ∧
      (∃ t c p, exec (.writeDoubleLE buf v offset) s = .next t ∧ exec (.readDoubleBE buf offset) t = .next (answered t c) ∧
        readCarrier c = some (dec64 p.1 p.2) ∧ ∀ i < 8, imageByte (pairNat p) 8 .be i = imageByte (pairNat (enc64 v)) 8 .le i))

/-- spec/95_test_vectors.md 1.2 with spec/90_conflicts.md C1: the boundary reads of the four-byte buffer
`[0x3F, 0xC0, 0x00, 0x00]`: 1.5 at offset 0, -2 at offset 1, `4177920 * 2^-149` at offset -1. -/
def Obligations.BoundaryReadsFillPerByte : Prop :=
  ∀ s : State, s.mem = [(0, 0x3F#8), (1, 0xC0#8)] →
    exec (.readFloatBE { base := 0, len := 4 } 0) s = .next (answered s (packCarrier 1#2 0#1 (-23) 12582912)) ∧
    exec (.readFloatBE { base := 0, len := 4 } 1) s = .next (answered s (packCarrier 1#2 1#1 (-22) 8388608)) ∧
    exec (.readFloatBE { base := 0, len := 4 } (-1)) s = .next (answered s (packCarrier 1#2 0#1 (-149) 4177920))

/-! ### The machine -/

/-- Every instruction keeps to its window (R26, R113): a byte of the host's store that it does not touch reads as before, no
read or word operation changes any byte, and an instruction changes neither the inputs that wait nor the draws. -/
def Obligations.InstructionsChangeOnlyTheirWindow : Prop :=
  ∀ (i : Instr) (s t : State), s.Inv → exec i s = .next t →
    (∀ h : Nat, ¬ Instr.Touches i h → Memory.read t.mem h = Memory.read s.mem h) ∧
    (Instr.stores i = none → t.mem = s.mem) ∧ t.inputs = s.inputs ∧ t.draws = s.draws

/-- R108 with R26: the response of an instruction, and the bytes of its window afterwards, depend only on its operands and on
the bytes of its window. -/
def Obligations.ResultsDependOnlyOnOperandsAndWindow : Prop :=
  ∀ (i : Instr) (s s' t t' : State), s.Inv → s'.Inv →
    (∀ h : Nat, Instr.Touches i h → Memory.read s.mem h = Memory.read s'.mem h) →
    exec i s = .next t → exec i s' = .next t' →
    t.response = t'.response ∧ ∀ h : Nat, Instr.Touches i h → Memory.read t.mem h = Memory.read t'.mem h

/-- R112 with R97: a step that takes a command runs exactly the instruction the command decodes to, in the state without
that command. The other two clauses are the model's choice: with no input the machine stays as it is, response and all (log
entries 14 and 20), and a command written as one word (`decodeTableWord`, log entry 13) and placed by `withFetchWord` (log
entry 14) is the command the next step runs. -/
def Obligations.StepRunsTheDecodedInstruction : Prop :=
  (∀ (s : State) (r : Request) (rest : List Input) (i : Instr), s.inputs = .command r :: rest → decode r = .ok i →
    step s = exec i { s with inputs := rest }) ∧
  (∀ s : State, s.inputs = [] → step s = .next s) ∧
  ∀ (s : State) (nbits w : Nat) (i : Instr), decodeTableWord nbits w = some i →
    step (s.withFetchWord nbits w) = exec i s

/-- R95, R112: every command that selects an operation and carries its value is answered in one step, on the ports R42
names, and the next input comes to the head; whatever the state. -/
def Obligations.EveryServableCommandIsAnswered : Prop :=
  ∀ (s : State) (r : Request) (rest : List Input) (i : Instr), s.inputs = .command r :: rest → decode r = .ok i →
    ∃ t, step s = .next t ∧ t.inputs = rest ∧ t.draws = s.draws ∧
      (match i with
       | .dec32 _ | .dec64 _ _ | .readFloatBE _ _ | .readFloatLE _ _ | .readDoubleBE _ _ | .readDoubleLE _ _ =>
         ∃ c, t.response = some (.value c)
       | .enc32 _ => ∃ w, t.response = some (.word w)
       | .enc64 _ => ∃ hi lo, t.response = some (.wordPair hi lo)
       | .writeFloatBE _ _ _ | .writeFloatLE _ _ _ | .writeDoubleBE _ _ _ | .writeDoubleLE _ _ _ =>
         t.response = some .completed)

/-- The byte store keeps its one canonical form in every step (the model's invariant, log entry 4). -/
def Obligations.EveryStepKeepsTheStoreCanonical : Prop :=
  ∀ s t : State, s.Inv → step s = .next t → t.Inv

/-- R106: right after reset no valid result is on the ports; the invariant holds and every input that waits can be served
(the empty store and the empty list of inputs are the model's, log entries 2 and 4). -/
def Obligations.ResetStateIsSafe : Prop :=
  State.reset.Safe ∧ State.reset.response = none

/-- R95, R97, R112: a state in which every input that waits can be served always steps, takes its oldest input, and leads to
another such state: no run from it faults, refuses or gets stuck. -/
def Obligations.SafeStatesAlwaysStepToSafeStates : Prop :=
  ∀ s : State, s.Safe → ∃ t, step s = .next t ∧ t.Safe ∧ t.inputs = s.inputs.tail

/-- R106, U10: reset of the idle block touches no byte and leaves no valid result; an operation that reset cuts short gives
no response, and each byte of the store is then the old byte or the byte the whole operation would have left. -/
def Obligations.ResetLeavesOldOrNewBytes : Prop :=
  (∀ (s : State) (rest : List Input), s.inputs = .reset :: rest →
    step s = .next { s with inputs := rest, response := none }) ∧
  ∀ (s : State) (r : Request) (rest : List Input) (i : Instr), s.Inv → s.inputs = .cutCommand r :: rest →
    decode r = .ok i → ∃ t u, step s = .next t ∧ exec i { s with inputs := rest } = .next u ∧
      t.response = none ∧ t.inputs = rest ∧
      ∀ h : Nat, Memory.read t.mem h = Memory.read s.mem h ∨ Memory.read t.mem h = Memory.read u.mem h

/-- R28, U8, with R26 and R31: an operation raced by another agent's writes behaves as on a store in which each byte is as some
beginning of those writes, in their order, left it. Afterwards a byte that the operation does not write is as all of the
agent's writes, in their order, leave it; a byte that the operation writes is the operation's, or, where the agent writes it
too, as all of the agent's writes leave it. -/
def Obligations.RacedOperationsMixBytewise : Prop :=
  ∀ (s : State) (r : Request) (ws : List Host.Cell) (rest : List Input) (i : Instr), s.Inv →
    s.inputs = .racedCommand r ws :: rest → decode r = .ok i →
    ∃ (t u : State) (m : Memory), step s = .next t ∧ Memory.wf m = true ∧
      (∀ h : Nat, ∃ k, k ≤ ws.length ∧ Memory.read m h = Memory.read (Memory.writeCells s.mem (ws.take k)) h) ∧
      exec i { s with inputs := rest, mem := m, draws := s.draws + 1 } = .next u ∧
      t.response = u.response ∧ t.inputs = rest ∧
      ∀ h : Nat,
        (Instr.stores i = none ∨ ¬ Instr.Touches i h →
          Memory.read t.mem h = Memory.read (Memory.writeCells s.mem ws) h) ∧
        (Instr.stores i ≠ none → Instr.Touches i h → Memory.read t.mem h = Memory.read u.mem h ∨
          ((∃ c ∈ ws, c.1 = h) ∧ Memory.read t.mem h = Memory.read (Memory.writeCells s.mem ws) h))

/-- R113, R27: another agent's write between operations changes one byte of the store and no other, and the next read of that
byte gives it. That the result ports keep the last response meanwhile is the model's choice (log entry 20). -/
def Obligations.AgentWriteChangesOneByte : Prop :=
  ∀ (s : State) (addr : Nat) (b : Byte) (rest : List Input), s.Inv → s.inputs = .agentWrite addr b :: rest →
    ∃ m : Memory, step s = .next { s with inputs := rest, mem := m } ∧ Memory.wf m = true ∧
      Memory.read m addr = b ∧ ∀ h : Nat, h ≠ addr → Memory.read m h = Memory.read s.mem h
end

