-- ==== Sys2Proof/Laws/Memory.lean ====
section
/-! SUPPORT. The laws of the byte store: what a read gives after a write, and that every write keeps the canonical form. -/

namespace Sys2Proof.Machine

/-- Every listed address of the store lies above `k`. -/
def Memory.Above (k : Nat) (m : Memory) : Prop := ∀ c ∈ m, k < c.1

theorem Memory.wf_cons {k : Nat} {v : Byte} {rest : Memory} :
    Memory.wf ((k, v) :: rest) = true ↔ v ≠ Memory.unlisted ∧ Memory.Above k rest ∧ Memory.wf rest = true := by
  simp [Memory.wf, Memory.Above, and_assoc]

theorem Memory.read_of_above {k : Nat} {m : Memory} (h : Memory.Above k m) {a : Nat} (ha : a ≤ k) :
    Memory.read m a = Memory.unlisted := by
  induction m with
  | nil => rfl
  | cons c rest ih =>
    obtain ⟨j, v⟩ := c
    have hj : k < j := h (j, v) (by simp)
    have : j ≠ a := by omega
    rw [Memory.read, if_neg this]
    exact ih fun d hd => h d (List.mem_cons_of_mem _ hd)

theorem Memory.above_write {k : Nat} {m : Memory} (h : Memory.Above k m) {a : Nat} (ha : k < a) (b : Byte) :
    Memory.Above k (Memory.write m a b) := by
  induction m with
  | nil =>
    intro c hc
    simp only [Memory.write] at hc
    split at hc
    · simp at hc
    · obtain rfl : c = (a, b) := by simpa using hc
      exact ha
  | cons d rest ih =>
    obtain ⟨j, v⟩ := d
    have hj : k < j := h (j, v) (by simp)
    have hrest : Memory.Above k rest := fun d hd => h d (List.mem_cons_of_mem _ hd)
    intro c hc
    simp only [Memory.write] at hc
    split at hc
    · split at hc
      · exact h c hc
      · rcases List.mem_cons.mp hc with rfl | hc
        · exact ha
        · exact h c hc
    · split at hc
      · split at hc
        · exact hrest c hc
        · rcases List.mem_cons.mp hc with rfl | hc
          · exact ha
          · exact hrest c hc
      · rcases List.mem_cons.mp hc with rfl | hc
        · exact hj
        · exact ih hrest c hc

/-- A write keeps the canonical form. -/
theorem Memory.wf_write {m : Memory} (h : Memory.wf m = true) (a : Nat) (b : Byte) :
    Memory.wf (Memory.write m a b) = true := by
  induction m with
  | nil =>
    unfold Memory.write
    split
    · rfl
    · rename_i hb
      exact Memory.wf_cons.mpr ⟨hb, by simp [Memory.Above], rfl⟩
  | cons d rest ih =>
    obtain ⟨k, v⟩ := d
    obtain ⟨hv, habove, hrest⟩ := Memory.wf_cons.mp h
    rw [Memory.write]
    split
    · rename_i hlt
      split
      · exact h
      · rename_i hb
        refine Memory.wf_cons.mpr ⟨hb, fun c hc => ?_, h⟩
        rcases List.mem_cons.mp hc with rfl | hc
        · exact hlt
        · exact hlt.trans (habove c hc)
    · split
      · rename_i heq
        split
        · exact hrest
        · rename_i hb
          exact Memory.wf_cons.mpr ⟨hb, heq ▸ habove, hrest⟩
      · exact Memory.wf_cons.mpr ⟨hv, Memory.above_write habove (by omega) b, ih hrest⟩

/-- What every byte of the store reads as after a write. -/
theorem Memory.read_write {m : Memory} (h : Memory.wf m = true) (a : Nat) (b : Byte) (a' : Nat) :
    Memory.read (Memory.write m a b) a' = if a' = a then b else Memory.read m a' := by
  induction m with
  | nil =>
    by_cases ha : a' = a
    · by_cases hb : b = Memory.unlisted <;> simp [Memory.write, Memory.read, hb, ha]
    · by_cases hb : b = Memory.unlisted <;> simp [Memory.write, Memory.read, hb, ha, Ne.symm ha]
  | cons d rest ih =>
    obtain ⟨k, v⟩ := d
    obtain ⟨-, habove, hrest⟩ := Memory.wf_cons.mp h
    rw [Memory.write]
    split
    · rename_i hlt
      have hnot : Memory.read ((k, v) :: rest) a = Memory.unlisted :=
        Memory.read_of_above (k := a) (fun c hc => by
          rcases List.mem_cons.mp hc with rfl | hc
          · exact hlt
          · exact hlt.trans (habove c hc)) le_rfl
      split
      · rename_i hb
        by_cases ha : a' = a
        · subst ha hb; simpa using hnot
        · rw [if_neg ha]
      · rw [Memory.read]
        by_cases ha : a' = a
        · rw [if_pos ha.symm, if_pos ha]
        · rw [if_neg (Ne.symm ha), if_neg ha]
    · split
      · rename_i heq
        subst heq
        have hnot := Memory.read_of_above habove le_rfl
        split
        · rename_i hb
          by_cases ha : a' = a
          · subst ha hb; simpa using hnot
          · rw [if_neg ha, Memory.read, if_neg (Ne.symm ha)]
        · by_cases ha : a' = a
          · rw [Memory.read, if_pos ha.symm, if_pos ha]
          · rw [Memory.read, if_neg (Ne.symm ha), if_neg ha, Memory.read, if_neg (Ne.symm ha)]
      · by_cases hk : k = a'
        · have : a' ≠ a := by omega
          rw [Memory.read, if_pos hk, if_neg this, Memory.read, if_pos hk]
        · rw [Memory.read, if_neg hk, ih hrest, Memory.read, if_neg hk]

/-- Two stores in canonical form that read alike are equal. -/
theorem Memory.ext_of_wf {m m' : Memory} (h : Memory.wf m = true) (h' : Memory.wf m' = true)
    (hread : ∀ a, Memory.read m a = Memory.read m' a) : m = m' := by
  induction m generalizing m' with
  | nil =>
    cases m' with
    | nil => rfl
    | cons d rest =>
      obtain ⟨k, v⟩ := d
      have := hread k
      simp only [Memory.read, if_true] at this
      exact absurd this.symm (Memory.wf_cons.mp h').1
  | cons d rest ih =>
    obtain ⟨k, v⟩ := d
    obtain ⟨hv, habove, hrest⟩ := Memory.wf_cons.mp h
    cases m' with
    | nil =>
      have := hread k
      simp only [Memory.read, if_true] at this
      exact absurd this hv
    | cons d' rest' =>
      obtain ⟨k', v'⟩ := d'
      obtain ⟨hv', habove', hrest'⟩ := Memory.wf_cons.mp h'
      have hk : k = k' := by
        by_contra hne
        rcases lt_or_gt_of_ne hne with hlt | hlt
        · have := hread k
          rw [Memory.read, if_pos rfl, Memory.read, if_neg (by omega),
            Memory.read_of_above habove' (by omega)] at this
          exact hv this
        · have := hread k'
          rw [Memory.read, if_neg (by omega), Memory.read_of_above habove (by omega), Memory.read,
            if_pos rfl] at this
          exact hv' this.symm
      subst hk
      have hvv : v = v' := by simpa [Memory.read] using hread k
      subst hvv
      congr 1
      refine ih hrest hrest' fun a => ?_
      by_cases ha : k = a
      · rw [Memory.read_of_above habove (by omega), Memory.read_of_above habove' (by omega)]
      · simpa [Memory.read, ha] using hread a

/-- The writes of an agent keep the canonical form. -/
theorem Memory.wf_writeCells {m : Memory} (h : Memory.wf m = true) (cells : List Host.Cell) :
    Memory.wf (Memory.writeCells m cells) = true := by
  unfold Memory.writeCells
  induction cells generalizing m with
  | nil => exact h
  | cons c rest ih => exact ih (Memory.wf_write h _ _)

end Sys2Proof.Machine
end

