-- ==== Sys2Proof/Laws/Buffer.lean ====
section
/-! SUPPORT. The laws of the byte primitives of the Byte Buffer (R22, R23) and of the Word Assembler (R50 to R53). -/

namespace Sys2Proof.Machine

theorem memRead_of_valid {buf : Buffer} {a : Int} (h : Buffer.Valid buf a) (m : Memory) :
    memRead m buf a = Memory.read m (Buffer.cell buf a) := if_pos h

theorem memRead_of_not_valid {buf : Buffer} {a : Int} (h : ¬ Buffer.Valid buf a) (m : Memory) :
    memRead m buf a = 0#8 := if_neg h

/-- Two valid addresses of a buffer lie at one byte of the store only if they are one address. -/
theorem Buffer.cell_inj {buf : Buffer} {a a' : Int} (h : Buffer.Valid buf a) (h' : Buffer.Valid buf a') :
    Buffer.cell buf a = Buffer.cell buf a' ↔ a = a' := by
  obtain ⟨h0, -⟩ := h
  obtain ⟨h0', -⟩ := h'
  unfold Buffer.cell
  omega

/-- `MemWrite` keeps the canonical form. -/
theorem wf_memWrite {m : Memory} (h : Memory.wf m = true) (buf : Buffer) (a : Int) (b : Byte) :
    Memory.wf (memWrite m buf a b) = true := by
  unfold memWrite
  split
  · exact Memory.wf_write h _ _
  · exact h

/-- The byte writes of an operation keep the canonical form. -/
theorem wf_memWriteAll {m : Memory} (h : Memory.wf m = true) (buf : Buffer) (l : List Store) :
    Memory.wf (memWriteAll m buf l) = true := by
  unfold memWriteAll
  induction l generalizing m with
  | nil => exact h
  | cons w rest ih => exact ih (wf_memWrite h _ _ _)

/-- What every byte of the store reads as after `MemWrite` (R23). -/
theorem read_memWrite {m : Memory} (h : Memory.wf m = true) (buf : Buffer) (a : Int) (b : Byte) (c : Nat) :
    Memory.read (memWrite m buf a b) c
      = if Buffer.Valid buf a ∧ c = Buffer.cell buf a then b else Memory.read m c := by
  unfold memWrite
  by_cases hv : Buffer.Valid buf a
  · rw [if_pos hv, Memory.read_write h]
    by_cases hc : c = Buffer.cell buf a
    · rw [if_pos hc, if_pos ⟨hv, hc⟩]
    · rw [if_neg hc, if_neg fun h => hc h.2]
  · rw [if_neg hv, if_neg (fun hc => hv hc.1)]

@[simp] theorem memWriteAll_nil (m : Memory) (buf : Buffer) : memWriteAll m buf [] = m := rfl

@[simp] theorem memWriteAll_cons (m : Memory) (buf : Buffer) (w : Store) (l : List Store) :
    memWriteAll m buf (w :: l) = memWriteAll (memWrite m buf w.1 w.2) buf l := rfl

theorem memWriteAll_append (m : Memory) (buf : Buffer) (l l' : List Store) :
    memWriteAll m buf (l ++ l') = memWriteAll (memWriteAll m buf l) buf l' := by
  simp [memWriteAll]

/-- A byte of the store that no in-range write of the list names reads as before. -/
theorem read_memWriteAll_other {m : Memory} (h : Memory.wf m = true) (buf : Buffer) (l : List Store) (c : Nat)
    (hc : ∀ w ∈ l, Buffer.Valid buf w.1 → c ≠ Buffer.cell buf w.1) :
    Memory.read (memWriteAll m buf l) c = Memory.read m c := by
  induction l generalizing m with
  | nil => rfl
  | cons w rest ih =>
    rw [memWriteAll_cons, ih (wf_memWrite h _ _ _) (fun w' hw' => hc w' (List.mem_cons_of_mem _ hw')),
      read_memWrite h, if_neg]
    rintro ⟨hv, rfl⟩
    exact hc w (by simp) hv rfl

/-- The byte of an in-range write reads back, if the list names each address once. -/
theorem read_memWriteAll_mem {m : Memory} (h : Memory.wf m = true) (buf : Buffer) (l : List Store)
    (hnd : (l.map Prod.fst).Nodup) {w : Store} (hw : w ∈ l) (hv : Buffer.Valid buf w.1) :
    Memory.read (memWriteAll m buf l) (Buffer.cell buf w.1) = w.2 := by
  induction l generalizing m with
  | nil => simp at hw
  | cons d rest ih =>
    rw [memWriteAll_cons]
    rw [List.map_cons, List.nodup_cons] at hnd
    rcases List.mem_cons.mp hw with rfl | hw
    · rw [read_memWriteAll_other (wf_memWrite h _ _ _) buf rest _, read_memWrite h, if_pos ⟨hv, rfl⟩]
      intro w' hw' hv' heq
      have := (Buffer.cell_inj hv hv').mp heq
      exact hnd.1 (this ▸ List.mem_map_of_mem hw')
    · exact ih (wf_memWrite h _ _ _) hnd.2 hw

theorem unpackw_addresses (offset : Int) (w : BitWord32) (o : Order) :
    (unpackw offset w o).map Prod.fst = [offset, offset + 1, offset + 2, offset + 3] := by
  cases o <;> simp [unpackw, effectiveAddress]

theorem unpackd_addresses (offset : Int) (p : BitWord32 × BitWord32) (o : Order) :
    (unpackd offset p o).map Prod.fst
      = [offset, offset + 1, offset + 2, offset + 3, offset + 4, offset + 5, offset + 6, offset + 7] := by
  cases o <;> simp [unpackd, unpackw_addresses, add_assoc]

theorem unpackw_nodup (offset : Int) (w : BitWord32) (o : Order) :
    ((unpackw offset w o).map Prod.fst).Nodup := by
  rw [unpackw_addresses]
  simp

theorem unpackd_nodup (offset : Int) (p : BitWord32 × BitWord32) (o : Order) :
    ((unpackd offset p o).map Prod.fst).Nodup := by
  rw [unpackd_addresses]
  simp

/-- The sum of four byte products does not wrap (R47 (b)). -/
theorem wordOfBytes_toNat (b3 b2 b1 b0 : Byte) : (wordOfBytes b3 b2 b1 b0).toNat
    = b3.toNat * 2 ^ 24 + b2.toNat * 2 ^ 16 + b1.toNat * 2 ^ 8 + b0.toNat := by
  have h3 := b3.isLt
  have h2 := b2.isLt
  have h1 := b1.isLt
  have h0 := b0.isLt
  rw [wordOfBytes, BitVec.toNat_ofNat]
  exact Nat.mod_eq_of_lt (by omega)

/-- Byte `k` of a word as an integer (R7). -/
theorem wordByte_toNat (w : BitWord32) (k : Nat) : (wordByte w k).toNat = w.toNat / 2 ^ (8 * k) % 2 ^ 8 := by
  simp [wordByte, Nat.shiftRight_eq_div_pow]

/-- A word is the word of its bytes. -/
theorem wordOfBytes_wordByte (w : BitWord32) :
    wordOfBytes (wordByte w 3) (wordByte w 2) (wordByte w 1) (wordByte w 0) = w := by
  apply BitVec.eq_of_toNat_eq
  have hw := w.isLt
  rw [wordOfBytes_toNat, wordByte_toNat, wordByte_toNat, wordByte_toNat, wordByte_toNat]
  omega

/-- The bytes of the word of four bytes. -/
theorem wordByte_wordOfBytes (b3 b2 b1 b0 : Byte) :
    wordByte (wordOfBytes b3 b2 b1 b0) 3 = b3 ∧ wordByte (wordOfBytes b3 b2 b1 b0) 2 = b2 ∧
    wordByte (wordOfBytes b3 b2 b1 b0) 1 = b1 ∧ wordByte (wordOfBytes b3 b2 b1 b0) 0 = b0 := by
  have h3 := b3.isLt
  have h2 := b2.isLt
  have h1 := b1.isLt
  have h0 := b0.isLt
  refine ⟨?_, ?_, ?_, ?_⟩ <;> apply BitVec.eq_of_toNat_eq <;> rw [wordByte_toNat, wordOfBytes_toNat] <;> omega

end Sys2Proof.Machine
end

