-- ==== Sys2Proof/Laws/Rounding.lean ====
section
/-! SUPPORT. The laws of the Rounder (R60 to R62) and of the Normalizer (R55) over the exact rationals. -/

namespace Sys2Proof.Machine

theorem POW2_pos (n : Int) : 0 < POW2 n := by
  rw [POW2_eq_zpow]; positivity

theorem POW2_ne_zero (n : Int) : POW2 n ≠ 0 := (POW2_pos n).ne'

theorem POW2_add (a b : Int) : POW2 (a + b) = POW2 a * POW2 b := by
  simp only [POW2_eq_zpow]
  exact zpow_add₀ (by norm_num) a b

theorem POW2_natCast (n : Nat) : POW2 n = 2 ^ n := by
  rw [POW2_eq_zpow, zpow_natCast]

theorem POW2_zero : POW2 0 = 1 := by
  rw [POW2_eq_zpow, zpow_zero]

theorem POW2_one : POW2 1 = 2 := by
  rw [POW2_eq_zpow, zpow_one]

theorem POW2_neg (n : Int) : POW2 (-n) = (POW2 n)⁻¹ := by
  simp only [POW2_eq_zpow]
  exact zpow_neg _ _

theorem POW2_le_POW2 {a b : Int} : POW2 a ≤ POW2 b ↔ a ≤ b := by
  simp only [POW2_eq_zpow]
  exact zpow_le_zpow_iff_right₀ (by norm_num)

theorem POW2_lt_POW2 {a b : Int} : POW2 a < POW2 b ↔ a < b := by
  simp only [POW2_eq_zpow]
  exact zpow_lt_zpow_iff_right₀ (by norm_num)

/-! ### The exponent of a magnitude -/

/-- `e = floor(log2(x))` is "the one integer with `2^e <= x < 2^(e+1)`" (R55). -/
theorem log_bounds {x : ℚ} (h : 0 < x) : POW2 (Int.log 2 x) ≤ x ∧ x < POW2 (Int.log 2 x + 1) := by
  simp only [POW2_eq_zpow]
  exact ⟨by exact_mod_cast Int.zpow_log_le_self (b := 2) (by norm_num) h,
    by exact_mod_cast Int.lt_zpow_succ_log_self (b := 2) (by norm_num) x⟩

theorem log_unique {x : ℚ} {e : Int} (h : POW2 e ≤ x) (h' : x < POW2 (e + 1)) : Int.log 2 x = e := by
  have hx : 0 < x := (POW2_pos e).trans_le h
  obtain ⟨h1, h2⟩ := log_bounds hx
  have a := POW2_lt_POW2.mp (h.trans_lt h2)
  have b := POW2_lt_POW2.mp (h1.trans_lt h')
  omega

theorem le_log_iff {x : ℚ} (h : 0 < x) {e : Int} : e ≤ Int.log 2 x ↔ POW2 e ≤ x := by
  obtain ⟨h1, h2⟩ := log_bounds h
  constructor
  · exact fun he => (POW2_le_POW2.mpr he).trans h1
  · intro he
    have := POW2_lt_POW2.mp (he.trans_lt h2)
    omega

theorem log_lt_iff {x : ℚ} (h : 0 < x) {e : Int} : Int.log 2 x < e ↔ x < POW2 e := by
  rw [← not_le, ← not_le, not_iff_not]
  exact le_log_iff h

/-- The exponent of `K * 2^q` (R59). -/
theorem log_mul_POW2 {K : Nat} (hK : K ≠ 0) (q : Int) : Int.log 2 (K * POW2 q) = q + Nat.log2 K := by
  have h1 : ((2 ^ Nat.log2 K : Nat) : ℚ) ≤ K := by exact_mod_cast Nat.log2_self_le hK
  have h2 : (K : ℚ) < ((2 ^ (Nat.log2 K + 1) : Nat) : ℚ) := by exact_mod_cast Nat.lt_log2_self
  apply log_unique
  · rw [add_comm, POW2_add, POW2_natCast]
    exact mul_le_mul_of_nonneg_right (by exact_mod_cast h1) (POW2_pos q).le
  · rw [add_assoc, add_comm, POW2_add]
    refine mul_lt_mul_of_pos_right ?_ (POW2_pos q)
    have : POW2 ((Nat.log2 K : Int) + 1) = 2 ^ (Nat.log2 K + 1) := by
      rw [← POW2_natCast]; norm_num
    rw [this]; exact_mod_cast h2

/-- The NormalForm of a positive magnitude (R55): `x = m * 2^e` with `1 <= m < 2`. -/
theorem normalForm_spec {x : ℚ} (h : 0 < x) :
    x = (normalForm x).2 * POW2 (normalForm x).1 ∧ 1 ≤ (normalForm x).2 ∧ (normalForm x).2 < 2 := by
  obtain ⟨h1, h2⟩ := log_bounds h
  have hp := POW2_pos (Int.log 2 x)
  refine ⟨?_, ?_, ?_⟩
  · simp only [normalForm]; field_simp
  · simp only [normalForm]; rwa [le_div_iff₀ hp, one_mul]
  · simp only [normalForm]; rw [div_lt_iff₀ hp]
    rwa [POW2_add, POW2_one, mul_comm] at h2

/-- "The pair is unique" (R55). -/
theorem normalForm_unique {x m : ℚ} {e : Int} (hx : x = m * POW2 e) (h1 : 1 ≤ m) (h2 : m < 2) :
    normalForm x = (e, m) := by
  have hp := POW2_pos e
  have he : Int.log 2 x = e := by
    apply log_unique
    · rw [hx]; exact le_mul_of_one_le_left hp.le h1
    · rw [hx, POW2_add, POW2_one, mul_comm]; exact mul_lt_mul_of_pos_left h2 hp
  rw [normalForm, he, hx, mul_div_cancel_right₀ _ hp.ne']

/-! ### Rounding half to even -/

theorem roundHalfEven_cases (y : ℚ) : roundHalfEven y = ⌊y⌋₊ ∨ roundHalfEven y = ⌊y⌋₊ + 1 := by
  unfold roundHalfEven
  split_ifs <;> simp

/-- The rounded integer is within one half of `y`, and even where two integers are equally near (R60, R61). -/
theorem roundHalfEven_spec {y : ℚ} (h : 0 ≤ y) :
    |(roundHalfEven y : ℚ) - y| ≤ 1 / 2 ∧
      (|(roundHalfEven y : ℚ) - y| = 1 / 2 → roundHalfEven y % 2 = 0) := by
  have h1 := Nat.floor_le h
  have h2 := Nat.lt_floor_add_one y
  unfold roundHalfEven
  split_ifs with ha hb hc
  · push_cast
    rw [abs_of_nonneg (by linarith)]
    exact ⟨by linarith, fun h => absurd h (by linarith)⟩
  · rw [abs_of_nonpos (by linarith)]
    exact ⟨by linarith, fun h => absurd h (by linarith)⟩
  · have hd : y - ⌊y⌋₊ = 1 / 2 := by linarith
    rw [abs_of_nonpos (by linarith)]
    exact ⟨by linarith, fun _ => hc⟩
  · have hd : y - ⌊y⌋₊ = 1 / 2 := by linarith
    push_cast
    rw [abs_of_nonneg (by linarith)]
    exact ⟨by linarith, fun _ => by omega⟩

/-- An integer is returned unchanged (R60). -/
theorem roundHalfEven_natCast (n : Nat) : roundHalfEven n = n := by
  simp [roundHalfEven]

/-- Rounding is monotone. -/
theorem roundHalfEven_mono {y z : ℚ} (hy : 0 ≤ y) (hyz : y ≤ z) : roundHalfEven y ≤ roundHalfEven z := by
  by_contra hlt
  rw [not_le] at hlt
  have hz : 0 ≤ z := hy.trans hyz
  obtain ⟨hy1, hy2⟩ := roundHalfEven_spec hy
  obtain ⟨hz1, hz2⟩ := roundHalfEven_spec hz
  have hcast : (roundHalfEven z : ℚ) + 1 ≤ roundHalfEven y := by exact_mod_cast hlt
  rw [abs_le] at hy1 hz1
  have e1 : (roundHalfEven y : ℚ) - y = 1 / 2 := by linarith [hy1.2, hz1.1]
  have e2 : (roundHalfEven z : ℚ) - z = -(1 / 2) := by linarith [hy1.2, hz1.1]
  have p1 := hy2 (by rw [e1]; norm_num [abs_of_pos])
  have p2 := hz2 (by rw [e2]; norm_num [abs_of_pos])
  have : (roundHalfEven y : ℚ) = roundHalfEven z + 1 := by linarith
  have : roundHalfEven y = roundHalfEven z + 1 := by exact_mod_cast this
  omega

theorem roundHalfEven_le {y : ℚ} (hy : 0 ≤ y) {n : Nat} (h : y ≤ n) : roundHalfEven y ≤ n := by
  have := roundHalfEven_mono hy h
  rwa [roundHalfEven_natCast] at this

theorem le_roundHalfEven {y : ℚ} {n : Nat} (h : (n : ℚ) ≤ y) : n ≤ roundHalfEven y := by
  have := roundHalfEven_mono (Nat.cast_nonneg n) h
  rwa [roundHalfEven_natCast] at this

/-- Of all integers none is nearer to `y`, and where another is as near, the rounded one is even. -/
theorem roundHalfEven_nearest {y : ℚ} (hy : 0 ≤ y) (j : Int) :
    |(roundHalfEven y : ℚ) - y| ≤ |(j : ℚ) - y| ∧
      (|(j : ℚ) - y| = |(roundHalfEven y : ℚ) - y| → j ≠ roundHalfEven y → roundHalfEven y % 2 = 0) := by
  obtain ⟨h1, h2⟩ := roundHalfEven_spec hy
  by_cases hj : j = roundHalfEven y
  · subst hj; simp
  · have hge : (1 : ℚ) ≤ |(j : ℚ) - roundHalfEven y| := by
      have : (1 : Int) ≤ |j - roundHalfEven y| := Int.one_le_abs (sub_ne_zero.mpr hj)
      exact_mod_cast this
    have htri : |(j : ℚ) - roundHalfEven y| ≤ |(j : ℚ) - y| + |(roundHalfEven y : ℚ) - y| := by
      have := abs_sub_le (j : ℚ) y (roundHalfEven y)
      rwa [abs_sub_comm y] at this
    exact ⟨by linarith, fun heq _ => h2 (by linarith)⟩

end Sys2Proof.Machine
end

