-- ==== Sys2Proof/Laws/Encoding.lean ====
section
/-! SUPPORT. The laws of the finite-value path `FINENC` (R70). The fields `(E, M)` are read as one integer, their code
`E * 2^MW + M`, which a carry does not disturb: it is what makes the encoder's cases one statement per binade. -/

namespace Sys2Proof.Machine

/-- The fields as one integer, the word without its sign. -/
def code (fmt : Format) (f : Nat × Nat) : Nat := f.1 * 2 ^ fmt.mw + f.2

/-- The parameters of a format hang together: the largest finite field is that of a positive width, and the underflow
threshold lies below the range of the subnormals. -/
structure FormatOk (fmt : Format) : Prop where
  mw_pos : 0 < fmt.mw
  emaxf_pos : 0 < fmt.emaxf
  uf_lt : fmt.uf < 1 - fmt.mw
  uf_neg : fmt.uf ≤ 0

theorem binary32_ok : FormatOk binary32 := ⟨by decide, by decide, by decide, by decide⟩

theorem binary64_ok : FormatOk binary64 := ⟨by decide, by decide, by decide, by decide⟩

/-- A magnitude in units of the smallest subnormal, which is what the subnormal branch rounds (R70). -/
theorem subnormal_operand (fmt : Format) {x : ℚ} :
    (normalForm x).2 * POW2 ((normalForm x).1 + fmt.bias - 1) * POW2 fmt.mw = x * POW2 (fmt.bias - 1 + fmt.mw) := by
  have hp := POW2_ne_zero (Int.log 2 x)
  simp only [normalForm]
  have : POW2 (Int.log 2 x + fmt.bias - 1) = POW2 (Int.log 2 x) * POW2 (fmt.bias - 1) := by
    rw [← POW2_add]; congr 1; ring
  rw [this, POW2_add]; field_simp

/-- `FINENC` far below the subnormals (R71): the fields of a zero. -/
theorem finenc_underflow {fmt : Format} (ok : FormatOk fmt) {x : ℚ} (h : Int.log 2 x + fmt.bias ≤ fmt.uf) :
    finenc fmt x = (0, 0) := by
  have h0 : Int.log 2 x + fmt.bias ≤ 0 := h.trans ok.uf_neg
  simp [finenc, provisionalFields, clampFields, denormalRange, underflows, overflows, normalForm, h, h0]

/-- `FINENC` in the subnormal range (R70): the code is the magnitude in units of the smallest subnormal, rounded. -/
theorem finenc_subnormal {fmt : Format} (ok : FormatOk fmt) {x : ℚ} (hx : 0 < x) (h : fmt.uf < Int.log 2 x + fmt.bias)
    (h0 : Int.log 2 x + fmt.bias ≤ 0) :
    roundHalfEven (x * POW2 (fmt.bias - 1 + fmt.mw)) ≤ 2 ^ fmt.mw ∧
    finenc fmt x =
      if 2 ^ fmt.mw ≤ roundHalfEven (x * POW2 (fmt.bias - 1 + fmt.mw)) then (1, 0)
      else (0, roundHalfEven (x * POW2 (fmt.bias - 1 + fmt.mw))) := by
  have hle : roundHalfEven (x * POW2 (fmt.bias - 1 + fmt.mw)) ≤ 2 ^ fmt.mw := by
    apply roundHalfEven_le (mul_nonneg hx.le (POW2_pos _).le)
    have h1 : x < POW2 (Int.log 2 x + 1) := (log_bounds hx).2
    have h2 : x * POW2 (fmt.bias - 1 + fmt.mw) ≤ POW2 (1 - fmt.bias) * POW2 (fmt.bias - 1 + fmt.mw) :=
      mul_le_mul_of_nonneg_right (h1.le.trans (POW2_le_POW2.mpr (by omega))) (POW2_pos _).le
    rw [← POW2_add] at h2
    have : (1 - fmt.bias + (fmt.bias - 1 + fmt.mw) : Int) = (fmt.mw : Int) := by ring
    rw [this, POW2_natCast] at h2
    exact_mod_cast h2
  refine ⟨hle, ?_⟩
  have hpos := ok.emaxf_pos
  have hop := subnormal_operand fmt (x := x)
  have hu : ¬ Int.log 2 x + fmt.bias ≤ fmt.uf := not_le.mpr h
  simp only [finenc, provisionalFields, denormalRange, underflows, carries, roundToScale, hop]
  simp only [normalForm, h0, hu, if_true, if_false]
  by_cases hc : 2 ^ fmt.mw ≤ roundHalfEven (x * POW2 (fmt.bias - 1 + fmt.mw))
  · have : roundHalfEven (x * POW2 (fmt.bias - 1 + fmt.mw)) = 2 ^ fmt.mw := le_antisymm hle hc
    have h1 : ¬ fmt.emaxf < 1 := by omega
    simp [clampFields, overflows, this, h1]
  · have h1 : ¬ fmt.emaxf < 0 := by omega
    simp [clampFields, overflows, hc, h1]

/-- `FINENC` in the normal range (R70): rounding the fraction, the carry into the next binade, and overflow. -/
theorem finenc_normal {fmt : Format} {x : ℚ} (hx : 0 < x) (h0 : 0 < Int.log 2 x + fmt.bias) :
    roundHalfEven (((normalForm x).2 - 1) * POW2 fmt.mw) ≤ 2 ^ fmt.mw ∧
    finenc fmt x = clampFields fmt
      (if 2 ^ fmt.mw ≤ roundHalfEven (((normalForm x).2 - 1) * POW2 fmt.mw) then (Int.log 2 x + fmt.bias + 1, 0)
       else (Int.log 2 x + fmt.bias, roundHalfEven (((normalForm x).2 - 1) * POW2 fmt.mw))) := by
  obtain ⟨-, h1, h2⟩ := normalForm_spec hx
  have hle : roundHalfEven (((normalForm x).2 - 1) * POW2 fmt.mw) ≤ 2 ^ fmt.mw := by
    apply roundHalfEven_le (mul_nonneg (by linarith) (POW2_pos _).le)
    rw [POW2_natCast]
    push_cast
    exact mul_le_of_le_one_left (by positivity) (by linarith)
  refine ⟨hle, ?_⟩
  have hn : ¬ denormalRange ((normalForm x).1 + fmt.bias) := not_le.mpr h0
  rw [finenc, provisionalFields, if_neg hn]
  by_cases hc : 2 ^ fmt.mw ≤ roundHalfEven (((normalForm x).2 - 1) * POW2 fmt.mw)
  · have hc' : carries fmt (roundToScale ((normalForm x).2 - 1) fmt.mw) := hc
    rw [if_pos hc', if_pos hc, roundToScale, le_antisymm hle hc, Nat.sub_self, normalForm]
  · have hc' : ¬ carries fmt (roundToScale ((normalForm x).2 - 1) fmt.mw) := hc
    rw [if_neg hc', if_neg hc, roundToScale]
    rfl

/-- `FINENC` beyond the largest finite field (R71): the fields of an infinity. -/
theorem finenc_overflow {fmt : Format} (ok : FormatOk fmt) {x : ℚ} (hx : 0 < x) (h : fmt.emaxf < Int.log 2 x + fmt.bias) :
    finenc fmt x = ((fmt.emaxf + 1).toNat, 0) := by
  have := ok.emaxf_pos
  rw [(finenc_normal hx (by omega)).2]
  split
  · rw [clampFields, if_pos (by simp [overflows]; omega)]
  · rw [clampFields, if_pos (by simpa [overflows] using h)]

/-- The code of a magnitude in the subnormal range. -/
theorem code_subnormal {fmt : Format} (ok : FormatOk fmt) {x : ℚ} (hx : 0 < x) (h : fmt.uf < Int.log 2 x + fmt.bias)
    (h0 : Int.log 2 x + fmt.bias ≤ 0) :
    code fmt (finenc fmt x) = roundHalfEven (x * POW2 (fmt.bias - 1 + fmt.mw)) := by
  obtain ⟨hle, heq⟩ := finenc_subnormal ok hx h h0
  rw [heq]
  split
  · rename_i hc
    simp [code, le_antisymm hle hc]
  · simp [code]

/-- The code of a magnitude in the normal range, up to the largest finite field. -/
theorem code_normal {fmt : Format} {x : ℚ} (hx : 0 < x) (h0 : 0 < Int.log 2 x + fmt.bias)
    (hm : Int.log 2 x + fmt.bias ≤ fmt.emaxf) :
    code fmt (finenc fmt x)
      = (Int.log 2 x + fmt.bias).toNat * 2 ^ fmt.mw + roundHalfEven (((normalForm x).2 - 1) * POW2 fmt.mw) := by
  obtain ⟨hle, heq⟩ := finenc_normal hx h0
  rw [heq]
  split
  · rename_i hc
    rw [le_antisymm hle hc]
    have h1 : (Int.log 2 x + fmt.bias + 1).toNat = (Int.log 2 x + fmt.bias).toNat + 1 := by omega
    by_cases ho : fmt.emaxf < Int.log 2 x + fmt.bias + 1
    · have h2 : (fmt.emaxf + 1).toNat = (Int.log 2 x + fmt.bias).toNat + 1 := by omega
      simp only [clampFields, overflows, ho, if_true, code, h2]; ring
    · simp only [clampFields, overflows, ho, if_false, code, h1]; ring
  · have ho : ¬ fmt.emaxf < Int.log 2 x + fmt.bias := not_lt.mpr hm
    simp only [clampFields, overflows, ho, if_false, code]

/-- The fields of `FINENC` are in their ranges: `E` in `[0, EMAXF + 1]`, `M` in `[0, 2^MW)`, and `M = 0` where `E` is
`EMAXF + 1` (R70). -/
theorem finenc_ranges {fmt : Format} (ok : FormatOk fmt) {x : ℚ} (hx : 0 < x) :
    ((finenc fmt x).1 : Int) ≤ fmt.emaxf + 1 ∧ (finenc fmt x).2 < 2 ^ fmt.mw ∧
      (((finenc fmt x).1 : Int) = fmt.emaxf + 1 → (finenc fmt x).2 = 0) := by
  have hpos := ok.emaxf_pos
  have hp : 0 < 2 ^ fmt.mw := by positivity
  by_cases h : Int.log 2 x + fmt.bias ≤ fmt.uf
  · rw [finenc_underflow ok h]
    exact ⟨by push_cast; omega, hp, fun _ => rfl⟩
  by_cases h0 : Int.log 2 x + fmt.bias ≤ 0
  · obtain ⟨-, heq⟩ := finenc_subnormal ok hx (not_le.mp h) h0
    rw [heq]
    split
    · exact ⟨by push_cast; omega, hp, fun _ => rfl⟩
    · rename_i hc
      exact ⟨by push_cast; omega, not_le.mp hc, fun h' => absurd h' (by push_cast; omega)⟩
  · obtain ⟨-, heq⟩ := finenc_normal hx (not_le.mp h0)
    rw [heq]
    have key : ∀ p : Int × Nat, 0 ≤ p.1 → p.2 < 2 ^ fmt.mw →
        ((clampFields fmt p).1 : Int) ≤ fmt.emaxf + 1 ∧ (clampFields fmt p).2 < 2 ^ fmt.mw ∧
          (((clampFields fmt p).1 : Int) = fmt.emaxf + 1 → (clampFields fmt p).2 = 0) := by
      intro p hp1 hp2
      by_cases ho : fmt.emaxf < p.1
      · simp only [clampFields, overflows, ho, if_true]
        exact ⟨by omega, hp, fun _ => trivial⟩
      · simp only [clampFields, overflows, ho, if_false]
        exact ⟨by omega, hp2, fun h' => absurd h' (by omega)⟩
    split
    · exact key _ (by simp; omega) hp
    · rename_i hc
      exact key _ (by simp; omega) (not_le.mp hc)

/-- `FINENC` of the magnitude of a normal pattern gives its fields back. -/
theorem finenc_of_normal {fmt : Format} {E M : Nat} (hE : 0 < E) (hE' : (E : Int) ≤ fmt.emaxf) (hM : M < 2 ^ fmt.mw) :
    finenc fmt ((1 + M / 2 ^ fmt.mw) * POW2 (E - fmt.bias)) = (E, M) := by
  have hq : (M : ℚ) / 2 ^ fmt.mw < 1 := by
    rw [div_lt_one (by positivity)]; exact_mod_cast hM
  have hq0 : (0 : ℚ) ≤ M / 2 ^ fmt.mw := by positivity
  have hnf : normalForm ((1 + M / 2 ^ fmt.mw) * POW2 (E - fmt.bias)) = ((E : Int) - fmt.bias, 1 + (M : ℚ) / 2 ^ fmt.mw) :=
    normalForm_unique rfl (by linarith) (by linarith)
  have hlog : Int.log 2 ((1 + (M : ℚ) / 2 ^ fmt.mw) * POW2 (E - fmt.bias)) = E - fmt.bias := congrArg Prod.fst hnf
  have hx : 0 < (1 + (M : ℚ) / 2 ^ fmt.mw) * POW2 (E - fmt.bias) := mul_pos (by linarith) (POW2_pos _)
  obtain ⟨-, heq⟩ := finenc_normal (fmt := fmt) hx (by rw [hlog]; omega)
  have hr : (1 + (M : ℚ) / 2 ^ fmt.mw - 1) * POW2 fmt.mw = (M : Nat) := by
    rw [POW2_natCast]; field_simp; ring
  rw [heq, hnf, hlog]
  simp only [hr, roundHalfEven_natCast]
  rw [if_neg (not_le.mpr hM), clampFields, if_neg (by simp [overflows]; omega)]
  simp

/-- `FINENC` of the magnitude of a subnormal pattern gives its fields back. -/
theorem finenc_of_subnormal {fmt : Format} (ok : FormatOk fmt) {M : Nat} (hM0 : M ≠ 0) (hM : M < 2 ^ fmt.mw) :
    finenc fmt (M * POW2 (1 - fmt.bias - fmt.mw)) = (0, M) := by
  have hlog := log_mul_POW2 hM0 (1 - fmt.bias - fmt.mw)
  have hl : Nat.log2 M < fmt.mw := (Nat.log2_lt hM0).mpr hM
  have hx : 0 < (M : ℚ) * POW2 (1 - fmt.bias - fmt.mw) :=
    mul_pos (by exact_mod_cast Nat.pos_of_ne_zero hM0) (POW2_pos _)
  have := ok.uf_lt
  obtain ⟨-, heq⟩ := finenc_subnormal ok hx (by rw [hlog]; omega) (by rw [hlog]; omega)
  have hr : (M : ℚ) * POW2 (1 - fmt.bias - fmt.mw) * POW2 (fmt.bias - 1 + fmt.mw) = (M : Nat) := by
    rw [mul_assoc, ← POW2_add]
    have : (1 - fmt.bias - fmt.mw + (fmt.bias - 1 + fmt.mw) : Int) = 0 := by ring
    rw [this, POW2_zero, mul_one]
  rw [heq, hr, roundHalfEven_natCast, if_neg (not_le.mpr hM)]

end Sys2Proof.Machine
end

