-- ==== Sys2Proof/Laws/Codec.lean ====
section
/-! SUPPORT. The laws of the two codecs: the fields of a pattern and the pattern of its fields (R35, R36), and the value of a
pattern by its fields (R66, R76). -/

namespace Sys2Proof.Machine

/-! ### Fields and patterns -/

theorem fields32_s (w : BitWord32) : (fields32 w).s.toNat = w.toNat / 2 ^ 31 := by
  have := w.isLt
  simp only [fields32, BitVec.extractLsb'_toNat, Nat.shiftRight_eq_div_pow]
  omega

theorem fields32_E (w : BitWord32) : (fields32 w).E.toNat = w.toNat / 2 ^ 23 % 2 ^ 8 := by
  simp only [fields32, BitVec.extractLsb'_toNat, Nat.shiftRight_eq_div_pow]

theorem fields32_M (w : BitWord32) : (fields32 w).M.toNat = w.toNat % 2 ^ 23 := by
  simp only [fields32, BitVec.extractLsb'_toNat, Nat.shiftRight_zero]

theorem fields64_s (hi lo : BitWord32) : (fields64 hi lo).s.toNat = hi.toNat / 2 ^ 31 := by
  have := hi.isLt
  simp only [fields64, BitVec.extractLsb'_toNat, Nat.shiftRight_eq_div_pow]
  omega

theorem fields64_E (hi lo : BitWord32) : (fields64 hi lo).E.toNat = hi.toNat / 2 ^ 20 % 2 ^ 11 := by
  simp only [fields64, BitVec.extractLsb'_toNat, Nat.shiftRight_eq_div_pow]

theorem fields64_M (hi lo : BitWord32) : (fields64 hi lo).M.toNat = hi.toNat % 2 ^ 20 * 2 ^ 32 + lo.toNat := by
  have := lo.isLt
  simp only [fields64, BitVec.toNat_append, BitVec.extractLsb'_toNat, Nat.shiftRight_zero]
  rw [← Nat.shiftLeft_add_eq_or_of_lt lo.isLt, Nat.shiftLeft_eq]

/-- The assembly of a word does not wrap (R47 (b)). -/
theorem assemble32_toNat {s : Sign} {E M : Nat} (hE : E ≤ 255) (hM : M < 2 ^ 23) :
    (assemble32 s (E, M)).toNat = s.toNat * 2 ^ 31 + E * 2 ^ 23 + M := by
  have hs := s.isLt
  rw [assemble32, BitVec.toNat_ofNat]
  exact Nat.mod_eq_of_lt (by omega)

/-- The assembly of a word pair does not wrap (R47 (b)). -/
theorem split64_toNat {s : Sign} {E M : Nat} (hE : E ≤ 2047) (hM : M < 2 ^ 52) :
    (split64 s (E, M)).1.toNat = s.toNat * 2 ^ 31 + E * 2 ^ 20 + M / 2 ^ 32 ∧
      (split64 s (E, M)).2.toNat = M % 2 ^ 32 := by
  have hs := s.isLt
  simp only [split64, BitVec.toNat_ofNat]
  constructor
  · exact Nat.mod_eq_of_lt (by omega)
  · omega

/-- A word is the assembly of its fields (R35). -/
theorem assemble32_fields32 (w : BitWord32) :
    assemble32 (fields32 w).s ((fields32 w).E.toNat, (fields32 w).M.toNat) = w := by
  have hE := (fields32 w).E.isLt
  have hw := w.isLt
  apply BitVec.eq_of_toNat_eq
  rw [assemble32_toNat (by omega) (fields32 w).M.isLt, fields32_s, fields32_E, fields32_M]
  omega

/-- A word pair is the split of its fields (R36). -/
theorem split64_fields64 (hi lo : BitWord32) :
    split64 (fields64 hi lo).s ((fields64 hi lo).E.toNat, (fields64 hi lo).M.toNat) = (hi, lo) := by
  have hE := (fields64 hi lo).E.isLt
  have h1 := hi.isLt
  have h2 := lo.isLt
  obtain ⟨ha, hb⟩ := split64_toNat (s := (fields64 hi lo).s) (E := (fields64 hi lo).E.toNat)
    (by omega) (fields64 hi lo).M.isLt
  have es := fields64_s hi lo
  have eE := fields64_E hi lo
  have eM := fields64_M hi lo
  exact Prod.ext (BitVec.eq_of_toNat_eq (by rw [ha, es, eE, eM]; simp only []; omega))
    (BitVec.eq_of_toNat_eq (by rw [hb, eM]; simp only []; omega))

/-- The fields of an assembled word are the fields it was assembled from. -/
theorem fields32_assemble32 {s : Sign} {E : BitVec 8} {M : BitVec 23} {w : BitWord32}
    (h : w.toNat = s.toNat * 2 ^ 31 + E.toNat * 2 ^ 23 + M.toNat) : fields32 w = { s := s, E := E, M := M } := by
  have hs := s.isLt
  have hE := E.isLt
  have hM := M.isLt
  have h1 : (fields32 w).s = s := BitVec.eq_of_toNat_eq (by rw [fields32_s, h]; omega)
  have h2 : (fields32 w).E = E := BitVec.eq_of_toNat_eq (by rw [fields32_E, h]; omega)
  have h3 : (fields32 w).M = M := BitVec.eq_of_toNat_eq (by rw [fields32_M, h]; omega)
  rw [← h1, ← h2, ← h3]

/-- The fields of a split word pair are the fields it was split from. -/
theorem fields64_split64 {s : Sign} {E : BitVec 11} {M : BitVec 52} {hi lo : BitWord32}
    (h1 : hi.toNat = s.toNat * 2 ^ 31 + E.toNat * 2 ^ 20 + M.toNat / 2 ^ 32) (h2 : lo.toNat = M.toNat % 2 ^ 32) :
    fields64 hi lo = { s := s, E := E, M := M } := by
  have hs := s.isLt
  have hE := E.isLt
  have hM := M.isLt
  have e1 : (fields64 hi lo).s = s := BitVec.eq_of_toNat_eq (by rw [fields64_s, h1]; omega)
  have e2 : (fields64 hi lo).E = E := BitVec.eq_of_toNat_eq (by rw [fields64_E, h1]; omega)
  have e3 : (fields64 hi lo).M = M := BitVec.eq_of_toNat_eq (by rw [fields64_M, h1, h2]; omega)
  rw [← e1, ← e2, ← e3]

theorem bitVec_eq_zero {n : Nat} {b : BitVec n} : b = 0#n ↔ b.toNat = 0 := by
  constructor
  · rintro rfl; simp
  · intro h; exact BitVec.eq_of_toNat_eq (by simpa using h)

/-! ### The value of a pattern by its fields -/

/-- The five cases of `DEC32` (R66), by the fields. -/
theorem dec32_cases (w : BitWord32) :
    ((fields32 w).E = 0#8 ∧ (fields32 w).M = 0#23 ∧ dec32 w = .zero (fields32 w).s) ∨
    ((fields32 w).E = 0#8 ∧ (fields32 w).M ≠ 0#23 ∧ ∃ x : F64pos, dec32 w = .fin (fields32 w).s x ∧
      x.val = (fields32 w).M.toNat * POW2 (1 - 127 - 23)) ∨
    ((fields32 w).E = 255#8 ∧ (fields32 w).M = 0#23 ∧ dec32 w = .inf (fields32 w).s) ∨
    ((fields32 w).E = 255#8 ∧ (fields32 w).M ≠ 0#23 ∧ dec32 w = .nan) ∨
    ((fields32 w).E ≠ 0#8 ∧ (fields32 w).E ≠ 255#8 ∧ ∃ x : F64pos, dec32 w = .fin (fields32 w).s x ∧
      x.val = (1 + (fields32 w).M.toNat / 2 ^ 23) * POW2 ((fields32 w).E.toNat - 127)) := by
  by_cases hE : (fields32 w).E = 0#8
  · by_cases hM : (fields32 w).M = 0#23
    · exact .inl ⟨hE, hM, by rw [dec32, if_pos hE, dif_pos hM]⟩
    · exact .inr (.inl ⟨hE, hM, _, by rw [dec32, if_pos hE, dif_neg hM], rfl⟩)
  · by_cases hE' : (fields32 w).E = 255#8
    · by_cases hM : (fields32 w).M = 0#23
      · exact .inr (.inr (.inl ⟨hE', hM, by rw [dec32, if_neg hE, if_pos hE', if_pos hM]⟩))
      · exact .inr (.inr (.inr (.inl ⟨hE', hM, by rw [dec32, if_neg hE, if_pos hE', if_neg hM]⟩)))
    · exact .inr (.inr (.inr (.inr ⟨hE, hE', _, by rw [dec32, if_neg hE, if_neg hE'], rfl⟩)))

/-- The five cases of `DEC64` (R76), by the fields. -/
theorem dec64_cases (hi lo : BitWord32) :
    ((fields64 hi lo).E = 0#11 ∧ (fields64 hi lo).M = 0#52 ∧ dec64 hi lo = .zero (fields64 hi lo).s) ∨
    ((fields64 hi lo).E = 0#11 ∧ (fields64 hi lo).M ≠ 0#52 ∧ ∃ x : F64pos, dec64 hi lo = .fin (fields64 hi lo).s x ∧
      x.val = (fields64 hi lo).M.toNat * POW2 (1 - 1023 - 52)) ∨
    ((fields64 hi lo).E = 2047#11 ∧ (fields64 hi lo).M = 0#52 ∧ dec64 hi lo = .inf (fields64 hi lo).s) ∨
    ((fields64 hi lo).E = 2047#11 ∧ (fields64 hi lo).M ≠ 0#52 ∧ dec64 hi lo = .nan) ∨
    ((fields64 hi lo).E ≠ 0#11 ∧ (fields64 hi lo).E ≠ 2047#11 ∧ ∃ x : F64pos, dec64 hi lo = .fin (fields64 hi lo).s x ∧
      x.val = (1 + (fields64 hi lo).M.toNat / 2 ^ 52) * POW2 ((fields64 hi lo).E.toNat - 1023)) := by
  by_cases hE : (fields64 hi lo).E = 0#11
  · by_cases hM : (fields64 hi lo).M = 0#52
    · exact .inl ⟨hE, hM, by rw [dec64, dif_pos hE, dif_pos hM]⟩
    · exact .inr (.inl ⟨hE, hM, _, by rw [dec64, dif_pos hE, dif_neg hM], rfl⟩)
  · by_cases hE' : (fields64 hi lo).E = 2047#11
    · by_cases hM : (fields64 hi lo).M = 0#52
      · exact .inr (.inr (.inl ⟨hE', hM, by rw [dec64, dif_neg hE, dif_pos hE', if_pos hM]⟩))
      · exact .inr (.inr (.inr (.inl ⟨hE', hM, by rw [dec64, dif_neg hE, dif_pos hE', if_neg hM]⟩)))
    · exact .inr (.inr (.inr (.inr ⟨hE, hE', _, by rw [dec64, dif_neg hE, dif_neg hE'], rfl⟩)))

theorem F64pos_pos (x : F64pos) : 0 < x.val := by
  obtain ⟨K, q, hK, -, -, -, hx⟩ := x.2
  rw [hx]
  have : (0 : ℚ) < K := by exact_mod_cast hK
  positivity

/-- The exponent of a magnitude of `F64pos` (R58 (c)). -/
theorem F64pos_log (x : F64pos) : -1074 ≤ Int.log 2 x.val ∧ Int.log 2 x.val ≤ 1023 := by
  obtain ⟨K, q, hK, hK', hq, hq', hx⟩ := x.2
  have h0 : K ≠ 0 := by omega
  have hl : Nat.log2 K < 53 := (Nat.log2_lt h0).mpr hK'
  rw [hx, ← POW2_eq_zpow, log_mul_POW2 h0]
  omega

end Sys2Proof.Machine
end

