-- ==== Sys2Proof/Laws/Carrier.lean ====
section
/-! SUPPORT. The laws of the value carrier (R39): the fields of a packed carrier, when a carrier denotes a value, and the
canonical carriers of the magnitudes of patterns. -/

namespace Sys2Proof.Machine

theorem append_toNat {m n : Nat} (a : BitVec m) (b : BitVec n) : (a ++ b).toNat = a.toNat * 2 ^ n + b.toNat := by
  rw [BitVec.toNat_append, ← Nat.shiftLeft_add_eq_or_of_lt b.isLt, Nat.shiftLeft_eq]

/-- The fields of a packed carrier are the fields it was packed from (R39). -/
theorem packCarrier_fields (c : BitVec 2) (s : Sign) {q : Int} {K : Nat} (hq : -2048 ≤ q) (hq' : q < 2048)
    (hK : K < 2 ^ 53) :
    carrierClass (packCarrier c s q K) = c ∧ carrierSign (packCarrier c s q K) = s ∧
      carrierExp (packCarrier c s q K) = q ∧ carrierSig (packCarrier c s q K) = K := by
  have hc := c.isLt
  have hs := s.isLt
  have he := (BitVec.ofInt 12 q).isLt
  have hnat : (packCarrier c s q K).toNat
      = c.toNat * 2 ^ 66 + s.toNat * 2 ^ 65 + (BitVec.ofInt 12 q).toNat * 2 ^ 53 + K := by
    simp only [packCarrier, append_toNat, BitVec.toNat_ofNat, Nat.mod_eq_of_lt hK]
    ring
  have hexp : (packCarrier c s q K).extractLsb' 53 12 = BitVec.ofInt 12 q := by
    apply BitVec.eq_of_toNat_eq
    rw [BitVec.extractLsb'_toNat, hnat, Nat.shiftRight_eq_div_pow]
    omega
  refine ⟨?_, ?_, ?_, ?_⟩
  · apply BitVec.eq_of_toNat_eq
    rw [carrierClass, BitVec.extractLsb'_toNat, hnat, Nat.shiftRight_eq_div_pow]
    omega
  · apply BitVec.eq_of_toNat_eq
    rw [carrierSign, BitVec.extractLsb'_toNat, hnat, Nat.shiftRight_eq_div_pow]
    omega
  · rw [carrierExp, hexp, BitVec.toInt_ofInt]
    exact Int.bmod_eq_of_le (by norm_num; omega) (by norm_num; omega)
  · rw [carrierSig, BitVec.extractLsb'_toNat, hnat, Nat.shiftRight_zero]
    omega

/-- `finiteLegal` accepts exactly the pairs whose magnitude is in `F64pos` (R39, R17). -/
theorem finiteLegal_iff {K : Nat} {q : Int} (hK : K < 2 ^ 53) :
    finiteLegal K q = true ↔ K ≠ 0 ∧ InF64pos (K * (2 : ℚ) ^ q) := by
  constructor
  · intro h
    refine ⟨?_, POW2_eq_zpow q ▸ inF64pos_of_finiteLegal hK h⟩
    rintro rfl
    simp [finiteLegal] at h
  · rintro ⟨h0, K', q', h1, h2, h3, h4, heq⟩
    simp only [finiteLegal, Bool.and_eq_true, bne_iff_ne]
    refine ⟨h0, ?_⟩
    split
    · rename_i hq
      have : (K : ℚ) = K' * 2 ^ (q' - q).toNat := by
        have h2q : (2 : ℚ) ^ q ≠ 0 := by positivity
        have : (2 : ℚ) ^ q' = 2 ^ (q' - q).toNat * (2 : ℚ) ^ q := by
          rw [← zpow_natCast, ← zpow_add₀ (by norm_num)]
          congr 1; omega
        rw [this, ← mul_assoc] at heq
        exact mul_right_cancel₀ h2q heq
      have hn : K = K' * 2 ^ (q' - q).toNat := by exact_mod_cast this
      have hdvd : 2 ^ (-1074 - q).toNat ∣ K := by
        rw [hn]
        exact Dvd.dvd.mul_left (pow_dvd_pow 2 (by omega)) K'
      simpa using Nat.mod_eq_zero_of_dvd hdvd
    · split
      · rename_i hq
        have : (K : ℚ) * 2 ^ (q - q').toNat = K' := by
          have h2q : (2 : ℚ) ^ q' ≠ 0 := by positivity
          have : (2 : ℚ) ^ q = 2 ^ (q - q').toNat * (2 : ℚ) ^ q' := by
            rw [← zpow_natCast, ← zpow_add₀ (by norm_num)]
            congr 1; omega
          rw [this, ← mul_assoc] at heq
          exact mul_right_cancel₀ h2q heq
        have hn : K * 2 ^ (q - q').toNat = K' := by exact_mod_cast this
        have hle : K * 2 ^ (q - 971).toNat ≤ K * 2 ^ (q - q').toNat :=
          Nat.mul_le_mul_left K (Nat.pow_le_pow_right (by norm_num) (by omega))
        exact decide_eq_true (by omega)
      · rfl

/-- Reading a `cls = 1` carrier that denotes a value. -/
theorem readCarrier_finite {nv : BitVec 68} (hc : carrierClass nv = 1#2)
    (h : finiteLegal (carrierSig nv) (carrierExp nv) = true) :
    ∃ x : F64pos, readCarrier nv = some (.fin (carrierSign nv) x) ∧ x.val = carrierSig nv * POW2 (carrierExp nv) := by
  refine ⟨⟨carrierSig nv * POW2 (carrierExp nv), inF64pos_of_finiteLegal (BitVec.isLt _) h⟩, ?_, rfl⟩
  rw [readCarrier, if_neg (by rw [hc]; decide), if_neg (by rw [hc]; decide), if_neg (by rw [hc]; decide), dif_pos h]

/-- Reading a packed carrier whose pair is the magnitude of `x` (R39): the value with `x`. -/
theorem readCarrier_packCarrier {s : Sign} {q : Int} {K : Nat} (hq : -2048 ≤ q) (hq' : q < 2048) (hK : K < 2 ^ 53)
    {x : F64pos} (hx : x.val = K * POW2 q) : readCarrier (packCarrier 1#2 s q K) = some (.fin s x) := by
  obtain ⟨f1, f2, f3, f4⟩ := packCarrier_fields 1#2 s hq hq' hK
  have hpos := F64pos_pos x
  have h0 : K ≠ 0 := by
    rintro rfl
    rw [hx] at hpos
    simp at hpos
  obtain ⟨x', h1, h2⟩ := readCarrier_finite f1
    (by rw [f3, f4]; exact (finiteLegal_iff hK).mpr ⟨h0, by rw [← POW2_eq_zpow, ← hx]; exact x.2⟩)
  rw [h1, f2]
  congr 2
  exact Subtype.ext (by rw [h2, f3, f4, hx])

/-- The canonical pair of the magnitude of a normal pattern (R39). -/
theorem canonical_normal {fmt : Format} {E M : Nat} (hE : 0 < E) (hM : M < 2 ^ fmt.mw) {x : ℚ}
    (hx : x = (1 + M / 2 ^ fmt.mw) * POW2 (E - fmt.bias)) :
    canonicalExp fmt x = E - fmt.bias - fmt.mw ∧ ⌊x / POW2 (canonicalExp fmt x)⌋₊ = 2 ^ fmt.mw + M ∧
      x = ((2 ^ fmt.mw + M : Nat) : ℚ) * POW2 (E - fmt.bias - fmt.mw) := by
  have hq : (M : ℚ) / 2 ^ fmt.mw < 1 := by
    rw [div_lt_one (by positivity)]; exact_mod_cast hM
  have hq0 : (0 : ℚ) ≤ M / 2 ^ fmt.mw := by positivity
  have hlog : Int.log 2 x = E - fmt.bias :=
    congrArg Prod.fst (normalForm_unique (m := 1 + (M : ℚ) / 2 ^ fmt.mw) hx (by linarith) (by linarith))
  have hexp : canonicalExp fmt x = E - fmt.bias - fmt.mw := by
    rw [canonicalExp, hlog]; omega
  have hval : x = ((2 ^ fmt.mw + M : Nat) : ℚ) * POW2 (E - fmt.bias - fmt.mw) := by
    have : POW2 ((E : Int) - fmt.bias) = 2 ^ fmt.mw * POW2 (E - fmt.bias - fmt.mw) := by
      rw [← POW2_natCast, ← POW2_add]; congr 1; ring
    rw [hx, this]; push_cast; field_simp
  refine ⟨hexp, ?_, hval⟩
  rw [hexp, hval, mul_div_cancel_right₀ _ (POW2_ne_zero _), Nat.floor_natCast]

/-- The canonical pair of the magnitude of a subnormal pattern (R39). -/
theorem canonical_subnormal {fmt : Format} {M : Nat} (hM0 : M ≠ 0) (hM : M < 2 ^ fmt.mw) {x : ℚ}
    (hx : x = M * POW2 (1 - fmt.bias - fmt.mw)) :
    canonicalExp fmt x = 1 - fmt.bias - fmt.mw ∧ ⌊x / POW2 (canonicalExp fmt x)⌋₊ = M := by
  have hl : Nat.log2 M < fmt.mw := (Nat.log2_lt hM0).mpr hM
  have hexp : canonicalExp fmt x = 1 - fmt.bias - fmt.mw := by
    rw [canonicalExp, hx, log_mul_POW2 hM0]; omega
  refine ⟨hexp, ?_⟩
  rw [hexp, hx, mul_div_cancel_right₀ _ (POW2_ne_zero _), Nat.floor_natCast]

end Sys2Proof.Machine
end

