-- ==== Sys2Proof/Laws/State.lean ====
section
/-! SUPPORT. One lemma per field and update of `State`, so that no proof unfolds a record update. -/

namespace Sys2Proof.Machine

@[simp] theorem respond_inputs (s : State) (r : Response) : (s.respond r).inputs = s.inputs := rfl
@[simp] theorem respond_mem (s : State) (r : Response) : (s.respond r).mem = s.mem := rfl
@[simp] theorem respond_response (s : State) (r : Response) : (s.respond r).response = some r := rfl
@[simp] theorem respond_draws (s : State) (r : Response) : (s.respond r).draws = s.draws := rfl

@[simp] theorem store_inputs (s : State) (buf : Buffer) (l : List Store) : (s.store buf l).inputs = s.inputs := rfl
@[simp] theorem store_mem (s : State) (buf : Buffer) (l : List Store) :
    (s.store buf l).mem = memWriteAll s.mem buf l := rfl
@[simp] theorem store_response (s : State) (buf : Buffer) (l : List Store) :
    (s.store buf l).response = s.response := rfl
@[simp] theorem store_draws (s : State) (buf : Buffer) (l : List Store) : (s.store buf l).draws = s.draws := rfl

@[simp] theorem answerValue_inputs (s : State) (fmt : Format) (v : NV) : (s.answerValue fmt v).inputs = s.inputs := rfl
@[simp] theorem answerValue_mem (s : State) (fmt : Format) (v : NV) : (s.answerValue fmt v).mem = s.mem := rfl
@[simp] theorem answerValue_response (s : State) (fmt : Format) (v : NV) :
    (s.answerValue fmt v).response = some (.value (writeCarrier fmt v)) := rfl
@[simp] theorem answerValue_draws (s : State) (fmt : Format) (v : NV) : (s.answerValue fmt v).draws = s.draws := rfl

end Sys2Proof.Machine
end

