-- ==== Sys2Proof/Laws/Exec.lean ====
section
/-! SUPPORT. What `exec` and each input can do, said once. -/

namespace Sys2Proof.Machine

/-- The byte store after an instruction: its byte writes, if it issues any (R26). -/
def memAfter (i : Instr) (m : Memory) : Memory :=
  match Instr.stores i with
  | none => m
  | some (buf, stores) => memWriteAll m buf stores

/-- Every instruction completes; it changes the response, and the store by its byte writes, and nothing else (R95, R26). -/
theorem exec_next (i : Instr) (s : State) :
    ∃ t, exec i s = .next t ∧ t.inputs = s.inputs ∧ t.draws = s.draws ∧ t.mem = memAfter i s.mem ∧
      t.response.isSome = true := by
  cases i <;> exact ⟨_, rfl, rfl, rfl, rfl, rfl⟩

/-- The same, from the next state. -/
theorem exec_inversion {i : Instr} {s t : State} (h : exec i s = .next t) :
    t.inputs = s.inputs ∧ t.draws = s.draws ∧ t.mem = memAfter i s.mem ∧ t.response.isSome = true := by
  obtain ⟨t', h', rest⟩ := exec_next i s
  obtain rfl : t' = t := by simpa using h'.symm.trans h
  exact rest

/-- The byte writes of an instruction keep the canonical form of the store. -/
theorem wf_memAfter (i : Instr) {m : Memory} (h : Memory.wf m = true) : Memory.wf (memAfter i m) = true := by
  unfold memAfter
  split
  · exact h
  · exact wf_memWriteAll h _ _

/-- The byte writes of an instruction go to the addresses of its window, each once (R26). -/
theorem stores_window {i : Instr} {buf : Buffer} {stores : List Store} (h : Instr.stores i = some (buf, stores)) :
    ∃ offset n, Instr.window i = some (buf, offset, n) ∧
      stores.map Prod.fst = (List.range n).map (effectiveAddress offset) := by
  cases i <;> simp only [Instr.stores, Option.some.injEq, Prod.mk.injEq, reduceCtorEq] at h
  all_goals
    obtain ⟨rfl, rfl⟩ := h
    refine ⟨_, _, rfl, ?_⟩
    first | rw [unpackw_addresses] | rw [unpackd_addresses]
    simp [List.range_succ, effectiveAddress]

/-- The addresses an instruction writes are pairwise different (R29). -/
theorem stores_nodup {i : Instr} {buf : Buffer} {stores : List Store} (h : Instr.stores i = some (buf, stores)) :
    (stores.map Prod.fst).Nodup := by
  cases i <;> simp only [Instr.stores, Option.some.injEq, Prod.mk.injEq, reduceCtorEq] at h
  all_goals
    obtain ⟨rfl, rfl⟩ := h
    first | exact unpackw_nodup _ _ _ | exact unpackd_nodup _ _ _

/-- A byte an instruction does not touch reads as before (R113). -/
theorem read_memAfter_other {i : Instr} {m : Memory} (hm : Memory.wf m = true) {h : Nat}
    (hn : ¬ Instr.Touches i h) : Memory.read (memAfter i m) h = Memory.read m h := by
  unfold memAfter
  split
  · rfl
  · rename_i buf stores heq
    obtain ⟨offset, n, hw, hmap⟩ := stores_window heq
    refine read_memWriteAll_other hm buf stores h fun w hmem hv heq' => hn ?_
    have : w.1 ∈ (List.range n).map (effectiveAddress offset) := hmap ▸ List.mem_map_of_mem hmem
    obtain ⟨k, hk, hk'⟩ := List.mem_map.mp this
    exact ⟨buf, offset, n, hw, k, List.mem_range.mp hk, hk' ▸ hv, hk' ▸ heq'⟩

/-- What a byte that reads `b` reads as after writes of an agent, in their order: the last of them to that byte decides. -/
def byteAfter (h : Nat) (b : Byte) (cells : List Host.Cell) : Byte :=
  cells.foldl (fun b c => if h = c.1 then c.2 else b) b

@[simp] theorem byteAfter_nil (h : Nat) (b : Byte) : byteAfter h b [] = b := rfl

@[simp] theorem byteAfter_cons (h : Nat) (b : Byte) (c : Host.Cell) (rest : List Host.Cell) :
    byteAfter h b (c :: rest) = byteAfter h (if h = c.1 then c.2 else b) rest := rfl

/-- What every byte of the store reads as after an agent's writes. -/
theorem read_writeCells {m : Memory} (hm : Memory.wf m = true) (cells : List Host.Cell) (h : Nat) :
    Memory.read (Memory.writeCells m cells) h = byteAfter h (Memory.read m h) cells := by
  induction cells generalizing m with
  | nil => rfl
  | cons c rest ih =>
    have := ih (Memory.wf_write hm c.1 c.2)
    rwa [Memory.read_write hm] at this

/-- The selected items of a list stand in it in their order. -/
theorem chosen_sublist {α : Type} (pick : Nat → α → Bool) (i : Nat) (l : List α) : (chosen pick i l).Sublist l := by
  induction l generalizing i with
  | nil => exact .refl _
  | cons x rest ih =>
    rw [chosen]
    split
    · exact (ih (i + 1)).cons_cons x
    · exact (ih (i + 1)).cons x

/-- The agent's writes to one byte that land before the access to it are a beginning of the agent's writes. -/
theorem byteAfter_before (n h i : Nat) (b : Byte) (cells : List Host.Cell) :
    byteAfter h b (chosen (landsBefore n) i cells) = byteAfter h b (cells.take (Config.accessAfter n h - i)) := by
  induction cells generalizing i b with
  | nil => simp [chosen]
  | cons c rest ih =>
    by_cases hc : h = c.1
    · subst hc
      by_cases hi : i < Config.accessAfter n c.1
      · obtain ⟨k, hk⟩ : ∃ k, Config.accessAfter n c.1 - i = k + 1 := ⟨Config.accessAfter n c.1 - i - 1, by omega⟩
        have hk' : Config.accessAfter n c.1 - (i + 1) = k := by omega
        simp [chosen, landsBefore, hi, hk, ih, hk']
      · have h0 : Config.accessAfter n c.1 - i = 0 := by omega
        have h1 : Config.accessAfter n c.1 - (i + 1) = 0 := by omega
        simp [chosen, landsBefore, hi, h0, ih, h1]
    · have step : byteAfter h b (chosen (landsBefore n) i (c :: rest))
          = byteAfter h b (rest.take (Config.accessAfter n h - (i + 1))) := by
        rw [← ih, chosen]
        split <;> simp [hc]
      rw [step]
      cases hk : Config.accessAfter n h - i with
      | zero =>
        have : Config.accessAfter n h - (i + 1) = 0 := by omega
        simp [this]
      | succ k =>
        have : Config.accessAfter n h - (i + 1) = k := by omega
        simp [this, hc]

/-- Writes of which none is to the byte leave it alone. -/
theorem byteAfter_other {h : Nat} {cells : List Host.Cell} (hno : ∀ c ∈ cells, h ≠ c.1) (b : Byte) :
    byteAfter h b cells = b := by
  induction cells generalizing b with
  | nil => rfl
  | cons c rest ih =>
    rw [byteAfter_cons, if_neg (hno c (by simp)), ih fun d hd => hno d (List.mem_cons_of_mem _ hd)]

/-- Writes of which one is to the byte decide it, whatever it was. -/
theorem byteAfter_written {h : Nat} {cells : List Host.Cell} (hex : ∃ c ∈ cells, c.1 = h) (b b' : Byte) :
    byteAfter h b cells = byteAfter h b' cells := by
  induction cells generalizing b b' with
  | nil => simp at hex
  | cons c rest ih =>
    by_cases hc : h = c.1
    · simp [hc]
    · obtain ⟨d, hd, hdh⟩ := hex
      rcases List.mem_cons.mp hd with rfl | hd
      · exact absurd hdh.symm hc
      · exact ih ⟨d, hd, hdh⟩ _ _

/-- The agent's writes before and after the access to a byte are, on that byte, all of its writes in their order (R31). -/
theorem byteAfter_before_after (n h i : Nat) (b : Byte) (cells : List Host.Cell) :
    byteAfter h (byteAfter h b (chosen (landsBefore n) i cells)) (chosen (fun i c => !landsBefore n i c) i cells)
      = byteAfter h b cells := by
  induction cells generalizing i b with
  | nil => rfl
  | cons c rest ih =>
    by_cases hl : landsBefore n i c = true
    · simpa [chosen, hl] using ih (i + 1) _
    · by_cases hc : h = c.1
      · have hlate : ∀ b, byteAfter h b (chosen (landsBefore n) (i + 1) rest) = b := by
          intro b
          have hi : ¬ i < Config.accessAfter n c.1 := by simpa [landsBefore] using hl
          have h0 : Config.accessAfter n c.1 - (i + 1) = 0 := by omega
          rw [byteAfter_before, hc, h0, List.take_zero, byteAfter_nil]
        have := ih (i + 1) c.2
        rw [hlate] at this
        simpa [chosen, hl, hlate, hc] using hc ▸ this
      · simpa [chosen, hl, hc] using ih (i + 1) b

end Sys2Proof.Machine
end

