-- ==== Sys2Proof/Laws/PerInstr.lean ====
section
/-! SUPPORT. The family `OpcodeBits`: the four bits {BUF, ENC, DBL, LE} of the operation code that requests an instruction
(R40), one lemma per constructor. -/

namespace Sys2Proof.Laws

/-- `BUF`: the operation goes through the Word Assembler to the buffer (R40). -/
def isBuffer : Instr → Bool
  | .dec32 _ | .dec64 _ _ | .enc32 _ | .enc64 _ => false
  | .readFloatBE _ _ | .readFloatLE _ _ | .readDoubleBE _ _ | .readDoubleLE _ _ => true
  | .writeFloatBE _ _ _ | .writeFloatLE _ _ _ | .writeDoubleBE _ _ _ | .writeDoubleLE _ _ _ => true

/-- `ENC`: value to bits (R40). -/
def isEncode : Instr → Bool
  | .dec32 _ | .dec64 _ _ | .readFloatBE _ _ | .readFloatLE _ _ | .readDoubleBE _ _ | .readDoubleLE _ _ => false
  | .enc32 _ | .enc64 _ => true
  | .writeFloatBE _ _ _ | .writeFloatLE _ _ _ | .writeDoubleBE _ _ _ | .writeDoubleLE _ _ _ => true

/-- `DBL`: binary64 (R40). -/
def isDouble : Instr → Bool
  | .dec32 _ | .enc32 _ | .readFloatBE _ _ | .readFloatLE _ _ | .writeFloatBE _ _ _ | .writeFloatLE _ _ _ => false
  | .dec64 _ _ | .enc64 _ | .readDoubleBE _ _ | .readDoubleLE _ _ | .writeDoubleBE _ _ _ | .writeDoubleLE _ _ _ => true

/-- `LE`: little-endian; 0 when `BUF = 0` (R40). -/
def isLittle : Instr → Bool
  | .dec32 _ | .dec64 _ _ | .enc32 _ | .enc64 _ => false
  | .readFloatBE _ _ | .readDoubleBE _ _ | .writeFloatBE _ _ _ | .writeDoubleBE _ _ _ => false
  | .readFloatLE _ _ | .readDoubleLE _ _ | .writeFloatLE _ _ _ | .writeDoubleLE _ _ _ => true

/-- The command that requests the instruction carries its four bits: bit 3 `BUF`, bit 2 `ENC`, bit 1 `DBL`, bit 0 `LE`. -/
def OpcodeBits.Statement (i : Instr) : Prop :=
  (encode i).op.toNat
    = (isBuffer i).toNat * 8 + (isEncode i).toNat * 4 + (isDouble i).toNat * 2 + (isLittle i).toNat

theorem OpcodeBits.dec32 (w : BitWord32) : OpcodeBits.Statement (.dec32 w) := rfl
theorem OpcodeBits.dec64 (hi lo : BitWord32) : OpcodeBits.Statement (.dec64 hi lo) := rfl
theorem OpcodeBits.enc32 (v : NV) : OpcodeBits.Statement (.enc32 v) := rfl
theorem OpcodeBits.enc64 (v : NV) : OpcodeBits.Statement (.enc64 v) := rfl
theorem OpcodeBits.readFloatBE (buf : Buffer) (offset : Int) : OpcodeBits.Statement (.readFloatBE buf offset) := rfl
theorem OpcodeBits.readFloatLE (buf : Buffer) (offset : Int) : OpcodeBits.Statement (.readFloatLE buf offset) := rfl
theorem OpcodeBits.readDoubleBE (buf : Buffer) (offset : Int) : OpcodeBits.Statement (.readDoubleBE buf offset) := rfl
theorem OpcodeBits.readDoubleLE (buf : Buffer) (offset : Int) : OpcodeBits.Statement (.readDoubleLE buf offset) := rfl
theorem OpcodeBits.writeFloatBE (buf : Buffer) (v : NV) (offset : Int) :
    OpcodeBits.Statement (.writeFloatBE buf v offset) := rfl
theorem OpcodeBits.writeFloatLE (buf : Buffer) (v : NV) (offset : Int) :
    OpcodeBits.Statement (.writeFloatLE buf v offset) := rfl
theorem OpcodeBits.writeDoubleBE (buf : Buffer) (v : NV) (offset : Int) :
    OpcodeBits.Statement (.writeDoubleBE buf v offset) := rfl
theorem OpcodeBits.writeDoubleLE (buf : Buffer) (v : NV) (offset : Int) :
    OpcodeBits.Statement (.writeDoubleLE buf v offset) := rfl

end Sys2Proof.Laws
end

