-- ==== Sys2Proof/Tests/Slice0.lean ====
section
/-! SUPPORT. Tests. Expected results come from spec/95_test_vectors.md (section and line named) or from the encodings of
spec/30_encoding.md, written out by hand. The second half shows, for each obligation with hypotheses, concrete inputs that
meet them. -/

namespace Sys2Proof.Tests

set_option Elab.async false

open Sys2Proof Sys2Proof.Machine

/-! ### Helpers -/

/-- The response a step leaves on the ports, if it gives a next state. -/
def response (o : Host.Outcome State Fault Refusal) : Option Response :=
  match o with
  | .next s => s.response
  | _ => none

/-- The first `n` bytes of the store after a step, if it gives a next state. -/
def bytes (n : Nat) (o : Host.Outcome State Fault Refusal) : Option (List Byte) :=
  match o with
  | .next s => some ((List.range n).map (Memory.read s.mem))
  | _ => none

/-- Why a step refuses, if it does. -/
def refusal (o : Host.Outcome State Fault Refusal) : Option Refusal :=
  match o with
  | .refused why => some why
  | _ => none

/-- The buffer of the source's vectors: 4 bytes at the start of the store. -/
def buf4 : Buffer := { base := 0, len := 4 }

/-- The 6-byte buffer of section 2.8. -/
def buf6 : Buffer := { base := 0, len := 6 }

/-- A command by its ports. -/
def portsOf (op : BitVec 4) (val : BitVec 68) (wHi wLo offset : BitVec 32) (buf : Buffer) : Request :=
  { op := op, val := val, wHi := wHi, wLo := wLo, offset := offset, buf := buf }

/-- One command waiting before the store `[0x3F, 0xC0, 0x00, 0x00]` of section 1.2. -/
def reading (r : Request) : State :=
  { State.reset with inputs := [.command r], mem := [(0, 0x3F#8), (1, 0xC0#8)] }

/-- One command waiting before a store of six bytes `0xAA` (section 2.8). -/
def writing (r : Request) : State :=
  { State.reset with
    inputs := [.command r]
    mem := [(0, 0xAA#8), (1, 0xAA#8), (2, 0xAA#8), (3, 0xAA#8), (4, 0xAA#8), (5, 0xAA#8)] }

/-- The carrier of 1.5 with the pair `(3, -1)` (section 2.5, "Carrier independence"). -/
def onePointFive : BitVec 68 := 0x5FFE0000000000003#68

/-! ### WellFormed: what a command cannot carry -/

theorem test_wf_offset_limits : Instr.wf (.readFloatBE buf4 (-2 ^ 31)) = true ∧
    Instr.wf (.readFloatBE buf4 (2 ^ 31 - 1)) = true := by decide
theorem test_illformed_readFloatBE : Instr.wf (.readFloatBE buf4 (2 ^ 31)) = false := by decide
theorem test_illformed_readFloatLE : Instr.wf (.readFloatLE buf4 (-2 ^ 31 - 1)) = false := by decide
theorem test_illformed_readDoubleBE : Instr.wf (.readDoubleBE buf4 (2 ^ 31)) = false := by decide
theorem test_illformed_readDoubleLE : Instr.wf (.readDoubleLE buf4 (-2 ^ 31 - 1)) = false := by decide
theorem test_illformed_writeFloatBE : Instr.wf (.writeFloatBE buf4 .nan (2 ^ 31)) = false := by decide
theorem test_illformed_writeFloatLE : Instr.wf (.writeFloatLE buf4 .nan (-2 ^ 31 - 1)) = false := by decide
theorem test_illformed_writeDoubleBE : Instr.wf (.writeDoubleBE buf4 .nan (2 ^ 31)) = false := by decide
theorem test_illformed_writeDoubleLE : Instr.wf (.writeDoubleLE buf4 .nan (-2 ^ 31 - 1)) = false := by decide

/-- `K = 0`, `2^1024`, and an odd multiple of `2^-1075` denote no `NV` (R39). -/
theorem test_illegal_carriers : readCarrier (packCarrier 1#2 0#1 0 0) = none ∧
    readCarrier (packCarrier 1#2 0#1 1024 1) = none ∧ readCarrier (packCarrier 1#2 0#1 (-1075) 1) = none := by
  decide +kernel

/-- The carriers of section 2.4, from their fields. -/
theorem test_carriers_written_out : packCarrier 1#2 0#1 (-23) 0xC00000 = 0x5FD20000000C00000#68 ∧
    packCarrier 1#2 0#1 (-149) 0xC03F = 0x5ED6000000000C03F#68 ∧ packCarrier 3#2 0#1 0 0 = 0xC0000000000000000#68 ∧
    packCarrier 2#2 0#1 0 0 = 0x80000000000000000#68 ∧ packCarrier 0#2 1#1 0 0 = 0x20000000000000000#68 := by decide

/-! ### Decode: each operation from its ports, by the opcode map (R41) -/

theorem test_decode_dec32 :
    decode (portsOf 0b0000#4 0#68 0x3FC00000#32 7#32 9#32 buf4) = .ok (.dec32 0x3FC00000#32) := by decide +kernel
theorem test_decode_dec64 :
    decode (portsOf 0b0010#4 0#68 0x3FF80000#32 7#32 9#32 buf4) = .ok (.dec64 0x3FF80000#32 7#32) := by decide +kernel
theorem test_decode_enc32 :
    decode (portsOf 0b0100#4 0x80000000000000000#68 1#32 7#32 9#32 buf4) = .ok (.enc32 (.inf 0#1)) := by decide +kernel
theorem test_decode_enc64 :
    decode (portsOf 0b0110#4 0xC0000000000000000#68 1#32 7#32 9#32 buf4) = .ok (.enc64 .nan) := by decide +kernel
theorem test_decode_readFloatBE :
    decode (portsOf 0b1000#4 0#68 1#32 7#32 0xFFFFFFFF#32 buf4) = .ok (.readFloatBE buf4 (-1)) := by decide +kernel
theorem test_decode_readFloatLE :
    decode (portsOf 0b1001#4 0#68 1#32 7#32 3#32 buf4) = .ok (.readFloatLE buf4 3) := by decide +kernel
theorem test_decode_readDoubleBE :
    decode (portsOf 0b1010#4 0#68 1#32 7#32 0x80000000#32 buf4) = .ok (.readDoubleBE buf4 (-2 ^ 31)) := by decide +kernel
theorem test_decode_readDoubleLE :
    decode (portsOf 0b1011#4 0#68 1#32 7#32 0x7FFFFFFF#32 buf4) = .ok (.readDoubleLE buf4 (2 ^ 31 - 1)) := by
  decide +kernel
theorem test_decode_writeFloatBE : decode (portsOf 0b1100#4 0x20000000000000000#68 1#32 7#32 0#32 buf6)
    = .ok (.writeFloatBE buf6 (.zero 1#1) 0) := by decide +kernel
theorem test_decode_writeFloatLE : decode (portsOf 0b1101#4 0xA0000000000000000#68 1#32 7#32 0xFFFFFFFE#32 buf6)
    = .ok (.writeFloatLE buf6 (.inf 1#1) (-2)) := by decide +kernel
theorem test_decode_writeDoubleBE : decode (portsOf 0b1110#4 0xC0000000000000000#68 1#32 7#32 8#32 buf6)
    = .ok (.writeDoubleBE buf6 .nan 8) := by decide +kernel
theorem test_decode_writeDoubleLE : decode (portsOf 0b1111#4 0#68 1#32 7#32 4#32 buf6)
    = .ok (.writeDoubleLE buf6 (.zero 0#1) 4) := by decide +kernel

/-- The numbering of log entry 13: `op` 9, `offset` -3 at bit 136, `LEN` 4 at bit 168, base 5 at bit 200. -/
theorem test_decode_table_word : decodeTableWord 208 (9 + 0xFFFFFFFD * 2 ^ 136 + 4 * 2 ^ 168 + 5 * 2 ^ 200)
    = some (.readFloatLE { base := 5, len := 4 } (-3)) := by decide +kernel

/-- The same for the value ports: `op` 2, `w_hi` at bit 72, `w_lo` at bit 104; and a carrier at bit 4. -/
theorem test_decode_table_word_values : decodeTableWord 136 (2 + 0xFFF00000 * 2 ^ 72 + 1 * 2 ^ 104)
      = some (.dec64 0xFFF00000#32 1#32) ∧
    decodeTableWord 72 (4 + 0x20000000000000000 * 2 ^ 4) = some (.enc32 (.zero 1#1)) := by decide +kernel

/-- Every code of the opcode map runs as the first instruction after reset, on ports that hold 0. -/
theorem test_runs_after_reset :
    [0, 2, 4, 6, 8, 9, 10, 11, 12, 13, 14, 15].all
      (fun op => (response (step (State.reset.withFetchWord 8 op))).isSome) = true := by decide +kernel

/-- The reserved codes (R43; spec/95 program 6). -/
theorem test_reserved_codes :
    [1, 3, 5, 7].all (fun op => refusal (step (State.reset.withFetchWord 8 op)) == some (.reservedOp (BitVec.ofNat 4 op)))
      = true := by decide +kernel

/-- An illegal value carrier is refused before anything is written (R97). -/
theorem test_illegal_value_refused :
    refusal (step (writing (portsOf 0b1100#4 0x40000000000000000#68 0#32 0#32 0#32 buf6)))
      = some (.noNumericValue 0x40000000000000000#68) := by decide +kernel

/-- R46: an omitted offset is 0. -/
theorem test_offset_omitted : offsetOperand none = 0 ∧ offsetOperand (some (-3)) = -3 := by decide

/-! ### Meanings -/

/-- 2.4, row `0x3FC00000`. -/
theorem test_dec32 : response (step (reading (portsOf 0b0000#4 0#68 0x3FC00000#32 0#32 0#32 buf4)))
    = some (.value 0x5FD20000000C00000#68) := by decide +kernel
/-- 2.4, row `0xFFC00000`: "the same `NaN`; the sign is dropped". -/
theorem test_dec32_nan_sign : response (step (reading (portsOf 0b0000#4 0#68 0xFFC00000#32 0#32 0#32 buf4)))
    = some (.value 0xC0000000000000000#68) := by decide +kernel
/-- 2.6, row `0x000FFFFF 0xFFFFFFFF`, the largest subnormal. -/
theorem test_dec64_subnormal : response (step (reading (portsOf 0b0010#4 0#68 0x000FFFFF#32 0xFFFFFFFF#32 0#32 buf4)))
    = some (.value (packCarrier 1#2 0#1 (-1074) 4503599627370495)) := by decide +kernel
/-- 2.6, row `0x7FF00000 0x00000001`: "the non-zero mantissa is in `LO` only". -/
theorem test_dec64_nan_in_lo : response (step (reading (portsOf 0b0010#4 0#68 0x7FF00000#32 1#32 0#32 buf4)))
    = some (.value 0xC0000000000000000#68) := by decide +kernel
/-- 1.1, the tie vector `(2^24 - 1) * 2^-150`. -/
theorem test_enc32_tie_vector :
    response (step (reading (portsOf 0b0100#4 (packCarrier 1#2 0#1 (-150) 16777215) 0#32 0#32 0#32 buf4)))
      = some (.word 0x00800000#32) := by decide +kernel
/-- 2.5, row `(2 - 2^-24) * 2^127`: carry, then overflow. -/
theorem test_enc32_carry_to_infinity :
    response (step (reading (portsOf 0b0100#4 (packCarrier 1#2 0#1 103 0x1FFFFFF) 0#32 0#32 0#32 buf4)))
      = some (.word 0x7F800000#32) := by decide +kernel
/-- 2.7, row 123456.789, sign 1. -/
theorem test_enc64 :
    response (step (reading (portsOf 0b0110#4 (packCarrier 1#2 1#1 (-36) 0x1E240C9FBE76C9) 0#32 0#32 0#32 buf4)))
      = some (.wordPair 0xC0FE240C#32 0x9FBE76C9#32) := by decide +kernel
/-- 2.7, row `3 * 2^-1074`. -/
theorem test_enc64_subnormal :
    response (step (reading (portsOf 0b0110#4 (packCarrier 1#2 0#1 (-1074) 3) 0#32 0#32 0#32 buf4)))
      = some (.wordPair 0#32 3#32) := by decide +kernel
/-- 2.8, offset 1: -2.0, with one byte filled. -/
theorem test_readFloatBE_across_the_end :
    response (step (reading (portsOf 0b1000#4 0#68 0#32 0#32 1#32 buf4)))
      = some (.value (packCarrier 1#2 1#1 (-22) 8388608)) := by decide +kernel
/-- 2.8, offset -3: 0.5. -/
theorem test_readFloatLE_before_the_start :
    response (step (reading (portsOf 0b1001#4 0#68 0#32 0#32 0xFFFFFFFD#32 buf4)))
      = some (.value (packCarrier 1#2 0#1 (-24) 8388608)) := by decide +kernel
/-- 2.8, `readDoubleBE(buf, 0)`: 0.125. -/
theorem test_readDoubleBE :
    response (step (reading (portsOf 0b1010#4 0#68 0#32 0#32 0#32 buf4)))
      = some (.value (packCarrier 1#2 0#1 (-55) 4503599627370496)) := by decide +kernel
/-- 2.8, `readDoubleLE(buf, -4)`: `211376815472640 * 2^-1074`. -/
theorem test_readDoubleLE :
    response (step (reading (portsOf 0b1011#4 0#68 0#32 0#32 0xFFFFFFFC#32 buf4)))
      = some (.value (packCarrier 1#2 0#1 (-1074) 211376815472640)) := by decide +kernel
/-- 2.8, `writeFloatBE(buf, 1.5, 4)`: two bytes skipped. -/
theorem test_writeFloatBE : bytes 7 (step (writing (portsOf 0b1100#4 onePointFive 0#32 0#32 4#32 buf6)))
    = some [0xAA#8, 0xAA#8, 0xAA#8, 0xAA#8, 0x3F#8, 0xC0#8, 0x00#8] := by decide +kernel
/-- 2.8, `writeFloatLE(buf, 1.5, 0)`. -/
theorem test_writeFloatLE : bytes 6 (step (writing (portsOf 0b1101#4 onePointFive 0#32 0#32 0#32 buf6)))
    = some [0x00#8, 0x00#8, 0xC0#8, 0x3F#8, 0xAA#8, 0xAA#8] := by decide +kernel
/-- 2.8, `writeDoubleBE(buf, NaN, 0)`. -/
theorem test_writeDoubleBE_nan :
    bytes 8 (step (writing (portsOf 0b1110#4 0xE0000000000000000#68 0#32 0#32 0#32 buf6)))
      = some [0x7F#8, 0xF8#8, 0x00#8, 0x00#8, 0x00#8, 0x00#8, 0x00#8, 0x00#8] := by decide +kernel
/-- 2.8, `writeDoubleLE(buf, 1.5, -2)`. -/
theorem test_writeDoubleLE : bytes 6 (step (writing (portsOf 0b1111#4 onePointFive 0#32 0#32 0xFFFFFFFE#32 buf6)))
    = some [0x00#8, 0x00#8, 0x00#8, 0x00#8, 0xF8#8, 0x3F#8] := by decide +kernel

/-- 2.2: the staged procedure at the two ends of `F64pos` and at the tie vector. -/
theorem test_staged_normalizer : normalFormStaged (POW2 (-1074)) = (-1074, 1) ∧
    normalFormStaged (9007199254740991 * POW2 971) = (1023, 0x1FFFFFFFFFFFFF / 2 ^ 52) ∧
    normalFormStaged (16777215 * POW2 (-150)) = (-127, 0x1FFFFFE0000000 / 2 ^ 52) := by decide +kernel

/-- 2.3: the ties `3 * 2^-24` (up), `5 * 2^-24` (down) and `2 - 2^-24` (up). -/
theorem test_round_ties : roundToScale (3 * POW2 (-24)) 23 = 2 ∧ roundToScale (5 * POW2 (-24)) 23 = 2 ∧
    roundToScale (2 - POW2 (-24)) 23 = 16777216 := by decide +kernel

/-- An operation that reset cuts short gives no response (R106). -/
theorem test_cut_gives_no_response : response (step { State.reset with
    inputs := [.cutCommand (portsOf 0b0000#4 0#68 0#32 0#32 0#32 buf4)], response := some .completed }) = none := rfl

/-! ### Witnesses: concrete inputs that meet the hypotheses of the obligations -/

/-- The magnitude `K * 2^q`. -/
def mag (K : Nat) (q : Int) (h : 1 ≤ K ∧ K < 2 ^ 53 ∧ -1074 ≤ q ∧ q ≤ 971) : F64pos :=
  ⟨K * (2 : ℚ) ^ q, K, q, h.1, h.2.1, h.2.2.1, h.2.2.2, rfl⟩

/-- The magnitude 1. -/
def unit : F64pos := mag 1 0 (by decide)

theorem f32pos_one : F32pos unit.val :=
  .inl ⟨127, 0, by norm_num, by norm_num, by norm_num, by norm_num [unit, mag]⟩

theorem witness_Pow2EntriesAreExactPowers :
    (Config.pow2Min ≤ -1074 ∧ -1074 ≤ Config.pow2Max) ∧ (Config.pow2Min ≤ 1023 ∧ 1023 ≤ Config.pow2Max) := by decide

theorem witness_F64posIsTheSetOfBinary64Magnitudes : InF64pos unit.val := unit.2

theorem witness_NormalFormIsTheUniquePair : (0 : ℚ) < 3 ∧ (1 : ℚ) ≤ 3 / 2 ∧ (3 / 2 : ℚ) < 2 ∧ (3 : ℚ) = 3 / 2 * 2 ^ (1 : Int) := by
  norm_num

theorem witness_NormalFormRangesOverF64pos : ∃ x : F64pos, x.val = 1 := ⟨unit, by norm_num [unit, mag]⟩

theorem witness_StagedNormalizerComputesTheNormalForm : ∃ x : F64pos, x.val = 1 := ⟨unit, by norm_num [unit, mag]⟩

theorem witness_NormalFormIsALeadingZeroCount :
    (1 ≤ 1 ∧ 1 < 2 ^ 53) ∧ (1 ≤ 2 ^ 53 - 1 ∧ 2 ^ 53 - 1 < 2 ^ 53) := by decide

/-- One `(f, k)` for each clause: above half, below half, tie with an even and with an odd floor, exact. -/
theorem witness_RoundGoesToTheNearestTiesToEven :
    ((3 / 4 : ℚ) * 2 ^ 0 - (⌊(3 / 4 : ℚ) * 2 ^ 0⌋₊ : ℚ) > 1 / 2) ∧
    ((1 / 4 : ℚ) * 2 ^ 0 - (⌊(1 / 4 : ℚ) * 2 ^ 0⌋₊ : ℚ) < 1 / 2) ∧
    ((1 / 4 : ℚ) * 2 ^ 1 - (⌊(1 / 4 : ℚ) * 2 ^ 1⌋₊ : ℚ) = 1 / 2 ∧ ⌊(1 / 4 : ℚ) * 2 ^ 1⌋₊ % 2 = 0) ∧
    ((3 / 4 : ℚ) * 2 ^ 1 - (⌊(3 / 4 : ℚ) * 2 ^ 1⌋₊ : ℚ) = 1 / 2 ∧ ⌊(3 / 4 : ℚ) * 2 ^ 1⌋₊ % 2 = 1) ∧
    ((3 / 4 : ℚ) * 2 ^ 2 = (3 : Nat)) := by decide +kernel

theorem witness_RoundRangeAndCarry : ((0 : ℚ) ≤ 1 - 2 ^ (-24 : Int) ∧ (1 - 2 ^ (-24 : Int) : ℚ) < 1 ∧ 0 < 23) ∧
    ((0 : ℚ) ≤ 1 / 2 ∧ (1 / 2 : ℚ) < 1) ∧ ((0 : ℚ) ≤ 3 / 2 ∧ (3 / 2 : ℚ) < 2) := by norm_num

/-- A mantissa for the first clause; then for the three branches of R70 a magnitude of each format at an end of its range:
`be = 1`, `be = 0` and `be = uf + 1`, `be = uf` (which only binary32 has over `F64pos`). -/
theorem witness_EncoderRoundsFractionsBelowOne : ((1 : ℚ) ≤ 1 ∧ (1 : ℚ) < 2) ∧
    (normalForm (mag 1 (-126) (by decide)).val).1 + binary32.bias = 1 ∧
    (normalForm (mag 1 (-1022) (by decide)).val).1 + binary64.bias = 1 ∧
    (normalForm (mag 1 (-127) (by decide)).val).1 + binary32.bias = 0 ∧
    (normalForm (mag 1 (-150) (by decide)).val).1 + binary32.bias = binary32.uf + 1 ∧
    (normalForm (mag 1 (-1074) (by decide)).val).1 + binary64.bias = binary64.uf + 1 ∧
    (normalForm (mag 1 (-151) (by decide)).val).1 + binary32.bias = binary32.uf := by decide +kernel

/-- One word for each case of R66: zero, subnormal, infinity, NaN, and the two ends of the normal range. -/
theorem witness_Dec32AnswersTheValueOfTheWord :
    ((0x80000000#32).toNat / 2 ^ 23 % 2 ^ 8 = 0 ∧ (0x80000000#32).toNat % 2 ^ 23 = 0) ∧
    ((0x007FFFFF#32).toNat / 2 ^ 23 % 2 ^ 8 = 0 ∧ (0x007FFFFF#32).toNat % 2 ^ 23 ≠ 0) ∧
    ((0xFF800000#32).toNat / 2 ^ 23 % 2 ^ 8 = 255 ∧ (0xFF800000#32).toNat % 2 ^ 23 = 0) ∧
    ((0x7F800001#32).toNat / 2 ^ 23 % 2 ^ 8 = 255 ∧ (0x7F800001#32).toNat % 2 ^ 23 ≠ 0) ∧
    (0x00800000#32).toNat / 2 ^ 23 % 2 ^ 8 = 1 ∧ (0x7F7FFFFF#32).toNat / 2 ^ 23 % 2 ^ 8 = 254 := by decide

/-- One pair for each case of R76. -/
theorem witness_Dec64AnswersTheValueOfThePair :
    ((0x80000000#32).toNat / 2 ^ 20 % 2 ^ 11 = 0 ∧ mantissa64 0x80000000#32 0#32 = 0) ∧
    ((0x00000000#32).toNat / 2 ^ 20 % 2 ^ 11 = 0 ∧ mantissa64 0#32 1#32 ≠ 0) ∧
    ((0xFFF00000#32).toNat / 2 ^ 20 % 2 ^ 11 = 2047 ∧ mantissa64 0xFFF00000#32 0#32 = 0) ∧
    ((0x7FF00000#32).toNat / 2 ^ 20 % 2 ^ 11 = 2047 ∧ mantissa64 0x7FF00000#32 1#32 ≠ 0) ∧
    (0x00100000#32).toNat / 2 ^ 20 % 2 ^ 11 = 1 ∧ (0x7FEFFFFF#32).toNat / 2 ^ 20 % 2 ^ 11 = 2046 := by decide

theorem nan_patterns : ¬ NaNPattern32 0x7F800000#32 ∧ ¬ NaNPattern32 0#32 ∧ NaNPattern32 0x7F800001#32 ∧
    ¬ NaNPattern64 0x7FF00000#32 0#32 ∧ NaNPattern64 0x7FF00000#32 1#32 := by
  unfold NaNPattern32 NaNPattern64; decide

theorem witness_Dec32IsInjectiveOntoItsImage : ¬ NaNPattern32 0x7F800000#32 ∧ F32pos unit.val :=
  ⟨nan_patterns.1, f32pos_one⟩

theorem witness_Dec64IsInjectiveOntoNV : ¬ NaNPattern64 0x7FF00000#32 0#32 ∧
    dec64 0x7FF00000#32 0#32 = dec64 0x7FF00000#32 0#32 := ⟨nan_patterns.2.2.2.1, rfl⟩

theorem witness_Enc32AnswersTheAssembledWord : finenc binary32 (mag 1 (-1074) (by decide)).val = (0, 0) ∧
    (finenc binary32 (mag 1 128 (by decide)).val).1 = 255 := by decide +kernel

theorem witness_Enc64AnswersTheSplitPair : ∃ sg x, NV.fin 1#1 unit = .fin sg x := ⟨_, _, rfl⟩

/-- One magnitude for each row of the table of R71, at a boundary of the row where it has one. -/
theorem witness_FinencCasesForBinary32 : (normalForm (mag 1 (-151) (by decide)).val).1 + 127 ≤ -24 ∧
    (mag 1 (-151) (by decide)).val < (2 : ℚ) ^ (-150 : Int) ∧
    (mag 1 (-150) (by decide)).val = (2 : ℚ) ^ (-150 : Int) ∧
    ((2 : ℚ) ^ (-150 : Int) < (mag 3 (-151) (by decide)).val ∧ (mag 3 (-151) (by decide)).val < (2 : ℚ) ^ (-149 : Int)) ∧
    ((2 : ℚ) ^ (-149 : Int) ≤ (mag 1 (-149) (by decide)).val ∧
      roundHalfEven ((mag 1 (-149) (by decide)).val * 2 ^ 149) < 2 ^ 23) ∧
    ((2 ^ 23 - 1 / 2) * (2 : ℚ) ^ (-149 : Int) ≤ (mag 16777215 (-150) (by decide)).val ∧
      (mag 16777215 (-150) (by decide)).val < (2 : ℚ) ^ (-126 : Int)) ∧
    ((2 : ℚ) ^ (-126 : Int) ≤ unit.val ∧ (normalForm unit.val).1 + 127 ≤ 254 ∧
      (normalForm unit.val).2 < 2 - (2 : ℚ) ^ (-24 : Int)) ∧
    ((2 : ℚ) ^ (-126 : Int) ≤ (mag 0x1FFFFFF (-24) (by decide)).val ∧
      (normalForm (mag 0x1FFFFFF (-24) (by decide)).val).1 + 127 ≤ 253 ∧
      2 - (2 : ℚ) ^ (-24 : Int) ≤ (normalForm (mag 0x1FFFFFF (-24) (by decide)).val).2) ∧
    ((normalForm (mag 0x1FFFFFF 103 (by decide)).val).1 + 127 = 254 ∧
      2 - (2 : ℚ) ^ (-24 : Int) ≤ (normalForm (mag 0x1FFFFFF 103 (by decide)).val).2) ∧
    (2 - (2 : ℚ) ^ (-24 : Int)) * (2 : ℚ) ^ (127 : Int) ≤ (mag 0x1FFFFFF 103 (by decide)).val ∧
    (2 : ℚ) ^ (128 : Int) ≤ (mag 1 128 (by decide)).val := by decide +kernel

theorem witness_FinencIsExactForBinary64 : (mag 1 (-1074) (by decide)).val < (2 : ℚ) ^ (-1022 : Int) ∧
    (2 : ℚ) ^ (-1022 : Int) ≤ (mag 1 (-1022) (by decide)).val := by decide +kernel

theorem witness_Enc32UndoesDec32 : ¬ NaNPattern32 0#32 ∧ NaNPattern32 0x7F800001#32 := ⟨nan_patterns.2.1, nan_patterns.2.2.1⟩

theorem witness_Dec32UndoesEnc32OnRepresentableValues : ∀ s x, NV.fin 0#1 unit = .fin s x → F32pos x.val := by
  intro s x h
  obtain ⟨-, rfl⟩ := NV.fin.inj h
  exact f32pos_one

/-- The tie at `2^-150`: the words 1 and 0 are equally near, and 0 is the word `ENC32` gives. -/
theorem witness_Enc32IsNearestTiesToEven : ¬ NaNPattern32 1#32 ∧ signBit 1#32 = 0#1 ∧
    enc32 (.fin 0#1 (mag 1 (-150) (by decide))) = 0#32 ∧
    |magnitude32 (dec32 1#32) - (mag 1 (-150) (by decide)).val| = |magnitude32 (dec32 0#32) - (mag 1 (-150) (by decide)).val| := by
  refine ⟨?_, ?_, ?_, ?_⟩
  · unfold NaNPattern32; decide
  · decide
  · decide +kernel
  · decide +kernel

theorem witness_Enc32IsMonotone : unit.val ≤ (mag 1 1 (by decide)).val := by decide +kernel

theorem witness_Enc64AndDec64AreInverse : ¬ NaNPattern64 0x7FF00000#32 0#32 ∧ NaNPattern64 0x7FF00000#32 1#32 :=
  ⟨nan_patterns.2.2.2.1, nan_patterns.2.2.2.2⟩

theorem witness_EncodersProduceOnlyTheCanonicalNaN : NaNPattern32 (enc32 .nan) ∧
    NaNPattern64 (enc64 .nan).1 (enc64 .nan).2 ∧ (portsOf 0#4 0#68 1#32 2#32 0#32 buf4).op = 0#4 ∧
    (portsOf 2#4 0#68 1#32 2#32 0#32 buf4).op = 2#4 := by
  unfold NaNPattern32 NaNPattern64; decide +kernel

/-- A carrier of each class; of class 1 one that denotes a value, `1 * 2^0`, and one that does not, `K = 0`. -/
theorem witness_CarrierReadsAsItsClassSays : carrierClass 0x20000000000000000#68 = 0#2 ∧
    carrierClass 0x80000000000000000#68 = 2#2 ∧ carrierClass 0xC0000000000000000#68 = 3#2 ∧
    (carrierClass 0x40000000000000001#68 = 1#2 ∧ DenotesFinite 0x40000000000000001#68) ∧
    (carrierClass 0x40000000000000000#68 = 1#2 ∧ ¬ DenotesFinite 0x40000000000000000#68) := by
  refine ⟨by decide, by decide, by decide, ⟨by decide, by decide, 1, 0, by decide, by decide, by decide, by decide, ?_⟩,
    by decide, fun h => h.1 (by decide)⟩
  decide +kernel

/-- `2 * 2^-1` and `1 * 2^0`. -/
theorem witness_CarrierPairDoesNotMatter :
    carrierClass 0x5FFE0000000000002#68 = 1#2 ∧ carrierClass 0x40000000000000001#68 = 1#2 ∧
    carrierSign 0x5FFE0000000000002#68 = carrierSign 0x40000000000000001#68 ∧
    (carrierSig 0x5FFE0000000000002#68 : ℚ) * (2 : ℚ) ^ carrierExp 0x5FFE0000000000002#68
      = carrierSig 0x40000000000000001#68 * (2 : ℚ) ^ carrierExp 0x40000000000000001#68 := by decide +kernel

theorem witness_ResultCarriersAreCanonical :
    (0 < (0x7F7FFFFF#32).toNat / 2 ^ 23 % 2 ^ 8 ∧ (0x7F7FFFFF#32).toNat / 2 ^ 23 % 2 ^ 8 < 255) ∧
    ((1#32).toNat / 2 ^ 23 % 2 ^ 8 = 0 ∧ (1#32).toNat % 2 ^ 23 ≠ 0) ∧
    (0 < (0x00100000#32).toNat / 2 ^ 20 % 2 ^ 11 ∧ (0x00100000#32).toNat / 2 ^ 20 % 2 ^ 11 < 2047) ∧
    ((0#32).toNat / 2 ^ 20 % 2 ^ 11 = 0 ∧ mantissa64 0#32 1#32 ≠ 0) := by decide

theorem witness_DecodeUndoesEncode : Instr.wf (.writeDoubleLE buf6 (.fin 1#1 unit) (-2 ^ 31)) = true ∧
    Instr.wf (.writeDoubleLE buf6 (.fin 1#1 unit) (2 ^ 31 - 1)) = true := by decide

/-- Two commands that differ in every port the operation does not read, for each clause. -/
theorem witness_UnusedOperandFieldsAreIgnored :
    ((portsOf 0#4 1#68 5#32 1#32 1#32 buf4).op.toNat = 0 ∧ (portsOf 0#4 2#68 5#32 2#32 2#32 buf6).wHi = 5#32) ∧
    (portsOf 2#4 1#68 5#32 6#32 1#32 buf4).op.toNat = 2 ∧ (portsOf 6#4 1#68 5#32 6#32 1#32 buf4).op.toNat = 6 ∧
    (8 ≤ (portsOf 8#4 1#68 5#32 6#32 1#32 buf4).op.toNat ∧ (portsOf 11#4 1#68 5#32 6#32 1#32 buf4).op.toNat ≤ 11) ∧
    12 ≤ (portsOf 12#4 1#68 5#32 6#32 1#32 buf4).op.toNat := by decide

theorem witness_ReservedCodesAreRefused :
    (reading (portsOf 7#4 0#68 0#32 0#32 0#32 buf4)).inputs = .command (portsOf 7#4 0#68 0#32 0#32 0#32 buf4) :: [] := rfl

theorem witness_MemReadFillsWithZero : ((0 : Int) ≤ 3 ∧ (3 : Int) < buf4.len) ∧ (-1 : Int) < 0 ∧ (buf4.len : Int) ≤ 4 := by
  decide

theorem witness_MemWriteSkipsOutOfRange : Memory.wf [(0, 0x3F#8), (1, 0xC0#8)] = true ∧
    ((0 : Int) ≤ 0 ∧ (0 : Int) < buf4.len) ∧ (-1 : Int) < 0 ∧ (buf4.len : Int) ≤ 4 := by decide

/-- A write with its byte writes reversed, and an operation without byte writes. -/
theorem witness_OrderOfByteWritesDoesNotMatter : State.reset.Inv ∧
    Instr.stores (.writeFloatBE buf4 .nan 0) = some (buf4, unpackw 0 (enc32 .nan) .be) ∧
    (unpackw 0 (enc32 .nan) .be).reverse.Perm (unpackw 0 (enc32 .nan) .be) ∧
    Instr.stores (.readFloatBE buf4 0) = none := ⟨rfl, rfl, List.reverse_perm _, rfl⟩

theorem outside : OutOfBounds buf4 (-4) 4 ∧ OutOfBounds buf4 4 8 := by
  constructor <;> intro i _ <;> simp only [Buffer.Valid, buf4, effectiveAddress] <;> omega

theorem inside : InBounds { base := 0, len := 8 } 4 4 ∧ InBounds { base := 0, len := 8 } 0 8 := by
  constructor <;> constructor <;> decide

theorem witness_PackIsTheIntegerOfTheWindow : OutOfBounds buf4 (-4) 4 := outside.1

theorem witness_UnpackWritesTheImage : Memory.wf [(0, 0xAA#8)] = true := rfl

theorem witness_PackAndUnpackAreInverse : Memory.wf [(0, 0xAA#8)] = true ∧ InBounds { base := 0, len := 8 } 4 4 ∧
    InBounds { base := 0, len := 8 } 0 8 := ⟨rfl, inside⟩

theorem witness_WriteFloatStoresTheEncodedWord : (writing (portsOf 0#4 0#68 0#32 0#32 0#32 buf6)).Inv := rfl

theorem witness_WriteDoubleStoresTheEncodedPair : (writing (portsOf 0#4 0#68 0#32 0#32 0#32 buf6)).Inv := rfl

theorem witness_OutOfBoundsReadsZeroAndWritesNothing : OutOfBounds buf4 (-4) 4 ∧ OutOfBounds buf4 4 8 := outside

theorem witness_ReadAfterWriteReturnsTheValue : (writing (portsOf 0#4 0#68 0#32 0#32 0#32 buf6)).Inv ∧
    InBounds { base := 0, len := 8 } 0 8 ∧ InBounds { base := 0, len := 8 } 4 4 ∧
    ∀ s x, NV.fin 0#1 unit = .fin s x → F32pos x.val :=
  ⟨rfl, inside.2, inside.1, witness_Dec32UndoesEnc32OnRepresentableValues⟩

theorem witness_ReadInTheOtherOrderReversesTheBytes : (writing (portsOf 0#4 0#68 0#32 0#32 0#32 buf6)).Inv ∧
    InBounds { base := 0, len := 8 } 4 4 ∧ InBounds { base := 0, len := 8 } 0 8 := ⟨rfl, inside⟩

theorem witness_BoundaryReadsFillPerByte :
    (reading (portsOf 0#4 0#68 0#32 0#32 0#32 buf4)).mem = [(0, 0x3F#8), (1, 0xC0#8)] := rfl

theorem touches_iff_none (h : Nat) (w : BitWord32) : ¬ Instr.Touches (.dec32 w) h := by
  rintro ⟨_, _, _, hw, -⟩
  cases hw

/-- A write whose window ends before byte 5, and an operation without stores. -/
theorem witness_InstructionsChangeOnlyTheirWindow : State.reset.Inv ∧
    (∃ t, exec (.writeFloatBE buf6 .nan 0) State.reset = .next t) ∧ ¬ Instr.Touches (.writeFloatBE buf6 .nan 0) 5 ∧
    Instr.stores (.readFloatBE buf4 0) = none := by
  refine ⟨rfl, ⟨_, rfl⟩, ?_, rfl⟩
  rintro ⟨buf, offset, n, hw, k, hk, -, h⟩
  cases hw
  simp only [Buffer.cell, buf6, effectiveAddress] at h
  omega

/-- Two stores that differ outside the window: `readFloatBE` of the first four bytes, and a byte at 9. -/
theorem witness_ResultsDependOnlyOnOperandsAndWindow : State.reset.Inv ∧
    State.Inv { State.reset with mem := [(9, 1#8)] } ∧
    (∀ h : Nat, Instr.Touches (.readFloatBE buf4 0) h → Memory.read State.reset.mem h = Memory.read [(9, 1#8)] h) ∧
    (∃ t, exec (.readFloatBE buf4 0) State.reset = .next t) ∧
    ∃ t, exec (.readFloatBE buf4 0) { State.reset with mem := [(9, 1#8)] } = .next t := by
  refine ⟨rfl, rfl, ?_, ⟨_, rfl⟩, ⟨_, rfl⟩⟩
  rintro h ⟨buf, offset, n, hw, k, hk, -, rfl⟩
  cases hw
  have : ¬ 9 = Buffer.cell buf4 (effectiveAddress 0 k) := by
    simp only [Buffer.cell, buf4, effectiveAddress]; omega
  simp [State.reset, Memory.read, this]

theorem witness_StepRunsTheDecodedInstruction :
    (reading (portsOf 0b0000#4 0#68 0x3FC00000#32 7#32 9#32 buf4)).inputs
      = .command (portsOf 0b0000#4 0#68 0x3FC00000#32 7#32 9#32 buf4) :: [] ∧
    decode (portsOf 0b0000#4 0#68 0x3FC00000#32 7#32 9#32 buf4) = .ok (.dec32 0x3FC00000#32) ∧
    State.reset.inputs = [] ∧ decodeTableWord 8 0 = some (.dec32 0#32) := by decide +kernel

theorem witness_EveryServableCommandIsAnswered :
    (reading (portsOf 0b0000#4 0#68 1#32 7#32 9#32 buf4)).inputs = .command (portsOf 0b0000#4 0#68 1#32 7#32 9#32 buf4) :: [] ∧
    decode (portsOf 0b0000#4 0#68 1#32 7#32 9#32 buf4) = .ok (.dec32 1#32) := by decide +kernel

theorem witness_EveryStepKeepsTheStoreCanonical :
    (writing (portsOf 0b1100#4 onePointFive 0#32 0#32 4#32 buf6)).Inv ∧
    ∃ t, step (writing (portsOf 0b1000#4 0#68 0#32 0#32 4#32 buf6)) = .next t := ⟨rfl, _, rfl⟩

theorem witness_SafeStatesAlwaysStepToSafeStates : (writing (portsOf 0b1000#4 0#68 0#32 0#32 4#32 buf6)).Safe := by
  refine ⟨rfl, fun input h => ?_⟩
  obtain rfl := List.mem_singleton.mp h
  exact ⟨_, rfl⟩

theorem witness_ResetLeavesOldOrNewBytes : State.reset.Inv ∧
    ({ State.reset with inputs := [.reset] } : State).inputs = .reset :: [] ∧
    decode (portsOf 0b1101#4 0xA0000000000000000#68 1#32 7#32 0xFFFFFFFE#32 buf6)
      = .ok (.writeFloatLE buf6 (.inf 1#1) (-2)) ∧
    ∃ s : State, s.Inv ∧
      s.inputs = .cutCommand (portsOf 0b1101#4 0xA0000000000000000#68 1#32 7#32 0xFFFFFFFE#32 buf6) :: [] :=
  ⟨rfl, rfl, test_decode_writeFloatLE, { State.reset with inputs := [.cutCommand _] }, rfl, rfl⟩

/-- A race of a write to bytes 0 and 1 of its buffer with two agent writes to byte 0, which it writes, and one to byte 5,
which it does not touch; and the read of the same bytes, which writes none. -/
theorem witness_RacedOperationsMixBytewise :
    (∃ s : State, s.Inv ∧ s.inputs = .racedCommand
      (portsOf 0b1101#4 0xA0000000000000000#68 1#32 7#32 0xFFFFFFFE#32 buf6) [(0, 7#8), (5, 8#8), (0, 9#8)] :: []) ∧
    decode (portsOf 0b1101#4 0xA0000000000000000#68 1#32 7#32 0xFFFFFFFE#32 buf6)
      = .ok (.writeFloatLE buf6 (.inf 1#1) (-2)) ∧
    (Instr.stores (.writeFloatLE buf6 (.inf 1#1) (-2)) ≠ none ∧ Instr.Touches (.writeFloatLE buf6 (.inf 1#1) (-2)) 0) ∧
    ¬ Instr.Touches (.writeFloatLE buf6 (.inf 1#1) (-2)) 5 ∧
    Instr.stores (.readFloatLE buf6 (-2)) = none ∧
    ∃ c ∈ ([(0, 7#8), (5, 8#8), (0, 9#8)] : List Host.Cell), c.1 = 0 := by
  refine ⟨⟨{ State.reset with inputs := [.racedCommand _ _] }, rfl, rfl⟩, test_decode_writeFloatLE,
    ⟨by simp [Instr.stores], buf6, -2, 4, rfl, 2, by decide, by decide, rfl⟩, ?_, rfl, (0, 7#8), by decide, rfl⟩
  rintro ⟨buf, offset, n, hw, k, hk, -, h⟩
  cases hw
  simp only [Buffer.cell, buf6, effectiveAddress] at h
  omega

theorem witness_AgentWriteChangesOneByte : State.reset.Inv ∧
    ({ State.reset with inputs := [.agentWrite 3 7#8] } : State).inputs = .agentWrite 3 7#8 :: [] := ⟨rfl, rfl⟩

end Sys2Proof.Tests
end

section
/-! PROOFS. The set `F64pos` (R17): each magnitude `K * 2^q` is the one of a normal or of a subnormal binary64 pattern, and
the other way round; its least and its greatest element. -/

namespace Sys2Proof.Machine

/-! ### One magnitude, two pairs -/

/-- Factors of two move from the power into the integer. -/
theorem natCast_mul_zpow_eq_shift (K d : Nat) (q : Int) :
    (K : ℚ) * 2 ^ q = ((K * 2 ^ d : Nat) : ℚ) * 2 ^ (q - d) := by
  have hsplit : (2 : ℚ) ^ q = 2 ^ d * 2 ^ (q - d) := by
    rw [← zpow_natCast, ← zpow_add₀ two_ne_zero, add_sub_cancel]
  rw [hsplit, Nat.cast_mul, Nat.cast_pow, Nat.cast_ofNat, mul_assoc]

/-- Shifted until its top bit is bit 52, an integer of at most 53 bits has exactly 53 bits. -/
theorem shift_to_bit52_bounds {K : Nat} (h0 : K ≠ 0) (hK : K < 2 ^ 53) :
    2 ^ 52 ≤ K * 2 ^ (52 - Nat.log2 K) ∧ K * 2 ^ (52 - Nat.log2 K) < 2 ^ 53 := by
  have hl : Nat.log2 K < 53 := (Nat.log2_lt h0).mpr hK
  constructor
  · calc 2 ^ 52 = 2 ^ Nat.log2 K * 2 ^ (52 - Nat.log2 K) := by rw [← pow_add]; congr 1; omega
      _ ≤ K * 2 ^ (52 - Nat.log2 K) := Nat.mul_le_mul_right _ (Nat.log2_self_le h0)
  · calc K * 2 ^ (52 - Nat.log2 K) < 2 ^ (Nat.log2 K + 1) * 2 ^ (52 - Nat.log2 K) :=
          Nat.mul_lt_mul_of_pos_right Nat.lt_log2_self (by positivity)
      _ = 2 ^ 53 := by rw [← pow_add]; congr 1; omega

/-! ### The two set expressions -/

/-- The magnitude `(2^52 + f) * 2^(E - 1075)` of a normal pattern is in `F64pos` (R17). -/
theorem inF64pos_of_normal {E f : Nat} (hE : 1 ≤ E) (hE' : E ≤ 2046) (hf : f < 2 ^ 52) :
    InF64pos ((2 ^ 52 + f) * (2 : ℚ) ^ ((E : Int) - 1075)) :=
  ⟨2 ^ 52 + f, E - 1075, by omega, by omega, by omega, by omega, by push_cast; rfl⟩

/-- The magnitude `f * 2^(-1074)` of a subnormal pattern is in `F64pos` (R17). -/
theorem inF64pos_of_subnormal {f : Nat} (hf : 1 ≤ f) (hf' : f < 2 ^ 52) :
    InF64pos (f * (2 : ℚ) ^ (-1074 : Int)) :=
  ⟨f, -1074, hf, by omega, le_rfl, by norm_num, rfl⟩

/-- With the top bit of `K` at weight `2^(-1022)` or above, `K * 2^q` is the magnitude of a normal pattern: `K` is shifted
until its top bit is bit 52. -/
theorem exists_normal_of_le_topBit {K : Nat} {q : Int} (h0 : K ≠ 0) (hK : K < 2 ^ 53) (hq : q ≤ 971)
    (htop : -1022 ≤ q + Nat.log2 K) :
    ∃ E f : Nat, 1 ≤ E ∧ E ≤ 2046 ∧ f < 2 ^ 52 ∧
      (K : ℚ) * 2 ^ q = (2 ^ 52 + f) * (2 : ℚ) ^ ((E : Int) - 1075) := by
  have hl : Nat.log2 K < 53 := (Nat.log2_lt h0).mpr hK
  obtain ⟨hge, hlt⟩ := shift_to_bit52_bounds h0 hK
  obtain ⟨f, hf⟩ := Nat.exists_eq_add_of_le hge
  have hexp : q - ((52 - Nat.log2 K : Nat) : Int) = ((q + Nat.log2 K + 1023).toNat : Int) - 1075 := by omega
  refine ⟨(q + Nat.log2 K + 1023).toNat, f, by omega, by omega, by omega, ?_⟩
  rw [natCast_mul_zpow_eq_shift K (52 - Nat.log2 K), hf, hexp]
  push_cast; rfl

/-- With the top bit of `K` below weight `2^(-1022)`, `K * 2^q` is the magnitude of a subnormal pattern: `K` is shifted
until its last bit has the weight `2^(-1074)`. -/
theorem exists_subnormal_of_topBit_lt {K : Nat} {q : Int} (h0 : K ≠ 0) (hq : -1074 ≤ q)
    (htop : q + Nat.log2 K < -1022) :
    ∃ f : Nat, 1 ≤ f ∧ f < 2 ^ 52 ∧ (K : ℚ) * 2 ^ q = f * (2 : ℚ) ^ (-1074 : Int) := by
  have hexp : q - ((q + 1074).toNat : Int) = -1074 := by omega
  refine ⟨K * 2 ^ (q + 1074).toNat, Nat.mul_pos (Nat.pos_of_ne_zero h0) (by positivity), ?_, ?_⟩
  · calc K * 2 ^ (q + 1074).toNat < 2 ^ (Nat.log2 K + 1) * 2 ^ (q + 1074).toNat :=
          Nat.mul_lt_mul_of_pos_right Nat.lt_log2_self (by positivity)
      _ = 2 ^ (Nat.log2 K + 1 + (q + 1074).toNat) := (pow_add ..).symm
      _ ≤ 2 ^ 52 := Nat.pow_le_pow_right two_pos (by omega)
  · rw [natCast_mul_zpow_eq_shift K (q + 1074).toNat, hexp]

/-- `F64pos` is the union of the normal and the subnormal magnitudes (R17). -/
theorem inF64pos_iff_normal_or_subnormal (x : ℚ) : InF64pos x ↔
    (∃ E f : Nat, 1 ≤ E ∧ E ≤ 2046 ∧ f < 2 ^ 52 ∧ x = (2 ^ 52 + f) * (2 : ℚ) ^ ((E : Int) - 1075)) ∨
      ∃ f : Nat, 1 ≤ f ∧ f < 2 ^ 52 ∧ x = f * (2 : ℚ) ^ (-1074 : Int) := by
  constructor
  · rintro ⟨K, q, hK, hK', hq, hq', rfl⟩
    have h0 : K ≠ 0 := Nat.pos_iff_ne_zero.mp hK
    rcases le_or_gt (-1022) (q + Nat.log2 K) with htop | htop
    · exact .inl (exists_normal_of_le_topBit h0 hK' hq' htop)
    · exact .inr (exists_subnormal_of_topBit_lt h0 hq htop)
  · rintro (⟨E, f, hE, hE', hf, rfl⟩ | ⟨f, hf, hf', rfl⟩)
    · exact inF64pos_of_normal hE hE' hf
    · exact inF64pos_of_subnormal hf hf'

/-! ### The least and the greatest element -/

theorem inF64pos_least : InF64pos ((2 : ℚ) ^ (-1074 : Int)) :=
  ⟨1, -1074, le_rfl, by norm_num, le_rfl, by norm_num, by rw [Nat.cast_one, one_mul]⟩

theorem inF64pos_greatest : InF64pos ((2 ^ 53 - 1) * (2 : ℚ) ^ (971 : Int)) :=
  ⟨2 ^ 53 - 1, 971, by norm_num, by norm_num, by norm_num, le_rfl, by norm_num⟩

theorem least_le_of_inF64pos {x : ℚ} (h : InF64pos x) : (2 : ℚ) ^ (-1074 : Int) ≤ x := by
  obtain ⟨K, q, hK, -, hq, -, rfl⟩ := h
  have hK1 : (1 : ℚ) ≤ K := by exact_mod_cast hK
  calc (2 : ℚ) ^ (-1074 : Int) ≤ 2 ^ q := zpow_le_zpow_right₀ one_le_two hq
    _ ≤ K * 2 ^ q := le_mul_of_one_le_left (by positivity) hK1

theorem le_greatest_of_inF64pos {x : ℚ} (h : InF64pos x) : x ≤ (2 ^ 53 - 1) * (2 : ℚ) ^ (971 : Int) := by
  obtain ⟨K, q, -, hK, -, hq, rfl⟩ := h
  have hK1 : (K : ℚ) ≤ 2 ^ 53 - 1 := by
    rw [le_sub_iff_add_le]; exact_mod_cast hK
  calc (K : ℚ) * 2 ^ q ≤ K * 2 ^ (971 : Int) :=
        mul_le_mul_of_nonneg_left (zpow_le_zpow_right₀ one_le_two hq) K.cast_nonneg
    _ ≤ (2 ^ 53 - 1) * 2 ^ (971 : Int) := mul_le_mul_of_nonneg_right hK1 (by positivity)

/-- Settles O2: the two set expressions by the place of the top bit of `K`, the extremes factor by factor. -/
theorem f64posIsTheSetOfBinary64Magnitudes : Obligations.F64posIsTheSetOfBinary64Magnitudes :=
  ⟨inF64pos_iff_normal_or_subnormal, inF64pos_least, inF64pos_greatest,
    fun _ h => ⟨least_le_of_inF64pos h, le_greatest_of_inF64pos h⟩⟩

end Sys2Proof.Machine
end

section
/-! PROOFS. The byte primitives of the Byte Buffer (R22, R23), and the byte writes of an operation: the store they leave does
not depend on their order (R29). -/

namespace Sys2Proof.Machine

/-! ### One byte -/

/-- R23, the skip: nothing is written outside the valid addresses. -/
theorem memWrite_of_not_valid {buf : Buffer} {a : Int} (h : ¬ Buffer.Valid buf a) (m : Memory) (b : Byte) :
    memWrite m buf a b = m := if_neg h

theorem memRead_memWrite_same {m : Memory} (hm : Memory.wf m = true) {buf : Buffer} {a : Int}
    (ha : Buffer.Valid buf a) (b : Byte) : memRead (memWrite m buf a b) buf a = b := by
  rw [memRead_of_valid ha, read_memWrite hm, if_pos ⟨ha, rfl⟩]

theorem memRead_memWrite_other {m : Memory} (hm : Memory.wf m = true) (buf : Buffer) {a a' : Int} (hne : a' ≠ a)
    (b : Byte) : memRead (memWrite m buf a b) buf a' = memRead m buf a' := by
  by_cases ha' : Buffer.Valid buf a'
  · rw [memRead_of_valid ha', memRead_of_valid ha', read_memWrite hm, if_neg]
    rintro ⟨ha, hcell⟩
    exact hne ((Buffer.cell_inj ha' ha).mp hcell)
  · rw [memRead_of_not_valid ha', memRead_of_not_valid ha']

theorem read_memWrite_of_ne_cell {m : Memory} (hm : Memory.wf m = true) {buf : Buffer} {a : Int} {h : Nat}
    (hne : h ≠ Buffer.cell buf a) (b : Byte) : Memory.read (memWrite m buf a b) h = Memory.read m h := by
  rw [read_memWrite hm, if_neg fun hc => hne hc.2]

/-- Settles O37, by the two sides of the bounds check. -/
theorem memReadFillsWithZero : Obligations.MemReadFillsWithZero := fun m _ _ =>
  ⟨fun h0 h1 => memRead_of_valid ⟨h0, h1⟩ m, fun hout => memRead_of_not_valid (by omega) m⟩

/-- Settles O38: a valid address lies at a byte of the store that no other valid address of the buffer lies at. -/
theorem memWriteSkipsOutOfRange : Obligations.MemWriteSkipsOutOfRange := fun m buf _ b hm =>
  ⟨fun h0 h1 => ⟨memRead_memWrite_same hm ⟨h0, h1⟩ b, fun _ hne => memRead_memWrite_other hm buf hne b,
    fun _ hne => read_memWrite_of_ne_cell hm hne b⟩,
   fun hout => memWrite_of_not_valid (by omega) m b⟩

/-! ### The byte writes of an operation -/

/-- Byte writes to pairwise different addresses leave the same store in every order (R29): a byte of the store holds what
the one write to it wrote, or is unwritten by all. -/
theorem memWriteAll_perm {m : Memory} (hm : Memory.wf m = true) (buf : Buffer) {l l' : List Store} (hp : l'.Perm l)
    (hnd : (l.map Prod.fst).Nodup) : memWriteAll m buf l' = memWriteAll m buf l := by
  have hnd' : (l'.map Prod.fst).Nodup := (hp.map Prod.fst).nodup_iff.mpr hnd
  refine Memory.ext_of_wf (wf_memWriteAll hm buf l') (wf_memWriteAll hm buf l) fun c => ?_
  by_cases hw : ∃ w ∈ l, Buffer.Valid buf w.1 ∧ c = Buffer.cell buf w.1
  · obtain ⟨w, hmem, hv, rfl⟩ := hw
    rw [read_memWriteAll_mem hm buf l' hnd' (hp.mem_iff.mpr hmem) hv, read_memWriteAll_mem hm buf l hnd hmem hv]
  · have hno : ∀ w ∈ l, Buffer.Valid buf w.1 → c ≠ Buffer.cell buf w.1 := fun w hmem hv hc => hw ⟨w, hmem, hv, hc⟩
    rw [read_memWriteAll_other hm buf l' c fun w hmem => hno w (hp.mem_iff.mp hmem),
      read_memWriteAll_other hm buf l c hno]

theorem memAfter_of_stores_none {i : Instr} (h : Instr.stores i = none) (m : Memory) : memAfter i m = m := by
  simp [memAfter, h]

theorem memAfter_of_stores_some {i : Instr} {buf : Buffer} {stores : List Store}
    (h : Instr.stores i = some (buf, stores)) (m : Memory) : memAfter i m = memWriteAll m buf stores := by
  simp [memAfter, h]

/-- A byte that an instruction does not write, because it issues no byte write or none to it, reads as before (R26). -/
theorem read_memAfter_of_not_written {i : Instr} {m : Memory} (hm : Memory.wf m = true) {h : Nat}
    (hn : Instr.stores i = none ∨ ¬ Instr.Touches i h) : Memory.read (memAfter i m) h = Memory.read m h := by
  rcases hn with hnone | hn
  · rw [memAfter_of_stores_none hnone]
  · exact read_memAfter_other hm hn

/-- Settles O39: the addresses of an instruction's byte writes are pairwise different, so their order is of no account. -/
theorem orderOfByteWritesDoesNotMatter : Obligations.OrderOfByteWritesDoesNotMatter := fun i s hs => by
  obtain ⟨t, ht, -, -, hmem, -⟩ := exec_next i s
  refine ⟨t, ht, fun hnone => ?_, fun buf stores stores' hsome hp => ?_⟩
  · rw [hmem, memAfter_of_stores_none hnone]
  · rw [hmem, memAfter_of_stores_some hsome, memWriteAll_perm hs buf hp (stores_nodup hsome)]

/-- Settles O51, from what an instruction can do and the window its byte writes keep to. -/
theorem instructionsChangeOnlyTheirWindow : Obligations.InstructionsChangeOnlyTheirWindow := fun i s t hs ht => by
  obtain ⟨hinputs, hdraws, hmem, -⟩ := exec_inversion ht
  refine ⟨fun h hn => ?_, fun hnone => ?_, hinputs, hdraws⟩
  · rw [hmem, read_memAfter_other hs hn]
  · rw [hmem, memAfter_of_stores_none hnone]

end Sys2Proof.Machine
end

section
/-! PROOFS. What a step does with each kind of input (R97, R106, R112, R113), one equation per case, and from these: the
canonical form of the store is kept, an agent's write changes one byte, and a race mixes bytewise (R28). -/

namespace Sys2Proof.Machine

/-! ### The step, input by input -/

theorem step_of_inputs_nil {s : State} (h : s.inputs = []) : step s = .next s := by
  simp only [step, h]

theorem step_of_inputs_cons {s : State} {input : Input} {rest : List Input} (h : s.inputs = input :: rest) :
    step s = runInput input { s with inputs := rest } := by
  simp only [step, h]

theorem runRequest_of_ok {r : Request} {i : Instr} (h : decode r = .ok i) (s : State) :
    runRequest r s = exec i s := by
  simp only [runRequest, h]

theorem runRequest_of_error {r : Request} {why : Reject} (h : decode r = .error why) (s : State) :
    runRequest r s = .refused (Reject.refusal why) := by
  simp only [runRequest, h]

/-- The store after the part of an instruction's byte writes that reached it before the cut numbered `n` (R106). -/
def memCut (n : Nat) (i : Instr) (m : Memory) : Memory :=
  match Instr.stores i with
  | none => m
  | some (buf, stores) => memWriteAll m buf (chosen (fun k _ => Config.writeLanded n k) 0 stores)

theorem wf_memCut (n : Nat) (i : Instr) {m : Memory} (h : Memory.wf m = true) : Memory.wf (memCut n i m) = true := by
  unfold memCut
  split
  · exact h
  · exact wf_memWriteAll h _ _

theorem runCut_of_ok {r : Request} {i : Instr} (h : decode r = .ok i) (s : State) :
    runCut r s = .next { s with mem := memCut s.draws i s.mem, response := none, draws := s.draws + 1 } := by
  cases hs : Instr.stores i <;> simp only [runCut, memCut, h, hs]

theorem runCut_of_error {r : Request} {why : Reject} (h : decode r = .error why) (s : State) :
    runCut r s = .refused (Reject.refusal why) := by
  simp only [runCut, h]

/-- The agent's writes of the race numbered `n` that land before the operation's access to the byte they write (R28). -/
def writesBefore (n : Nat) (ws : List Host.Cell) : List Host.Cell := chosen (landsBefore n) 0 ws

/-- The agent's writes of the race numbered `n` that land after that access (R28). -/
def writesAfter (n : Nat) (ws : List Host.Cell) : List Host.Cell := chosen (fun i c => !landsBefore n i c) 0 ws

/-- What the operation of a race finds: the store with the agent's early writes in it. -/
def State.raced (s : State) (ws : List Host.Cell) : State :=
  { s with mem := Memory.writeCells s.mem (writesBefore s.draws ws), draws := s.draws + 1 }

theorem runRaced_of_ok {r : Request} {i : Instr} {ws : List Host.Cell} {s u : State} (h : decode r = .ok i)
    (hu : exec i (s.raced ws) = .next u) :
    runRaced r ws s = .next { u with mem := Memory.writeCells u.mem (writesAfter s.draws ws) } := by
  have hrun := (runRequest_of_ok h (s.raced ws)).trans hu
  rw [State.raced, writesBefore] at hrun
  rw [runRaced, hrun, writesAfter]

theorem runRaced_of_error {r : Request} {why : Reject} (h : decode r = .error why) (ws : List Host.Cell) (s : State) :
    runRaced r ws s = .refused (Reject.refusal why) := by
  rw [runRaced, runRequest_of_error h]

/-! ### The invariant -/

theorem inv_of_exec {i : Instr} {s t : State} (hs : s.Inv) (h : exec i s = .next t) : t.Inv := by
  obtain ⟨-, -, hmem, -⟩ := exec_inversion h
  rw [State.Inv, hmem]
  exact wf_memAfter i hs

theorem inv_of_runRequest {r : Request} {s t : State} (hs : s.Inv) (h : runRequest r s = .next t) : t.Inv := by
  cases hd : decode r with
  | ok i => exact inv_of_exec hs (runRequest_of_ok hd s ▸ h)
  | error why => cases (runRequest_of_error hd s).symm.trans h

theorem inv_of_runRaced {r : Request} {ws : List Host.Cell} {s t : State} (hs : s.Inv)
    (h : runRaced r ws s = .next t) : t.Inv := by
  cases hd : decode r with
  | ok i =>
    obtain ⟨u, hu, -⟩ := exec_next i (s.raced ws)
    have huInv : u.Inv := inv_of_exec (s := s.raced ws) (Memory.wf_writeCells hs _) hu
    cases (runRaced_of_ok hd hu).symm.trans h
    exact Memory.wf_writeCells huInv _
  | error why => cases (runRaced_of_error hd ws s).symm.trans h

theorem inv_of_runCut {r : Request} {s t : State} (hs : s.Inv) (h : runCut r s = .next t) : t.Inv := by
  cases hd : decode r with
  | ok i =>
    cases (runCut_of_ok hd s).symm.trans h
    exact wf_memCut s.draws i hs
  | error why => cases (runCut_of_error hd s).symm.trans h

theorem inv_of_runInput {input : Input} {s t : State} (hs : s.Inv) (h : runInput input s = .next t) : t.Inv := by
  cases input with
  | command r => exact inv_of_runRequest hs h
  | agentWrite addr b =>
    cases h
    exact Memory.wf_write hs addr b
  | racedCommand r ws => exact inv_of_runRaced hs h
  | reset =>
    cases h
    exact hs
  | cutCommand r => exact inv_of_runCut hs h

/-- Settles O55, by the kind of the oldest input: every way in which an input changes the store keeps the canonical form. -/
theorem everyStepKeepsTheStoreCanonical : Obligations.EveryStepKeepsTheStoreCanonical := fun s t hs h => by
  cases hin : s.inputs with
  | nil =>
    cases (step_of_inputs_nil hin).symm.trans h
    exact hs
  | cons input rest =>
    exact inv_of_runInput (s := { s with inputs := rest }) hs ((step_of_inputs_cons hin).symm.trans h)

/-- Settles O60: the step is one write of the store. -/
theorem agentWriteChangesOneByte : Obligations.AgentWriteChangesOneByte := fun s addr b rest hs hin =>
  ⟨Memory.write s.mem addr b, step_of_inputs_cons hin, Memory.wf_write hs addr b,
    by rw [Memory.read_write hs, if_pos rfl], fun h hne => by rw [Memory.read_write hs, if_neg hne]⟩

/-! ### Races -/

/-- What the operation of a race finds in a byte is what some beginning of the agent's writes left there (R28, R31). -/
theorem read_writesBefore {m : Memory} (hm : Memory.wf m = true) (n : Nat) (ws : List Host.Cell) (h : Nat) :
    ∃ k, k ≤ ws.length ∧ Memory.read (Memory.writeCells m (writesBefore n ws)) h
      = Memory.read (Memory.writeCells m (ws.take k)) h := by
  refine ⟨min (Config.accessAfter n h) ws.length, min_le_right _ _, ?_⟩
  rw [read_writeCells hm, read_writeCells hm, writesBefore, byteAfter_before, Nat.sub_zero, ← List.take_eq_take_min]

/-- On a byte that reads as the early writes of the agent left it, the late ones complete all of them, in their order. -/
theorem read_writesAfter_of_unchanged {m m' : Memory} (hm : Memory.wf m = true) (hm' : Memory.wf m' = true) (n : Nat)
    (ws : List Host.Cell) {h : Nat}
    (hsame : Memory.read m' h = Memory.read (Memory.writeCells m (writesBefore n ws)) h) :
    Memory.read (Memory.writeCells m' (writesAfter n ws)) h = Memory.read (Memory.writeCells m ws) h := by
  rw [read_writeCells hm', hsame, read_writeCells hm, read_writeCells hm, writesBefore, writesAfter,
    byteAfter_before_after]

/-- Whatever the operation left in a byte, it stays, or a late write of the agent decides the byte; then it is as all of the
agent's writes leave it. -/
theorem read_writesAfter {m m' : Memory} (hm : Memory.wf m = true) (hm' : Memory.wf m' = true) (n : Nat)
    (ws : List Host.Cell) (h : Nat) :
    Memory.read (Memory.writeCells m' (writesAfter n ws)) h = Memory.read m' h ∨
      ((∃ c ∈ ws, c.1 = h) ∧
        Memory.read (Memory.writeCells m' (writesAfter n ws)) h = Memory.read (Memory.writeCells m ws) h) := by
  by_cases hlate : ∃ c ∈ writesAfter n ws, c.1 = h
  · refine .inr ⟨?_, ?_⟩
    · obtain ⟨c, hc, hch⟩ := hlate
      exact ⟨c, (chosen_sublist _ 0 ws).subset hc, hch⟩
    · have hwf := Memory.wf_writeCells hm (writesBefore n ws)
      rw [← read_writesAfter_of_unchanged hm hwf n ws rfl, read_writeCells hm', read_writeCells hwf,
        byteAfter_written hlate]
  · left
    rw [read_writeCells hm', byteAfter_other fun c hc hch => hlate ⟨c, hc, hch.symm⟩]

/-- Settles O59: the agent's early writes make the store the operation runs on, and its late ones follow; on each byte the
two parts are all of them in their order. -/
theorem racedOperationsMixBytewise : Obligations.RacedOperationsMixBytewise := fun s r ws rest i hs hin hd => by
  have hm : Memory.wf (Memory.writeCells s.mem (writesBefore s.draws ws)) = true := Memory.wf_writeCells hs _
  obtain ⟨u, hu, huInputs, -, huMem, -⟩ := exec_next i (State.raced { s with inputs := rest } ws)
  have huInv : Memory.wf u.mem = true := huMem ▸ wf_memAfter i hm
  refine ⟨{ u with mem := Memory.writeCells u.mem (writesAfter s.draws ws) }, u,
    Memory.writeCells s.mem (writesBefore s.draws ws), (step_of_inputs_cons hin).trans (runRaced_of_ok hd hu), hm,
    read_writesBefore hs s.draws ws, hu, rfl, huInputs, fun h => ⟨fun hn => ?_, fun _ _ => ?_⟩⟩
  · exact read_writesAfter_of_unchanged hs huInv s.draws ws (huMem ▸ read_memAfter_of_not_written hm hn)
  · exact read_writesAfter hs huInv s.draws ws h

end Sys2Proof.Machine
end

section
/-! PROOFS. The value carrier (R39): what each class of carrier reads as, that the rational alone counts and not its pair,
and the canonical carriers of the values that patterns decode to, which read back. -/

namespace Sys2Proof.Machine

/-! ### Reading a carrier, class by class -/

theorem readCarrier_of_class_zero {nv : BitVec 68} (h : carrierClass nv = 0#2) :
    readCarrier nv = some (.zero (carrierSign nv)) := by
  rw [readCarrier, if_pos h]

theorem readCarrier_of_class_inf {nv : BitVec 68} (h : carrierClass nv = 2#2) :
    readCarrier nv = some (.inf (carrierSign nv)) := by
  rw [readCarrier, if_neg (by rw [h]; decide), if_pos h]

theorem readCarrier_of_class_nan {nv : BitVec 68} (h : carrierClass nv = 3#2) : readCarrier nv = some .nan := by
  rw [readCarrier, if_neg (by rw [h]; decide), if_neg (by rw [h]; decide), if_pos h]

theorem finiteLegal_iff_denotesFinite (nv : BitVec 68) :
    finiteLegal (carrierSig nv) (carrierExp nv) = true ↔ DenotesFinite nv :=
  finiteLegal_iff (BitVec.isLt _)

theorem readCarrier_of_denotesFinite {nv : BitVec 68} (hc : carrierClass nv = 1#2) (h : DenotesFinite nv) :
    ∃ x : F64pos, readCarrier nv = some (.fin (carrierSign nv) x) ∧
      x.val = carrierSig nv * (2 : ℚ) ^ carrierExp nv := by
  rw [← POW2_eq_zpow]
  exact readCarrier_finite hc ((finiteLegal_iff_denotesFinite nv).mpr h)

theorem readCarrier_of_not_denotesFinite {nv : BitVec 68} (hc : carrierClass nv = 1#2) (h : ¬ DenotesFinite nv) :
    readCarrier nv = none := by
  rw [readCarrier, if_neg (by rw [hc]; decide), if_neg (by rw [hc]; decide), if_neg (by rw [hc]; decide),
    dif_neg (mt (finiteLegal_iff_denotesFinite nv).mp h)]

/-- Settles O28, one lemma per class. -/
theorem carrierReadsAsItsClassSays : Obligations.CarrierReadsAsItsClassSays := fun _ =>
  ⟨readCarrier_of_class_zero, readCarrier_of_class_inf, readCarrier_of_class_nan, readCarrier_of_denotesFinite,
    readCarrier_of_not_denotesFinite⟩

/-! ### The rational, not the pair -/

/-- That `K` is not 0 is part of `K * 2^q` being in `F64pos`, so a finite carrier is legal by its rational alone. -/
theorem denotesFinite_iff_inF64pos (nv : BitVec 68) :
    DenotesFinite nv ↔ InF64pos (carrierSig nv * (2 : ℚ) ^ carrierExp nv) := by
  refine ⟨And.right, fun h => ⟨fun h0 => ?_, h⟩⟩
  have hpos : 0 < (carrierSig nv : ℚ) * 2 ^ carrierExp nv := F64pos_pos ⟨_, h⟩
  rw [h0, Nat.cast_zero, zero_mul] at hpos
  exact lt_irrefl 0 hpos

/-- Settles O29: the two carriers are legal together, and then carry one magnitude. -/
theorem carrierPairDoesNotMatter : Obligations.CarrierPairDoesNotMatter := fun nv nv' hc hc' hs hx => by
  have hiff : DenotesFinite nv ↔ DenotesFinite nv' := by
    rw [denotesFinite_iff_inF64pos, denotesFinite_iff_inF64pos, hx]
  by_cases h : DenotesFinite nv
  · obtain ⟨x, hread, hval⟩ := readCarrier_of_denotesFinite hc h
    obtain ⟨x', hread', hval'⟩ := readCarrier_of_denotesFinite hc' (hiff.mp h)
    have hxx : x = x' := Subtype.ext (by rw [hval, hval', hx])
    rw [hread, hread', hs, hxx]
  · rw [readCarrier_of_not_denotesFinite hc h, readCarrier_of_not_denotesFinite hc' (mt hiff.mpr h)]

/-! ### The canonical carrier of a magnitude -/

theorem writeCarrier_of_normal {fmt : Format} {E M : Nat} (hE : 0 < E) (hM : M < 2 ^ fmt.mw) (s : Sign) {x : F64pos}
    (hx : x.val = (1 + M / 2 ^ fmt.mw) * POW2 (E - fmt.bias)) :
    writeCarrier fmt (.fin s x) = packCarrier 1#2 s (E - fmt.bias - fmt.mw) (2 ^ fmt.mw + M) := by
  obtain ⟨hexp, hsig, -⟩ := canonical_normal hE hM hx
  rw [writeCarrier, hsig, hexp]

theorem writeCarrier_of_subnormal {fmt : Format} {M : Nat} (hM0 : M ≠ 0) (hM : M < 2 ^ fmt.mw) (s : Sign) {x : F64pos}
    (hx : x.val = M * POW2 (1 - fmt.bias - fmt.mw)) :
    writeCarrier fmt (.fin s x) = packCarrier 1#2 s (1 - fmt.bias - fmt.mw) M := by
  obtain ⟨hexp, hsig⟩ := canonical_subnormal hM0 hM hx
  rw [writeCarrier, hsig, hexp]

/-! ### The value of a pattern, by its fields as integers -/

theorem fields32_s_eq_signBit (w : BitWord32) : (fields32 w).s = signBit w := by
  have hw := w.isLt
  apply BitVec.eq_of_toNat_eq
  rw [fields32_s, signBit, BitVec.toNat_ofNat]
  omega

theorem fields64_s_eq_signBit (hi lo : BitWord32) : (fields64 hi lo).s = signBit hi := fields32_s_eq_signBit hi

theorem dec32_of_normal {w : BitWord32} (h0 : 0 < w.toNat / 2 ^ 23 % 2 ^ 8) (h1 : w.toNat / 2 ^ 23 % 2 ^ 8 < 255) :
    ∃ x : F64pos, dec32 w = .fin (signBit w) x ∧
      x.val = (1 + (w.toNat % 2 ^ 23 : Nat) / 2 ^ 23) * POW2 ((w.toNat / 2 ^ 23 % 2 ^ 8 : Nat) - 127) := by
  rw [← fields32_E] at h0 h1
  have hE : (fields32 w).E ≠ 0#8 := fun h => by simp [h] at h0
  have hE' : (fields32 w).E ≠ 255#8 := fun h => by simp [h] at h1
  rw [← fields32_E, ← fields32_M, ← fields32_s_eq_signBit]
  exact ⟨_, by rw [dec32, if_neg hE, if_neg hE'], rfl⟩

theorem dec32_of_subnormal {w : BitWord32} (h0 : w.toNat / 2 ^ 23 % 2 ^ 8 = 0) (hM : w.toNat % 2 ^ 23 ≠ 0) :
    ∃ x : F64pos, dec32 w = .fin (signBit w) x ∧ x.val = (w.toNat % 2 ^ 23 : Nat) * POW2 (1 - 127 - 23) := by
  rw [← fields32_E, ← bitVec_eq_zero] at h0
  rw [← fields32_M, Ne, ← bitVec_eq_zero] at hM
  rw [← fields32_M, ← fields32_s_eq_signBit]
  exact ⟨_, by rw [dec32, if_pos h0, dif_neg hM], rfl⟩

theorem dec64_of_normal {hi lo : BitWord32} (h0 : 0 < hi.toNat / 2 ^ 20 % 2 ^ 11)
    (h1 : hi.toNat / 2 ^ 20 % 2 ^ 11 < 2047) :
    ∃ x : F64pos, dec64 hi lo = .fin (signBit hi) x ∧
      x.val = (1 + mantissa64 hi lo / 2 ^ 52) * POW2 ((hi.toNat / 2 ^ 20 % 2 ^ 11 : Nat) - 1023) := by
  rw [← fields64_E hi lo] at h0 h1
  have hE : (fields64 hi lo).E ≠ 0#11 := fun h => by simp [h] at h0
  have hE' : (fields64 hi lo).E ≠ 2047#11 := fun h => by simp [h] at h1
  rw [← fields64_E hi lo, mantissa64, ← fields64_M, ← fields64_s_eq_signBit hi lo]
  exact ⟨_, by rw [dec64, dif_neg hE, dif_neg hE'], rfl⟩

theorem dec64_of_subnormal {hi lo : BitWord32} (h0 : hi.toNat / 2 ^ 20 % 2 ^ 11 = 0) (hM : mantissa64 hi lo ≠ 0) :
    ∃ x : F64pos, dec64 hi lo = .fin (signBit hi) x ∧ x.val = mantissa64 hi lo * POW2 (1 - 1023 - 52) := by
  rw [← fields64_E hi lo, ← bitVec_eq_zero] at h0
  rw [mantissa64, ← fields64_M, Ne, ← bitVec_eq_zero] at hM
  rw [mantissa64, ← fields64_M, ← fields64_s_eq_signBit hi lo]
  exact ⟨_, by rw [dec64, dif_pos h0, dif_neg hM], rfl⟩

/-! ### The canonical carrier of a pattern's value -/

theorem mantissa64_lt (hi lo : BitWord32) : mantissa64 hi lo < 2 ^ 52 := by
  have hlo := lo.isLt
  rw [mantissa64]
  omega

theorem writeCarrier_dec32_of_normal {w : BitWord32} (h0 : 0 < w.toNat / 2 ^ 23 % 2 ^ 8)
    (h1 : w.toNat / 2 ^ 23 % 2 ^ 8 < 255) : writeCarrier binary32 (dec32 w)
      = packCarrier 1#2 (signBit w) ((w.toNat / 2 ^ 23 % 2 ^ 8 : Nat) - 150) (2 ^ 23 + w.toNat % 2 ^ 23) := by
  obtain ⟨x, hdec, hx⟩ := dec32_of_normal h0 h1
  rw [hdec, writeCarrier_of_normal (fmt := binary32) h0 (Nat.mod_lt _ (by decide)) _ hx]
  congr 1
  exact sub_sub _ 127 23

theorem writeCarrier_dec32_of_subnormal {w : BitWord32} (h0 : w.toNat / 2 ^ 23 % 2 ^ 8 = 0)
    (hM : w.toNat % 2 ^ 23 ≠ 0) :
    writeCarrier binary32 (dec32 w) = packCarrier 1#2 (signBit w) (-149) (w.toNat % 2 ^ 23) := by
  obtain ⟨x, hdec, hx⟩ := dec32_of_subnormal h0 hM
  rw [hdec]
  exact writeCarrier_of_subnormal (fmt := binary32) hM (Nat.mod_lt _ (by decide)) _ hx

theorem writeCarrier_dec64_of_normal {hi lo : BitWord32} (h0 : 0 < hi.toNat / 2 ^ 20 % 2 ^ 11)
    (h1 : hi.toNat / 2 ^ 20 % 2 ^ 11 < 2047) : writeCarrier binary64 (dec64 hi lo)
      = packCarrier 1#2 (signBit hi) ((hi.toNat / 2 ^ 20 % 2 ^ 11 : Nat) - 1075) (2 ^ 52 + mantissa64 hi lo) := by
  obtain ⟨x, hdec, hx⟩ := dec64_of_normal (lo := lo) h0 h1
  rw [hdec, writeCarrier_of_normal (fmt := binary64) h0 (mantissa64_lt hi lo) _ hx]
  congr 1
  exact sub_sub _ 1023 52

theorem writeCarrier_dec64_of_subnormal {hi lo : BitWord32} (h0 : hi.toNat / 2 ^ 20 % 2 ^ 11 = 0)
    (hM : mantissa64 hi lo ≠ 0) :
    writeCarrier binary64 (dec64 hi lo) = packCarrier 1#2 (signBit hi) (-1074) (mantissa64 hi lo) := by
  obtain ⟨x, hdec, hx⟩ := dec64_of_subnormal h0 hM
  rw [hdec]
  exact writeCarrier_of_subnormal (fmt := binary64) hM (mantissa64_lt hi lo) _ hx

/-- Settles O30, one lemma per row of the table for each format. -/
theorem resultCarriersAreCanonical : Obligations.ResultCarriersAreCanonical :=
  ⟨fun _ _ => ⟨rfl, rfl, rfl⟩, fun _ => ⟨writeCarrier_dec32_of_normal, writeCarrier_dec32_of_subnormal⟩,
    fun _ _ => ⟨writeCarrier_dec64_of_normal, writeCarrier_dec64_of_subnormal⟩⟩

/-! ### What is written reads back -/

/-- The class and the sign of a carrier whose pair is all zero bits, as every carrier without a magnitude is written. -/
theorem packCarrier_zero_pair (c : BitVec 2) (s : Sign) :
    carrierClass (packCarrier c s 0 0) = c ∧ carrierSign (packCarrier c s 0 0) = s := by
  obtain ⟨hclass, hsign, -⟩ := packCarrier_fields c s (q := 0) (K := 0) (by decide) (by decide) (by decide)
  exact ⟨hclass, hsign⟩

theorem readCarrier_writeCarrier_nan (fmt : Format) : readCarrier (writeCarrier fmt .nan) = some .nan :=
  readCarrier_of_class_nan (packCarrier_zero_pair 3#2 0#1).1

theorem readCarrier_writeCarrier_inf (fmt : Format) (s : Sign) :
    readCarrier (writeCarrier fmt (.inf s)) = some (.inf s) := by
  obtain ⟨hclass, hsign⟩ := packCarrier_zero_pair 2#2 s
  rw [writeCarrier, readCarrier_of_class_inf hclass, hsign]

theorem readCarrier_writeCarrier_zero (fmt : Format) (s : Sign) :
    readCarrier (writeCarrier fmt (.zero s)) = some (.zero s) := by
  obtain ⟨hclass, hsign⟩ := packCarrier_zero_pair 0#2 s
  rw [writeCarrier, readCarrier_of_class_zero hclass, hsign]

/-- The carrier has room for a format: 53 bits for its significand, 12 for the exponents of its magnitudes (R39). -/
structure CarrierHolds (fmt : Format) : Prop extends FormatOk fmt where
  mw_le : fmt.mw ≤ 52
  exp_ge : -2048 ≤ 1 - fmt.bias - fmt.mw
  exp_lt : fmt.emaxf - fmt.bias - fmt.mw < 2048

theorem binary32_carrierHolds : CarrierHolds binary32 := ⟨binary32_ok, by decide, by decide, by decide⟩

theorem binary64_carrierHolds : CarrierHolds binary64 := ⟨binary64_ok, by decide, by decide, by decide⟩

theorem readCarrier_writeCarrier_of_normal {fmt : Format} (ok : CarrierHolds fmt) {E M : Nat} (hE : 0 < E)
    (hE' : (E : Int) ≤ fmt.emaxf) (hM : M < 2 ^ fmt.mw) (s : Sign) {x : F64pos}
    (hx : x.val = (1 + M / 2 ^ fmt.mw) * POW2 (E - fmt.bias)) :
    readCarrier (writeCarrier fmt (.fin s x)) = some (.fin s x) := by
  have hexp := ok.exp_ge
  have hexp' := ok.exp_lt
  have hmw : 2 ^ fmt.mw ≤ 2 ^ 52 := Nat.pow_le_pow_right two_pos ok.mw_le
  obtain ⟨-, -, hval⟩ := canonical_normal hE hM hx
  rw [writeCarrier_of_normal hE hM s hx]
  exact readCarrier_packCarrier (by omega) (by omega) (by omega) hval

theorem readCarrier_writeCarrier_of_subnormal {fmt : Format} (ok : CarrierHolds fmt) {M : Nat} (hM0 : M ≠ 0)
    (hM : M < 2 ^ fmt.mw) (s : Sign) {x : F64pos} (hx : x.val = M * POW2 (1 - fmt.bias - fmt.mw)) :
    readCarrier (writeCarrier fmt (.fin s x)) = some (.fin s x) := by
  have hemaxf := ok.emaxf_pos
  have hexp := ok.exp_lt
  have hmw : 2 ^ fmt.mw ≤ 2 ^ 52 := Nat.pow_le_pow_right two_pos ok.mw_le
  rw [writeCarrier_of_subnormal hM0 hM s hx]
  exact readCarrier_packCarrier ok.exp_ge (by omega) (by omega) hx

/-- The answer of a binary32 decode reads back (R39). -/
theorem readCarrier_writeCarrier_dec32 (w : BitWord32) :
    readCarrier (writeCarrier binary32 (dec32 w)) = some (dec32 w) := by
  rcases dec32_cases w with ⟨-, -, hdec⟩ | ⟨-, hM, x, hdec, hx⟩ | ⟨-, -, hdec⟩ | ⟨-, -, hdec⟩ | ⟨hE, hE', x, hdec, hx⟩
  · rw [hdec, readCarrier_writeCarrier_zero]
  · rw [hdec, readCarrier_writeCarrier_of_subnormal binary32_carrierHolds (mt bitVec_eq_zero.mpr hM)
      (fields32 w).M.isLt _ hx]
  · rw [hdec, readCarrier_writeCarrier_inf]
  · rw [hdec, readCarrier_writeCarrier_nan]
  · have h0 : (fields32 w).E.toNat ≠ 0 := mt bitVec_eq_zero.mpr hE
    have h1 : ((fields32 w).E.toNat : Int) ≤ 254 := by
      have := (fields32 w).E.isLt
      have : (fields32 w).E.toNat ≠ 255 := fun h => hE' (BitVec.eq_of_toNat_eq h)
      omega
    rw [hdec, readCarrier_writeCarrier_of_normal binary32_carrierHolds (Nat.pos_of_ne_zero h0) h1
      (fields32 w).M.isLt _ hx]

/-- A magnitude of `F64pos` is that of a normal or of a subnormal binary64 pattern, in the form of R76. -/
theorem F64pos_normal_or_subnormal (x : F64pos) :
    (∃ E M : Nat, 0 < E ∧ (E : Int) ≤ binary64.emaxf ∧ M < 2 ^ binary64.mw ∧
      x.val = (1 + M / 2 ^ binary64.mw) * POW2 (E - binary64.bias)) ∨
    ∃ M : Nat, M ≠ 0 ∧ M < 2 ^ binary64.mw ∧ x.val = M * POW2 (1 - binary64.bias - binary64.mw) := by
  rcases (inF64pos_iff_normal_or_subnormal x.val).mp x.2 with ⟨E, M, hE, hE', hM, hx⟩ | ⟨M, hM0, hM, hx⟩
  · refine .inl ⟨E, M, hE, Int.ofNat_le.mpr hE', hM, ?_⟩
    have hscale : POW2 (E - 1023) = 2 ^ 52 * POW2 (E - 1075) := by
      rw [← POW2_natCast, ← POW2_add]; congr 1; push_cast; ring
    rw [hx, ← POW2_eq_zpow]
    simp only [binary64, hscale]
    field_simp
  · exact .inr ⟨M, Nat.pos_iff_ne_zero.mp hM0, hM, by rw [hx, ← POW2_eq_zpow]; rfl⟩

/-- The canonical binary64 carrier of every value reads back (R39). -/
theorem readCarrier_writeCarrier_binary64 (v : NV) : readCarrier (writeCarrier binary64 v) = some v := by
  cases v with
  | nan => exact readCarrier_writeCarrier_nan binary64
  | inf s => exact readCarrier_writeCarrier_inf binary64 s
  | zero s => exact readCarrier_writeCarrier_zero binary64 s
  | fin s x =>
    rcases F64pos_normal_or_subnormal x with ⟨E, M, hE, hE', hM, hx⟩ | ⟨M, hM0, hM, hx⟩
    · exact readCarrier_writeCarrier_of_normal binary64_carrierHolds hE hE' hM s hx
    · exact readCarrier_writeCarrier_of_subnormal binary64_carrierHolds hM0 hM s hx

/-- Settles O31, by the kinds of value a pattern stands for. -/
theorem writtenCarriersReadBack : Obligations.WrittenCarriersReadBack :=
  ⟨readCarrier_writeCarrier_dec32, readCarrier_writeCarrier_binary64⟩

end Sys2Proof.Machine
end

section
/-! PROOFS. Commands (R40 to R43): the decoder code by code, which operand ports it reads, the reserved codes, and that it
undoes the encoder. -/

namespace Sys2Proof.Machine

/-! ### The value operand and the offset operand -/

theorem withValue_of_some {r : Request} {v : NV} (h : readCarrier r.val = some v) (f : NV → Instr) :
    withValue r f = .ok (f v) := by
  simp only [withValue, h]

theorem withValue_of_none {r : Request} (h : readCarrier r.val = none) (f : NV → Instr) :
    withValue r f = .error (.noNumericValue r.val) := by
  simp only [withValue, h]

theorem withValue_congr {r r' : Request} (h : r.val = r'.val) (f : NV → Instr) : withValue r f = withValue r' f := by
  simp only [withValue, h]

/-- A refusal for the value operand is never one for a reserved code. -/
theorem withValue_ne_reservedOp (r : Request) (f : NV → Instr) (op : BitVec 4) :
    withValue r f ≠ .error (.reservedOp op) := by
  cases h : readCarrier r.val with
  | some v => rw [withValue_of_some h]; exact nofun
  | none => rw [withValue_of_none h]; exact nofun

/-- An offset that fits comes back from the 32 two's-complement bits of its port (R40). -/
theorem toInt_ofInt_of_offsetFits {offset : Int} (h : offsetFits offset = true) :
    (BitVec.ofInt 32 offset).toInt = offset := by
  have hfits : -2 ^ 31 ≤ offset ∧ offset < 2 ^ 31 := of_decide_eq_true h
  rw [BitVec.toInt_ofInt]
  exact Int.bmod_eq_of_le (by norm_num; omega) (by norm_num; omega)

/-! ### The decoder undoes the encoder -/

/-- The value a command carries as its canonical binary64 carrier is the value the decoder hands on. -/
theorem withValue_writeCarrier {r : Request} {v : NV} (h : r.val = writeCarrier binary64 v) (f : NV → Instr) :
    withValue r f = .ok (f v) :=
  withValue_of_some (h ▸ readCarrier_writeCarrier_binary64 v) f

/-- The value and the offset of a write command come back together. -/
theorem withValue_encodeWrite (op : BitVec 4) (buf : Buffer) (v : NV) {offset : Int} (h : offsetFits offset = true)
    (f : Buffer → NV → Int → Instr) :
    (withValue (encodeWrite op buf v offset) fun v => f buf v (BitVec.ofInt 32 offset).toInt) = .ok (f buf v offset) := by
  rw [toInt_ofInt_of_offsetFits h]
  exact withValue_writeCarrier rfl _

/-- Settles O32, by the operation: a word or a buffer comes back as it stands, a value through its canonical carrier, an
offset through its two's complement. -/
theorem decodeUndoesEncode : Obligations.DecodeUndoesEncode := fun i hwf => by
  cases i with
  | dec32 w => rfl
  | dec64 hi lo => rfl
  | enc32 v => exact withValue_writeCarrier rfl .enc32
  | enc64 v => exact withValue_writeCarrier rfl .enc64
  | readFloatBE buf offset => exact congrArg (Except.ok ∘ Instr.readFloatBE buf) (toInt_ofInt_of_offsetFits hwf)
  | readFloatLE buf offset => exact congrArg (Except.ok ∘ Instr.readFloatLE buf) (toInt_ofInt_of_offsetFits hwf)
  | readDoubleBE buf offset => exact congrArg (Except.ok ∘ Instr.readDoubleBE buf) (toInt_ofInt_of_offsetFits hwf)
  | readDoubleLE buf offset => exact congrArg (Except.ok ∘ Instr.readDoubleLE buf) (toInt_ofInt_of_offsetFits hwf)
  | writeFloatBE buf v offset => exact withValue_encodeWrite _ buf v hwf .writeFloatBE
  | writeFloatLE buf v offset => exact withValue_encodeWrite _ buf v hwf .writeFloatLE
  | writeDoubleBE buf v offset => exact withValue_encodeWrite _ buf v hwf .writeDoubleBE
  | writeDoubleLE buf v offset => exact withValue_encodeWrite _ buf v hwf .writeDoubleLE

/-! ### The operand ports an operation reads (R42) -/

theorem decode_of_op_dec32 {r : Request} (h : r.op.toNat = 0) : decode r = .ok (.dec32 r.wHi) := by
  simp only [decode, h]

theorem decode_of_op_dec64 {r : Request} (h : r.op.toNat = 2) : decode r = .ok (.dec64 r.wHi r.wLo) := by
  simp only [decode, h]

theorem decode_congr_of_op_encode {r r' : Request} (hop : r.op = r'.op) (h : r.op.toNat = 4 ∨ r.op.toNat = 6)
    (hval : r.val = r'.val) : decode r = decode r' := by
  rcases h with h | h <;> simp only [decode, ← hop, h, withValue_congr hval]

theorem decode_congr_of_op_read {r r' : Request} (hop : r.op = r'.op) (h : 8 ≤ r.op.toNat) (h' : r.op.toNat ≤ 11)
    (hoffset : r.offset = r'.offset) (hbuf : r.buf = r'.buf) : decode r = decode r' := by
  have hcodes : r.op.toNat = 8 ∨ r.op.toNat = 9 ∨ r.op.toNat = 10 ∨ r.op.toNat = 11 := by omega
  rcases hcodes with h | h | h | h <;> simp only [decode, ← hop, h, hoffset, hbuf]

theorem decode_congr_of_op_write {r r' : Request} (hop : r.op = r'.op) (h : 12 ≤ r.op.toNat) (hval : r.val = r'.val)
    (hoffset : r.offset = r'.offset) (hbuf : r.buf = r'.buf) : decode r = decode r' := by
  have hlt := r.op.isLt
  have hcodes : r.op.toNat = 12 ∨ r.op.toNat = 13 ∨ r.op.toNat = 14 ∨ r.op.toNat = 15 := by omega
  rcases hcodes with h | h | h | h <;>
    simp only [decode, ← hop, h, hoffset, hbuf, withValue_congr hval]

/-- Settles O34, by the groups of operations that read the same ports. -/
theorem unusedOperandFieldsAreIgnored : Obligations.UnusedOperandFieldsAreIgnored := fun r r' hop =>
  ⟨fun h hhi => by rw [decode_of_op_dec32 h, decode_of_op_dec32 (hop ▸ h), hhi],
    fun h hhi hlo => by rw [decode_of_op_dec64 h, decode_of_op_dec64 (hop ▸ h), hhi, hlo],
    decode_congr_of_op_encode hop, decode_congr_of_op_read hop, decode_congr_of_op_write hop⟩

/-! ### The reserved codes (R43) -/

theorem decode_of_reserved {r : Request}
    (h : r.op.toNat = 1 ∨ r.op.toNat = 3 ∨ r.op.toNat = 5 ∨ r.op.toNat = 7) :
    decode r = .error (.reservedOp r.op) := by
  rcases h with h | h | h | h <;> simp only [decode, h]

/-- A code of an operation without a value operand selects an operation, whatever the ports hold. -/
theorem decode_of_op_without_value {r : Request}
    (h : r.op.toNat = 0 ∨ r.op.toNat = 2 ∨ (8 ≤ r.op.toNat ∧ r.op.toNat ≤ 11)) : ∃ i, decode r = .ok i := by
  have hcodes : r.op.toNat = 0 ∨ r.op.toNat = 2 ∨ r.op.toNat = 8 ∨ r.op.toNat = 9 ∨ r.op.toNat = 10 ∨
      r.op.toNat = 11 := by omega
  rcases hcodes with h | h | h | h | h | h <;> exact ⟨_, by simp only [decode, h]; rfl⟩

/-- A code of an operation with a value operand selects an operation if the `val` port carries a value (R39). -/
theorem decode_of_op_with_value {r : Request} (h : r.op.toNat = 4 ∨ r.op.toNat = 6 ∨ 12 ≤ r.op.toNat) :
    ∃ f, decode r = withValue r f := by
  have hlt := r.op.isLt
  have hcodes : r.op.toNat = 4 ∨ r.op.toNat = 6 ∨ r.op.toNat = 12 ∨ r.op.toNat = 13 ∨ r.op.toNat = 14 ∨
      r.op.toNat = 15 := by omega
  rcases hcodes with h | h | h | h | h | h <;> exact ⟨_, by simp only [decode, h]; rfl⟩

theorem decode_eq_reservedOp_iff {r : Request} : decode r = .error (.reservedOp r.op) ↔
    r.op.toNat = 1 ∨ r.op.toNat = 3 ∨ r.op.toNat = 5 ∨ r.op.toNat = 7 := by
  refine ⟨fun hd => ?_, decode_of_reserved⟩
  have hlt := r.op.isLt
  by_contra hno
  by_cases hval : r.op.toNat = 4 ∨ r.op.toNat = 6 ∨ 12 ≤ r.op.toNat
  · obtain ⟨f, hf⟩ := decode_of_op_with_value hval
    exact withValue_ne_reservedOp r f r.op (hf.symm.trans hd)
  · obtain ⟨i, hi⟩ := decode_of_op_without_value (r := r) (by omega)
    cases hi.symm.trans hd

/-- A command is refused as reserved exactly when the decoder rejects its code as reserved. -/
theorem runRequest_eq_refused_reservedOp_iff {r : Request} {op : BitVec 4} {s : State} :
    runRequest r s = .refused (.reservedOp op) ↔ decode r = .error (.reservedOp op) := by
  cases hd : decode r with
  | ok i =>
    obtain ⟨t, ht, -⟩ := exec_next i s
    rw [runRequest_of_ok hd, ht]
    exact iff_of_false nofun nofun
  | error why =>
    rw [runRequest_of_error hd]
    cases why <;> simp [Reject.refusal]

theorem op_reserved_iff_toNat (op : BitVec 4) : op = 1#4 ∨ op = 3#4 ∨ op = 5#4 ∨ op = 7#4 ↔
    op.toNat = 1 ∨ op.toNat = 3 ∨ op.toNat = 5 ∨ op.toNat = 7 := by
  simp only [BitVec.toNat_eq]
  exact Iff.rfl

/-- Settles O35: the step refuses what the decoder rejects, and the decoder rejects just these codes. -/
theorem reservedCodesAreRefused : Obligations.ReservedCodesAreRefused := fun s r rest hin => by
  rw [step_of_inputs_cons hin, runInput, runRequest_eq_refused_reservedOp_iff,
    decode_eq_reservedOp_iff, op_reserved_iff_toNat]

/-! ### Commands written out -/

/-- Settles O33: the model computes each of the seven commands. -/
theorem writtenOutCommandsDecode : Obligations.WrittenOutCommandsDecode := ⟨rfl, rfl, rfl, rfl, rfl, rfl, rfl⟩

end Sys2Proof.Machine
end

section
/-! PROOFS. Which NaN patterns the encoders make (R38): the canonical one of a NaN, and of every other value none, because its
fields are those of a zero, a finite or an infinity; and of a finite value `ENC64` makes neither zero nor infinity (R82). -/

namespace Sys2Proof.Machine

/-! ### Patterns by their fields -/

theorem not_NaNPattern32_assemble32 {s : Sign} {E M : Nat} (hE : E ≤ 255) (hM : M < 2 ^ 23) (hinf : E = 255 → M = 0) :
    ¬ NaNPattern32 (assemble32 s (E, M)) := by
  rintro ⟨hexp, hman⟩
  rw [assemble32_toNat hE hM] at hexp hman
  omega

/-- The exponent field and the 63 bits without the sign of the pair that `SPLIT64` makes of two fields (R80). -/
theorem split64_fields {s : Sign} {E M : Nat} (hE : E ≤ 2047) (hM : M < 2 ^ 52) :
    (split64 s (E, M)).1.toNat / 2 ^ 20 % 2 ^ 11 = E ∧ mantissa64 (split64 s (E, M)).1 (split64 s (E, M)).2 = M ∧
      pairNat (split64 s (E, M)) % 2 ^ 63 = E * 2 ^ 52 + M := by
  obtain ⟨hhi, hlo⟩ := split64_toNat (s := s) hE hM
  rw [mantissa64, pairNat, hhi, hlo]
  omega

theorem not_NaNPattern64_split64 {s : Sign} {E M : Nat} (hE : E ≤ 2047) (hM : M < 2 ^ 52) (hinf : E = 2047 → M = 0) :
    ¬ NaNPattern64 (split64 s (E, M)).1 (split64 s (E, M)).2 := by
  obtain ⟨hexp, hman, -⟩ := split64_fields (s := s) hE hM
  rw [NaNPattern64, hexp, hman]
  exact fun h => h.2 (hinf h.1)

/-! ### The fields the encoders make -/

/-- `FINENC` of a magnitude of `F64pos` in binary64 makes the fields of a finite value other than zero (R79, R82 (b)). -/
theorem finenc_binary64_fields (x : F64pos) :
    ∃ E M : Nat, finenc binary64 x.val = (E, M) ∧ E ≤ 2046 ∧ M < 2 ^ 52 ∧ (E ≠ 0 ∨ M ≠ 0) := by
  rcases F64pos_normal_or_subnormal x with ⟨E, M, hE, hE', hM, hx⟩ | ⟨M, hM0, hM, hx⟩
  · exact ⟨E, M, hx ▸ finenc_of_normal hE hE' hM, Int.ofNat_le.mp hE', hM, .inl hE.ne'⟩
  · exact ⟨0, M, hx ▸ finenc_of_subnormal binary64_ok hM0 hM, by decide, hM, .inr hM0⟩

theorem enc32_zero (s : Sign) : enc32 (.zero s) = assemble32 s (0, 0) := by
  simp [enc32, signmag, special32, assemble32]

theorem enc32_inf (s : Sign) : enc32 (.inf s) = assemble32 s (255, 0) := by
  simp [enc32, signmag, special32, assemble32]

theorem enc64_zero (s : Sign) : enc64 (.zero s) = split64 s (0, 0) := by
  simp [enc64, signmag, special64, split64]

theorem enc64_inf (s : Sign) : enc64 (.inf s) = split64 s (2047, 0) := by
  simp [enc64, signmag, special64, split64]

theorem enc64_fin {x : F64pos} {E M : Nat} (h : finenc binary64 x.val = (E, M)) (s : Sign) :
    enc64 (.fin s x) = split64 s (E, M) := congrArg (split64 s) h

/-- Only a NaN is encoded to a binary32 NaN pattern (R38). -/
theorem eq_nan_of_NaNPattern32_enc32 {v : NV} (h : NaNPattern32 (enc32 v)) : v = .nan := by
  cases v with
  | nan => rfl
  | inf s => exact absurd (enc32_inf s ▸ h) (not_NaNPattern32_assemble32 (by decide) (by decide) fun _ => rfl)
  | zero s => exact absurd (enc32_zero s ▸ h) (not_NaNPattern32_assemble32 (by decide) (by decide) fun _ => rfl)
  | fin s x =>
    obtain ⟨hE, hM, hinf⟩ := finenc_ranges binary32_ok (F64pos_pos x)
    exact absurd h (not_NaNPattern32_assemble32 (Int.ofNat_le.mp hE) hM fun h => hinf (congrArg Nat.cast h))

/-- Only a NaN is encoded to a binary64 NaN pattern (R38). -/
theorem eq_nan_of_NaNPattern64_enc64 {v : NV} (h : NaNPattern64 (enc64 v).1 (enc64 v).2) : v = .nan := by
  cases v with
  | nan => rfl
  | inf s => exact absurd (enc64_inf s ▸ h) (not_NaNPattern64_split64 (by decide) (by decide) fun _ => rfl)
  | zero s => exact absurd (enc64_zero s ▸ h) (not_NaNPattern64_split64 (by decide) (by decide) fun _ => rfl)
  | fin s x =>
    obtain ⟨E, M, hf, hE, hM, -⟩ := finenc_binary64_fields x
    exact absurd (enc64_fin hf s ▸ h) (not_NaNPattern64_split64 (by omega) hM (by omega))

/-- `ENC64` of a finite value is a finite pattern other than zero (R82 (b)). -/
theorem enc64_fin_finite_ne_zero (s : Sign) (x : F64pos) :
    pairNat (enc64 (.fin s x)) % 2 ^ 63 ≠ 0 ∧ (enc64 (.fin s x)).1.toNat / 2 ^ 20 % 2 ^ 11 ≠ 2047 := by
  obtain ⟨E, M, hf, hE, hM, hne⟩ := finenc_binary64_fields x
  obtain ⟨hexp, -, hbits⟩ := split64_fields (s := s) (E := E) (by omega) hM
  rw [enc64_fin hf, hexp, hbits]
  omega

/-- Settles O27: the two decode codes read their words as they stand; the encoders' patterns by their fields. -/
theorem encodersProduceOnlyTheCanonicalNaN : Obligations.EncodersProduceOnlyTheCanonicalNaN := by
  refine ⟨fun r => ⟨fun h => decode_of_op_dec32 (by rw [h]; rfl), fun h => decode_of_op_dec64 (by rw [h]; rfl)⟩,
    fun v => ⟨fun h => ?_, fun h => ?_⟩, enc64_fin_finite_ne_zero⟩
  · obtain rfl := eq_nan_of_NaNPattern32_enc32 h
    exact ⟨rfl, rfl⟩
  · obtain rfl := eq_nan_of_NaNPattern64_enc64 h
    exact ⟨rfl, rfl⟩

end Sys2Proof.Machine
end

section
/-! PROOFS. The Word Assembler (R50 to R53): what it packs is the integer of its window's bytes, what it unpacks is the image
of its word or pair, and the two are inverse (R54) because the integer of `n` bytes and the `n`-byte image are. -/

namespace Sys2Proof.Machine

/-! ### The integer of `n` bytes and the bytes of an integer -/

theorem ofBytes_congr {b b' : Nat → Nat} {n : Nat} (h : ∀ i < n, b i = b' i) (o : Order) :
    ofBytes b n o = ofBytes b' n o := by
  cases o <;> exact Finset.sum_congr rfl fun i hi => by rw [h i (Finset.mem_range.mp hi)]

theorem ofBytes_zero (n : Nat) (o : Order) : ofBytes (fun _ => 0) n o = 0 := by
  cases o <;> simp [ofBytes]

/-- Most significant first is least significant first of the bytes in reverse. -/
theorem ofBytes_be_eq_le_reversed (b : Nat → Nat) (n : Nat) : ofBytes b n .be = ofBytes (fun i => b (n - 1 - i)) n .le := by
  simp only [ofBytes]
  rw [← Finset.sum_range_reflect]
  refine Finset.sum_congr rfl fun i hi => ?_
  rw [Nat.sub_sub_self (Nat.le_sub_one_of_lt (Finset.mem_range.mp hi))]

theorem ofBytes_le_succ (b : Nat → Nat) (n : Nat) :
    ofBytes b (n + 1) .le = ofBytes (fun i => b (i + 1)) n .le * 2 ^ 8 + b 0 := by
  simp only [ofBytes]
  rw [Finset.sum_range_succ', Finset.sum_mul]
  simp only [mul_add, pow_add, mul_assoc, mul_zero, mul_one, pow_zero]

theorem imageByte_le_succ (p n i : Nat) : imageByte p (n + 1) .le (i + 1) = imageByte (p / 2 ^ 8) n .le i := by
  simp only [imageByte]
  rw [Nat.div_div_eq_div_mul, ← pow_add, mul_add, add_comm, mul_one]

theorem imageByte_le_zero (p n : Nat) : imageByte p n .le 0 = p % 2 ^ 8 := by
  simp only [imageByte, mul_zero, pow_zero, Nat.div_one]

theorem imageByte_be_eq_le_reversed (p n i : Nat) : imageByte p n .be i = imageByte p n .le (n - 1 - i) := rfl

theorem imageByte_ofBytes_le {b : Nat → Nat} {n i : Nat} (hb : ∀ j < n, b j < 2 ^ 8) (hi : i < n) :
    imageByte (ofBytes b n .le) n .le i = b i := by
  induction n generalizing b i with
  | zero => exact absurd hi (Nat.not_lt_zero i)
  | succ n ih =>
    have h0 : b 0 < 2 ^ 8 := hb 0 n.succ_pos
    have hdiv (x : Nat) : (x * 2 ^ 8 + b 0) / 2 ^ 8 = x := by omega
    rw [ofBytes_le_succ]
    cases i with
    | zero => rw [imageByte_le_zero]; omega
    | succ i =>
      rw [imageByte_le_succ, hdiv]
      exact ih (fun j hj => hb (j + 1) (Nat.succ_lt_succ hj)) (Nat.lt_of_succ_lt_succ hi)

/-- Each byte of the integer of `n` bytes is the byte it was made of. -/
theorem imageByte_ofBytes {b : Nat → Nat} {n i : Nat} (hb : ∀ j < n, b j < 2 ^ 8) (hi : i < n) (o : Order) :
    imageByte (ofBytes b n o) n o i = b i := by
  cases o with
  | le => exact imageByte_ofBytes_le hb hi
  | be =>
    rw [ofBytes_be_eq_le_reversed, imageByte_be_eq_le_reversed,
      imageByte_ofBytes_le (fun j _ => hb _ (by omega)) (by omega), Nat.sub_sub_self (Nat.le_sub_one_of_lt hi)]

theorem ofBytes_imageByte_le {p n : Nat} (hp : p < 2 ^ (8 * n)) : ofBytes (imageByte p n .le) n .le = p := by
  induction n generalizing p with
  | zero => exact (Nat.lt_one_iff.mp hp).symm
  | succ n ih =>
    have hp' : p / 2 ^ 8 < 2 ^ (8 * n) := Nat.div_lt_of_lt_mul (by rwa [← pow_add, add_comm 8])
    simp only [ofBytes_le_succ, imageByte_le_succ, imageByte_le_zero]
    rw [ih hp', Nat.div_add_mod']

/-- The bytes of the image of an integer make the integer, if `n` bytes hold it. -/
theorem ofBytes_imageByte {p n : Nat} (hp : p < 2 ^ (8 * n)) (o : Order) : ofBytes (imageByte p n o) n o = p := by
  cases o with
  | le => exact ofBytes_imageByte_le hp
  | be =>
    rw [ofBytes_be_eq_le_reversed, ofBytes_congr fun i hi => ?_, ofBytes_imageByte_le hp]
    rw [imageByte_be_eq_le_reversed, Nat.sub_sub_self (Nat.le_sub_one_of_lt hi)]

/-! ### What is packed -/

theorem windowByte_lt (m : Memory) (buf : Buffer) (offset : Int) (i : Nat) : windowByte m buf offset i < 2 ^ 8 :=
  (memRead m buf (effectiveAddress offset i)).isLt

theorem windowByte_of_not_valid {buf : Buffer} {offset : Int} {i : Nat}
    (h : ¬ Buffer.Valid buf (effectiveAddress offset i)) (m : Memory) : windowByte m buf offset i = 0 := by
  rw [windowByte, memRead_of_not_valid h, BitVec.toNat_zero]

theorem windowByte_of_valid {buf : Buffer} {offset : Int} {i : Nat}
    (h : Buffer.Valid buf (effectiveAddress offset i)) (m : Memory) :
    windowByte m buf offset i = (Memory.read m (Buffer.cell buf (effectiveAddress offset i))).toNat := by
  rw [windowByte, memRead_of_valid h]

theorem windowByte_offset_add (m : Memory) (buf : Buffer) (offset : Int) (k i : Nat) :
    windowByte m buf (offset + k) i = windowByte m buf offset (k + i) := by
  simp [windowByte, effectiveAddress, add_assoc]

/-- `PACKW` is the integer of the four bytes of its window (R50). -/
theorem packw_toNat (m : Memory) (buf : Buffer) (offset : Int) (o : Order) :
    (packw m buf offset o).toNat = ofBytes (windowByte m buf offset) 4 o := by
  cases o <;> simp only [packw, wordOfBytes_toNat, ofBytes, Finset.sum_range_succ, Finset.sum_range_zero, windowByte] <;> omega

/-- Eight bytes are two words; the more significant one is the first under `BE`, the second under `LE` (R52). -/
theorem ofBytes_eight (b : Nat → Nat) :
    ofBytes b 8 .be = ofBytes b 4 .be * 2 ^ 32 + ofBytes (fun i => b (4 + i)) 4 .be ∧
    ofBytes b 8 .le = ofBytes (fun i => b (4 + i)) 4 .le * 2 ^ 32 + ofBytes b 4 .le := by
  simp only [ofBytes, Finset.sum_range_succ, Finset.sum_range_zero, Nat.reduceAdd]
  omega

/-- `PACKD` is the integer of the eight bytes of its window (R52). -/
theorem pairNat_packd (m : Memory) (buf : Buffer) (offset : Int) (o : Order) :
    pairNat (packd m buf offset o) = ofBytes (windowByte m buf offset) 8 o := by
  have hsecond : windowByte m buf (offset + 4) = fun i => windowByte m buf offset (4 + i) :=
    funext (windowByte_offset_add m buf offset 4)
  cases o <;> simp only [pairNat, packd, packw_toNat, hsecond, ofBytes_eight]

theorem packw_of_outOfBounds {buf : Buffer} {offset : Int} (h : OutOfBounds buf offset 4) (m : Memory) (o : Order) :
    packw m buf offset o = 0#32 := BitVec.eq_of_toNat_eq <| by
  rw [packw_toNat, ofBytes_congr fun i hi => windowByte_of_not_valid (h i hi) m, ofBytes_zero, BitVec.toNat_zero]

/-- Settles O40: a double is its two words, whose windows lie side by side. -/
theorem packIsTheIntegerOfTheWindow : Obligations.PackIsTheIntegerOfTheWindow := fun m buf offset o =>
  ⟨packw_toNat m buf offset o, fun h => packw_of_outOfBounds h m o, pairNat_packd m buf offset o⟩

/-! ### What is unpacked -/

/-- The byte writes of the `n`-byte image of the integer `p` to the window at `offset` (R24, R49). -/
def imageStores (offset : Int) (p n : Nat) (o : Order) : List Store :=
  (List.range n).map fun i => (effectiveAddress offset i, BitVec.ofNat 8 (imageByte p n o i))

theorem mem_imageStores {offset : Int} {p n : Nat} {o : Order} {w : Store} : w ∈ imageStores offset p n o ↔
    ∃ i < n, (effectiveAddress offset i, BitVec.ofNat 8 (imageByte p n o i)) = w := by
  simp only [imageStores, List.mem_map, List.mem_range]

theorem imageStores_nodup (offset : Int) (p n : Nat) (o : Order) : ((imageStores offset p n o).map Prod.fst).Nodup := by
  rw [imageStores, List.map_map]
  exact List.nodup_range.map fun _ _ h => Int.ofNat.inj (Int.add_left_cancel h)

theorem imageByte_lt (p n : Nat) (o : Order) (i : Nat) : imageByte p n o i < 2 ^ 8 := by
  cases o <;> exact Nat.mod_lt _ (by decide)

/-- The byte writes of an image leave it in the in-range part of the window, and every other byte as it was. -/
theorem imageWritten_imageStores {m : Memory} (hm : Memory.wf m = true) (buf : Buffer) (offset : Int) (p n : Nat)
    (o : Order) : ImageWritten m (memWriteAll m buf (imageStores offset p n o)) buf offset p n o := by
  refine ⟨fun i hi hv => ?_, fun h hother => read_memWriteAll_other hm buf _ h fun w hw hv => ?_⟩
  · rw [read_memWriteAll_mem hm buf _ (imageStores_nodup offset p n o) (mem_imageStores.mpr ⟨i, hi, rfl⟩) hv,
      BitVec.toNat_ofNat, Nat.mod_eq_of_lt (imageByte_lt p n o i)]
  · obtain ⟨i, hi, rfl⟩ := mem_imageStores.mp hw
    exact hother i hi hv

theorem wordByte_eq_ofNat (w : BitWord32) (k : Nat) : wordByte w k = BitVec.ofNat 8 (w.toNat / 2 ^ (8 * k) % 2 ^ 8) :=
  BitVec.eq_of_toNat_eq <| by rw [BitVec.toNat_ofNat, wordByte_toNat, Nat.mod_mod]

/-- `UNPACKW` issues the byte writes of the image of its word (R51). -/
theorem unpackw_eq_imageStores (offset : Int) (w : BitWord32) (o : Order) :
    unpackw offset w o = imageStores offset w.toNat 4 o := by
  cases o <;> simp [unpackw, imageStores, imageByte, wordByte_eq_ofNat, List.range_succ]

/-- The least significant byte first, the image of a pair is that of its low word and then that of its high word (R53). -/
theorem imageByte_pairNat_le (p : BitWord32 × BitWord32) {i : Nat} (hi : i < 4) :
    imageByte (pairNat p) 8 .le i = imageByte p.2.toNat 4 .le i ∧
    imageByte (pairNat p) 8 .le (4 + i) = imageByte p.1.toNat 4 .le i := by
  have hlo := p.2.isLt
  simp only [imageByte, pairNat]
  interval_cases i <;> omega

/-- The most significant byte first, it is that of the high word and then that of the low word (R53). -/
theorem imageByte_pairNat_be (p : BitWord32 × BitWord32) {i : Nat} (hi : i < 4) :
    imageByte (pairNat p) 8 .be i = imageByte p.1.toNat 4 .be i ∧
    imageByte (pairNat p) 8 .be (4 + i) = imageByte p.2.toNat 4 .be i := by
  obtain ⟨hlow, hhigh⟩ := imageByte_pairNat_le p (i := 4 - 1 - i) (by omega)
  rw [← imageByte_be_eq_le_reversed] at hlow hhigh
  rw [← hlow, ← hhigh, imageByte_be_eq_le_reversed, imageByte_be_eq_le_reversed]
  constructor <;> congr 1 <;> omega

/-- Two images side by side are one image, if its bytes are theirs. -/
theorem imageStores_append (offset : Int) {p p₁ p₂ k n : Nat} {o : Order}
    (h₁ : ∀ i < k, imageByte p (k + n) o i = imageByte p₁ k o i)
    (h₂ : ∀ i < n, imageByte p (k + n) o (k + i) = imageByte p₂ n o i) :
    imageStores offset p₁ k o ++ imageStores (offset + k) p₂ n o = imageStores offset p (k + n) o := by
  simp only [imageStores, List.range_add, List.map_append, List.map_map]
  congr 1
  · exact List.map_congr_left fun i hi => by rw [h₁ i (List.mem_range.mp hi)]
  · refine List.map_congr_left fun i hi => ?_
    simp [h₂ i (List.mem_range.mp hi), effectiveAddress, add_assoc]

/-- `UNPACKD` issues the byte writes of the image of its word pair (R53). -/
theorem unpackd_eq_imageStores (offset : Int) (p : BitWord32 × BitWord32) (o : Order) :
    unpackd offset p o = imageStores offset (pairNat p) 8 o := by
  cases o with
  | be =>
    rw [unpackd, unpackw_eq_imageStores, unpackw_eq_imageStores]
    exact imageStores_append offset (fun i hi => (imageByte_pairNat_be p hi).1) fun i hi => (imageByte_pairNat_be p hi).2
  | le =>
    rw [unpackd, unpackw_eq_imageStores, unpackw_eq_imageStores]
    exact imageStores_append offset (fun i hi => (imageByte_pairNat_le p hi).1) fun i hi => (imageByte_pairNat_le p hi).2

theorem imageWritten_unpackw {m : Memory} (hm : Memory.wf m = true) (buf : Buffer) (offset : Int) (w : BitWord32)
    (o : Order) : ImageWritten m (memWriteAll m buf (unpackw offset w o)) buf offset w.toNat 4 o :=
  unpackw_eq_imageStores offset w o ▸ imageWritten_imageStores hm buf offset w.toNat 4 o

theorem imageWritten_unpackd {m : Memory} (hm : Memory.wf m = true) (buf : Buffer) (offset : Int)
    (p : BitWord32 × BitWord32) (o : Order) :
    ImageWritten m (memWriteAll m buf (unpackd offset p o)) buf offset (pairNat p) 8 o :=
  unpackd_eq_imageStores offset p o ▸ imageWritten_imageStores hm buf offset (pairNat p) 8 o

/-- Settles O41: both issue the byte writes of an image. -/
theorem unpackWritesTheImage : Obligations.UnpackWritesTheImage := fun _ buf offset o hm =>
  ⟨fun w => imageWritten_unpackw hm buf offset w o, fun p => imageWritten_unpackd hm buf offset p o⟩

/-! ### The inverse laws -/

theorem pairNat_inj {p p' : BitWord32 × BitWord32} (h : pairNat p = pairNat p') : p = p' := by
  have hlo := p.2.isLt
  have hlo' := p'.2.isLt
  unfold pairNat at h
  exact Prod.ext (BitVec.eq_of_toNat_eq (by omega)) (BitVec.eq_of_toNat_eq (by omega))

theorem pairNat_lt (p : BitWord32 × BitWord32) : pairNat p < 2 ^ 64 := by
  have hhi := p.1.isLt
  have hlo := p.2.isLt
  unfold pairNat
  omega

theorem valid_of_inBounds {buf : Buffer} {offset : Int} {n i : Nat} (h : InBounds buf offset n) (hi : i < n) :
    Buffer.Valid buf (effectiveAddress offset i) := by
  obtain ⟨h0, hn⟩ := h
  unfold effectiveAddress
  constructor <;> omega

section
variable {m m' : Memory} {buf : Buffer} {offset : Int} {p n : Nat} {o : Order}

/-- A window that an image was written to holds its in-range bytes, and reads 0 elsewhere. -/
theorem windowByte_of_imageWritten (h : ImageWritten m m' buf offset p n o) {i : Nat} (hi : i < n) :
    windowByte m' buf offset i = if Buffer.Valid buf (effectiveAddress offset i) then imageByte p n o i else 0 := by
  obtain ⟨hwritten, -⟩ := h
  split
  case isTrue hv => rw [windowByte_of_valid hv, hwritten i hi hv]
  case isFalse hv => exact windowByte_of_not_valid hv m'

/-- A window in bounds that an image was written to holds the integer of the image. -/
theorem ofBytes_of_imageWritten (h : ImageWritten m m' buf offset p n o) (hin : InBounds buf offset n)
    (hp : p < 2 ^ (8 * n)) : ofBytes (windowByte m' buf offset) n o = p :=
  calc ofBytes (windowByte m' buf offset) n o
      = ofBytes (imageByte p n o) n o :=
        ofBytes_congr (fun _ hi => (windowByte_of_imageWritten h hi).trans (if_pos (valid_of_inBounds hin hi))) o
    _ = p := ofBytes_imageByte hp o

/-- To write a window's own integer back changes nothing. -/
theorem eq_of_imageWritten_ofBytes (hm : Memory.wf m = true) (hm' : Memory.wf m' = true)
    (h : ImageWritten m m' buf offset (ofBytes (windowByte m buf offset) n o) n o) : m' = m := by
  obtain ⟨hwritten, hother⟩ := h
  refine Memory.ext_of_wf hm' hm fun c => ?_
  by_cases hc : ∃ i < n, Buffer.Valid buf (effectiveAddress offset i) ∧ c = Buffer.cell buf (effectiveAddress offset i)
  · obtain ⟨i, hi, hv, rfl⟩ := hc
    apply BitVec.eq_of_toNat_eq
    rw [hwritten i hi hv, imageByte_ofBytes (fun j _ => windowByte_lt m buf offset j) hi, windowByte_of_valid hv]
  · exact hother c fun i hi hv hcell => hc ⟨i, hi, hv, hcell⟩

end

/-- Byte `i` of the image of a packed word is the byte of the window (R50, R37). -/
theorem imageByte_packw (m : Memory) (buf : Buffer) (offset : Int) (o : Order) {i : Nat} (hi : i < 4) :
    imageByte (packw m buf offset o).toNat 4 o i = windowByte m buf offset i := by
  rw [packw_toNat, imageByte_ofBytes (fun j _ => windowByte_lt m buf offset j) hi]

theorem packw_unpackw {m : Memory} (hm : Memory.wf m = true) {buf : Buffer} {offset : Int} (hin : InBounds buf offset 4)
    (w : BitWord32) (o : Order) : packw (memWriteAll m buf (unpackw offset w o)) buf offset o = w :=
  BitVec.eq_of_toNat_eq <|
    (packw_toNat _ buf offset o).trans (ofBytes_of_imageWritten (imageWritten_unpackw hm buf offset w o) hin w.isLt)

theorem packd_unpackd {m : Memory} (hm : Memory.wf m = true) {buf : Buffer} {offset : Int} (hin : InBounds buf offset 8)
    (p : BitWord32 × BitWord32) (o : Order) : packd (memWriteAll m buf (unpackd offset p o)) buf offset o = p :=
  pairNat_inj <|
    (pairNat_packd _ buf offset o).trans (ofBytes_of_imageWritten (imageWritten_unpackd hm buf offset p o) hin (pairNat_lt p))

theorem memWriteAll_unpackw_packw {m : Memory} (hm : Memory.wf m = true) (buf : Buffer) (offset : Int) (o : Order) :
    memWriteAll m buf (unpackw offset (packw m buf offset o) o) = m :=
  eq_of_imageWritten_ofBytes hm (wf_memWriteAll hm buf _)
    (packw_toNat m buf offset o ▸ imageWritten_unpackw hm buf offset (packw m buf offset o) o)

theorem memWriteAll_unpackd_packd {m : Memory} (hm : Memory.wf m = true) (buf : Buffer) (offset : Int) (o : Order) :
    memWriteAll m buf (unpackd offset (packd m buf offset o) o) = m :=
  eq_of_imageWritten_ofBytes hm (wf_memWriteAll hm buf _)
    (pairNat_packd m buf offset o ▸ imageWritten_unpackd hm buf offset (packd m buf offset o) o)

/-- The `LE` and the `BE` word of one window are each other's bytes in reverse (R54 (d)). -/
theorem imageByte_packw_reversed (m : Memory) (buf : Buffer) (offset : Int) {i : Nat} (hi : i < 4) :
    imageByte (packw m buf offset .le).toNat 4 .be i = imageByte (packw m buf offset .be).toNat 4 .le i := by
  have hi' : 4 - 1 - i < 4 := by omega
  calc imageByte (packw m buf offset .le).toNat 4 .be i
      = windowByte m buf offset (4 - 1 - i) := imageByte_packw m buf offset .le hi'
    _ = imageByte (packw m buf offset .be).toNat 4 .be (4 - 1 - i) := (imageByte_packw m buf offset .be hi').symm
    _ = imageByte (packw m buf offset .be).toNat 4 .le i := by
        rw [imageByte_be_eq_le_reversed, Nat.sub_sub_self (Nat.le_sub_one_of_lt hi)]

/-- Settles O42: (a) and (b) by the integers, (c) and (d) byte by byte, (e) by the definition of `PACKD`. -/
theorem packAndUnpackAreInverse : Obligations.PackAndUnpackAreInverse := fun m buf offset o hm =>
  ⟨fun hin => ⟨fun w => packw_unpackw hm hin w o, memWriteAll_unpackw_packw hm buf offset o⟩,
   fun hin => ⟨fun p => ⟨packd_unpackd hm hin p o, congrArg Prod.fst (packd_unpackd hm hin p .be)⟩,
     memWriteAll_unpackd_packd hm buf offset o⟩,
   fun w _ hi => (imageByte_packw _ buf offset o hi).trans
     (windowByte_of_imageWritten (imageWritten_unpackw hm buf offset w o) hi),
   fun _ hi => imageByte_packw_reversed m buf offset hi,
   rfl⟩

end Sys2Proof.Machine
end

section
/-! PROOFS. The Normalizer (R55 to R59): the closed form is the one pair of R55, on a pair `(K, q)` it is a leading-zero
count, and the staged procedure of R57 ends at it because each stage keeps `m * 2^e = x` and leaves `m` within the bounds
that the next stage starts from. -/

namespace Sys2Proof.Machine

/-! ### The pair `(K, q)` -/

theorem normalFormPair_bounds {K : Nat} (h0 : K ≠ 0) (hK : K < 2 ^ 53) (q : Int) :
    2 ^ 52 ≤ (normalFormPair K q).2 ∧ (normalFormPair K q).2 < 2 ^ 53 := shift_to_bit52_bounds h0 hK

theorem normalFormPair_exponent_bounds {K : Nat} (h0 : K ≠ 0) (hK : K < 2 ^ 53) (q : Int) :
    q ≤ (normalFormPair K q).1 ∧ (normalFormPair K q).1 ≤ q + 52 := by
  have hl : Nat.log2 K < 53 := (Nat.log2_lt h0).mpr hK
  simp only [normalFormPair]
  omega

/-- The pair of R59 denotes the same magnitude: its integer counts units of `2^(e - 52)`. -/
theorem normalFormPair_value {K : Nat} (h0 : K ≠ 0) (hK : K < 2 ^ 53) (q : Int) :
    (K : ℚ) * 2 ^ q = ((normalFormPair K q).2 : ℚ) / 2 ^ 52 * POW2 (normalFormPair K q).1 := by
  have hl : Nat.log2 K < 53 := (Nat.log2_lt h0).mpr hK
  have hexp : (normalFormPair K q).1 = 52 + (q - (52 - Nat.log2 K : Nat)) := by
    simp only [normalFormPair]; omega
  have hunit : POW2 52 = 2 ^ 52 := POW2_natCast 52
  rw [hexp, POW2_add, hunit, POW2_eq_zpow, ← mul_assoc, div_mul_cancel₀ _ (by norm_num)]
  exact natCast_mul_zpow_eq_shift K (52 - Nat.log2 K) q

theorem normalForm_eq_normalFormPair {K : Nat} (h0 : K ≠ 0) (hK : K < 2 ^ 53) (q : Int) :
    normalForm (K * (2 : ℚ) ^ q) = ((normalFormPair K q).1, ((normalFormPair K q).2 : ℚ) / 2 ^ 52) := by
  obtain ⟨hge, hlt⟩ := normalFormPair_bounds h0 hK q
  have hge' : (2 : ℚ) ^ 52 ≤ (normalFormPair K q).2 := by exact_mod_cast hge
  have hlt' : ((normalFormPair K q).2 : ℚ) < 2 ^ 53 := by exact_mod_cast hlt
  apply normalForm_unique (normalFormPair_value h0 hK q)
  · exact (one_le_div₀ (by positivity)).mpr hge'
  · exact (div_lt_iff₀ (by positivity)).mpr (by linarith)

/-- Settles O6: the pair of R59 denotes `K * 2^q` and its integer has 53 bits, so it is the pair of R55. -/
theorem normalFormIsALeadingZeroCount : Obligations.NormalFormIsALeadingZeroCount :=
  ⟨fun _ q h1 hK => ⟨normalForm_eq_normalFormPair (Nat.pos_iff_ne_zero.mp h1) hK q,
    normalFormPair_bounds (Nat.pos_iff_ne_zero.mp h1) hK q⟩, by decide⟩

/-! ### The one pair of R55 -/

theorem normalForm_zpow (n : Int) : normalForm ((2 : ℚ) ^ n) = (n, 1) :=
  normalForm_unique (by rw [POW2_eq_zpow, one_mul]) le_rfl one_lt_two

/-- Settles O3: existence and uniqueness are the laws of R55, the corner cases and the example instances of uniqueness. -/
theorem normalFormIsTheUniquePair : Obligations.NormalFormIsTheUniquePair := by
  refine ⟨fun x hx => ?_, normalForm_zpow, ?_, ?_⟩
  · obtain ⟨heq, h1, h2⟩ := normalForm_spec hx
    have hb := log_bounds hx
    simp only [POW2_eq_zpow] at heq hb
    exact ⟨heq, h1, h2, hb, fun e m hm hm' he => (normalForm_unique (POW2_eq_zpow e ▸ he) hm hm').symm⟩
  · exact normalForm_unique (by rw [POW2_eq_zpow]) (by norm_num) (by norm_num)
  · exact normalForm_unique (by rw [POW2_eq_zpow]; norm_num) (by norm_num) (by norm_num)

/-! ### Ranges over `F64pos` -/

/-- Settles O4: a magnitude of `F64pos` is a pair `(K, q)`, and the ranges are those of its leading-zero count. -/
theorem normalFormRangesOverF64pos : Obligations.NormalFormRangesOverF64pos := by
  rintro ⟨-, K, q, h1, hK, hq, hq', rfl⟩
  have h0 : K ≠ 0 := Nat.pos_iff_ne_zero.mp h1
  obtain ⟨hge, hle⟩ := normalFormPair_exponent_bounds h0 hK q
  rw [normalForm_eq_normalFormPair h0 hK q]
  exact ⟨hq.trans hge, hle.trans (by omega), (normalFormPair K q).2, div_mul_cancel₀ _ (by norm_num),
    normalFormPair_bounds h0 hK q⟩

theorem POW2_bounds_of_F64pos (x : F64pos) : POW2 (-1074) ≤ x.val ∧ x.val < POW2 1024 := by
  have hpos : 0 < x.val := (by positivity : (0 : ℚ) < 2 ^ (-1074 : Int)).trans_le (least_le_of_inF64pos x.2)
  obtain ⟨hge, hle, -⟩ := normalFormRangesOverF64pos x
  exact ⟨(le_log_iff hpos).mp hge, (log_lt_iff hpos).mp (Int.lt_add_one_of_le hle)⟩

/-! ### The stages of R57 -/

/-- The invariant of the loops of R57, `m * 2^e = x`, with the bounds `2^lo <= m < 2^hi` that hold between two stages. -/
def Scaled (x : ℚ) (lo hi : Int) (p : Int × ℚ) : Prop :=
  x = p.2 * POW2 p.1 ∧ POW2 lo ≤ p.2 ∧ p.2 < POW2 hi

section
variable {x : ℚ} {lo hi : Int} {p : Int × ℚ}

/-- At the start of the procedure, `e = 0` and `m = x`. -/
theorem scaled_start (hlo : POW2 lo ≤ x) (hhi : x < POW2 hi) : Scaled x lo hi (0, x) :=
  ⟨by rw [POW2_zero, mul_one], hlo, hhi⟩

theorem Scaled.mono {lo' hi' : Int} (h : Scaled x lo hi p) (hlo : lo' ≤ lo) (hhi : hi ≤ hi') : Scaled x lo' hi' p := by
  obtain ⟨heq, hge, hlt⟩ := h
  exact ⟨heq, (POW2_le_POW2.mpr hlo).trans hge, hlt.trans_le (POW2_le_POW2.mpr hhi)⟩

/-- The body of a loop, in either direction: `m <- m * 2^k; e <- e - k`. -/
theorem Scaled.shift (h : Scaled x lo hi p) (k : Int) : Scaled x (lo + k) (hi + k) (p.1 - k, p.2 * POW2 k) := by
  obtain ⟨heq, hge, hlt⟩ := h
  refine ⟨?_, ?_, ?_⟩
  · rw [mul_assoc, ← POW2_add, add_sub_cancel]; exact heq
  · rw [POW2_add]; exact mul_le_mul_of_nonneg_right hge (POW2_pos k).le
  · rw [POW2_add]; exact mul_lt_mul_of_pos_right hlt (POW2_pos k)

/-- With `1 <= m < 2` the procedure has the pair of R55. -/
theorem Scaled.eq_normalForm (h : Scaled x 0 1 p) : p = normalForm x := by
  obtain ⟨heq, hge, hlt⟩ := h
  rw [POW2_zero] at hge
  rw [POW2_one] at hlt
  exact (normalForm_unique heq hge hlt).symm

/-- A downward stage: `fuel` rounds suffice for `m < 2^(step * (fuel + 1))`. -/
theorem scaled_stageDown {step fuel : Nat} (hhi : hi ≤ step * (fuel + 1)) (h : Scaled x 0 hi p) :
    Scaled x 0 step (stageDown step fuel p) := by
  induction fuel generalizing hi p with
  | zero => exact h.mono le_rfl (by simpa using hhi)
  | succ fuel ih =>
    obtain ⟨heq, hge, hlt⟩ := h
    rw [stageDown]
    split
    next hm =>
      have hshift := Scaled.shift (p := p) (lo := step) ⟨heq, hm, hlt⟩ (-step)
      rw [sub_neg_eq_add, POW2_neg, ← div_eq_mul_inv, add_neg_cancel] at hshift
      exact ih (by push_cast at hhi; linarith) hshift
    next hm => exact ⟨heq, hge, not_le.mp hm⟩

/-- An upward stage with the test `m < 2^b`: `fuel` rounds suffice for `2^(b - step * fuel) <= m`, and one round keeps
`m < 2`. -/
theorem scaled_stageUp {step fuel : Nat} {b : Int} (hb : b + step ≤ 1) (hlo : b ≤ lo + step * fuel)
    (h : Scaled x lo 1 p) : Scaled x b 1 (stageUp step (POW2 b) fuel p) := by
  induction fuel generalizing lo p with
  | zero => exact h.mono (by simpa using hlo) le_rfl
  | succ fuel ih =>
    obtain ⟨heq, hge, hlt⟩ := h
    rw [stageUp]
    split
    next hm => exact ih (by push_cast at hlo; linarith) ((Scaled.shift ⟨heq, hge, hm⟩ step).mono le_rfl hb)
    next hm => exact ⟨heq, not_lt.mp hm, hlt⟩

end

/-- Settles O5: each stage ends within the bounds the next one starts from, and the last one with `1 <= m < 2`. -/
theorem stagedNormalizerComputesTheNormalForm : Obligations.StagedNormalizerComputesTheNormalForm := by
  intro x
  obtain ⟨hleast, hgreatest⟩ := POW2_bounds_of_F64pos x
  apply Scaled.eq_normalForm
  rw [normalFormStaged]
  split_ifs with h2 h1
  · have hstart := scaled_start (POW2_zero ▸ one_le_two.trans h2) hgreatest
    have h256 := scaled_stageDown (step := 256) (fuel := 3) (by norm_num) hstart
    have h32 := scaled_stageDown (step := 32) (fuel := 7) (by norm_num) h256
    have h4 := scaled_stageDown (step := 4) (fuel := 7) (by norm_num) h32
    exact scaled_stageDown (step := 1) (fuel := 3) (by norm_num) h4
  · have hstart := scaled_start hleast (POW2_one ▸ h1.trans one_lt_two)
    have h256 := scaled_stageUp (step := 256) (fuel := 4) (b := -256) (by norm_num) (by norm_num) hstart
    have h32 := scaled_stageUp (step := 32) (fuel := 7) (b := -32) (by norm_num) (by norm_num) h256
    have h4 := scaled_stageUp (step := 4) (fuel := 7) (b := -4) (by norm_num) (by norm_num) h32
    have hlast := scaled_stageUp (step := 1) (fuel := 4) (b := 0) (by norm_num) (by norm_num) h4
    rwa [POW2_zero] at hlast
  · exact scaled_start (POW2_zero ▸ not_lt.mp h1) (POW2_one ▸ not_le.mp h2)

end Sys2Proof.Machine
end

section
/-! PROOFS. The Rounder (R60 to R63): which of the two neighbours of `y = f * 2^k` it chooses, from where on its result
reaches a given integer, which gives the ranges and the carry of R62, and the operands that `FINENC` hands it. -/

namespace Sys2Proof.Machine

theorem roundToScale_eq_roundHalfEven (f : ℚ) (k : Nat) : roundToScale f k = roundHalfEven (f * 2 ^ k) := by
  rw [roundToScale, POW2_natCast]

/-! ### The choice of R60 -/

theorem roundHalfEven_of_half_lt {y : ℚ} (h : 1 / 2 < y - ⌊y⌋₊) : roundHalfEven y = ⌊y⌋₊ + 1 := if_pos h

theorem roundHalfEven_of_lt_half {y : ℚ} (h : y - ⌊y⌋₊ < 1 / 2) : roundHalfEven y = ⌊y⌋₊ := by
  rw [roundHalfEven, if_neg h.not_gt, if_pos h]

theorem roundHalfEven_of_tie {y : ℚ} (h : y - ⌊y⌋₊ = 1 / 2) :
    roundHalfEven y = if ⌊y⌋₊ % 2 = 0 then ⌊y⌋₊ else ⌊y⌋₊ + 1 := by
  rw [roundHalfEven, if_neg h.not_gt, if_neg h.not_lt]

theorem roundHalfEven_even_of_tie {y : ℚ} (h : y - ⌊y⌋₊ = 1 / 2) : roundHalfEven y % 2 = 0 := by
  rw [roundHalfEven_of_tie h]
  split_ifs <;> omega

/-- "Add 0.5 and floor" goes up at every tie (R61). -/
theorem floor_add_half_of_tie {y : ℚ} (h : y - ⌊y⌋₊ = 1 / 2) : ⌊y + 1 / 2⌋₊ = ⌊y⌋₊ + 1 := by
  have hsum : y + 1 / 2 = ((⌊y⌋₊ + 1 : Nat) : ℚ) := by push_cast; linarith
  rw [hsum, Nat.floor_natCast]

/-- Settles O7, by the side of one half that the fraction of `f * 2^k` lies on. -/
theorem roundGoesToTheNearestTiesToEven : Obligations.RoundGoesToTheNearestTiesToEven := by
  intro f k hf
  simp only [roundToScale_eq_roundHalfEven]
  exact ⟨roundHalfEven_of_half_lt, roundHalfEven_of_lt_half,
    fun ht heven => ⟨(roundHalfEven_of_tie ht).trans (if_pos heven), floor_add_half_of_tie ht⟩,
    fun ht hodd => ⟨(roundHalfEven_of_tie ht).trans (if_neg (by omega)), floor_add_half_of_tie ht⟩,
    roundHalfEven_even_of_tie,
    fun j => (roundHalfEven_nearest (by positivity) j).1,
    fun j hj => hj ▸ roundHalfEven_natCast j⟩

/-! ### From where on the result reaches an integer -/

/-- An even integer is reached from the tie below it on. -/
theorem le_roundHalfEven_iff_of_even {y : ℚ} (hy : 0 ≤ y) {n : Nat} (hn : n % 2 = 0) :
    n ≤ roundHalfEven y ↔ (n : ℚ) - 1 / 2 ≤ y := by
  obtain ⟨hnear, heven⟩ := roundHalfEven_spec hy
  obtain ⟨hlow, hhigh⟩ := abs_le.mp hnear
  constructor
  · intro h
    have hcast : (n : ℚ) ≤ roundHalfEven y := by exact_mod_cast h
    linarith
  · intro h
    by_contra hlt
    have hcast : (roundHalfEven y : ℚ) + 1 ≤ n := by exact_mod_cast not_le.mp hlt
    have htie : (roundHalfEven y : ℚ) - y = -(1 / 2) := by linarith
    have hpred : n = roundHalfEven y + 1 := by exact_mod_cast (by linarith : (n : ℚ) = roundHalfEven y + 1)
    have := heven (by rw [htie, abs_neg, abs_of_pos (by norm_num)])
    omega

/-- An odd integer is reached only above the tie below it. -/
theorem le_roundHalfEven_iff_of_odd {y : ℚ} (hy : 0 ≤ y) {n : Nat} (hn : n % 2 = 1) :
    n ≤ roundHalfEven y ↔ (n : ℚ) - 1 / 2 < y := by
  obtain ⟨hnear, heven⟩ := roundHalfEven_spec hy
  obtain ⟨hlow, hhigh⟩ := abs_le.mp hnear
  constructor
  · intro h
    by_contra hle
    have hcast : (n : ℚ) ≤ roundHalfEven y := by exact_mod_cast h
    have htie : (roundHalfEven y : ℚ) - y = 1 / 2 := by linarith
    have hself : n = roundHalfEven y := by exact_mod_cast (by linarith : (n : ℚ) = roundHalfEven y)
    have := heven (by rw [htie, abs_of_pos (by norm_num)])
    omega
  · intro h
    by_contra hlt
    have hcast : (roundHalfEven y : ℚ) + 1 ≤ n := by exact_mod_cast not_le.mp hlt
    linarith

/-! ### Ranges and the carry -/

theorem roundToScale_le_two_pow {f : ℚ} {j : Nat} (h0 : 0 ≤ f) (h : f ≤ 2 ^ j) (k : Nat) :
    roundToScale f k ≤ 2 ^ (k + j) := by
  rw [roundToScale_eq_roundHalfEven]
  apply roundHalfEven_le (by positivity)
  calc f * 2 ^ k ≤ 2 ^ j * 2 ^ k := mul_le_mul_of_nonneg_right h (by positivity)
    _ = ((2 ^ (k + j) : Nat) : ℚ) := by push_cast; ring

theorem two_pow_le_roundToScale {m : ℚ} (h : 1 ≤ m) (k : Nat) : 2 ^ k ≤ roundToScale m k := by
  rw [roundToScale_eq_roundHalfEven]
  apply le_roundHalfEven
  push_cast
  exact le_mul_of_one_le_left (by positivity) h

theorem roundToScale_le_of_lt_one {f : ℚ} (h0 : 0 ≤ f) (h1 : f < 1) (k : Nat) : roundToScale f k ≤ 2 ^ k :=
  roundToScale_le_two_pow (j := 0) h0 (by rw [pow_zero]; exact h1.le) k

theorem roundToScale_le_of_lt_two {f : ℚ} (h0 : 0 ≤ f) (h2 : f < 2) (k : Nat) : roundToScale f k ≤ 2 ^ (k + 1) :=
  roundToScale_le_two_pow (j := 1) h0 (by rw [pow_one]; exact h2.le) k

/-- The carry of R62: for `k > 0` the integer `2^k` is even, so the tie below it goes up to it. -/
theorem roundToScale_eq_two_pow_iff {f : ℚ} {k : Nat} (h0 : 0 ≤ f) (h1 : f < 1) (hk : 0 < k) :
    roundToScale f k = 2 ^ k ↔ f * 2 ^ k ≥ 2 ^ k - 1 / 2 := by
  have heven : 2 ^ k % 2 = 0 := Nat.mod_eq_zero_of_dvd (dvd_pow_self 2 hk.ne')
  rw [← LE.le.ge_iff_eq (roundToScale_le_of_lt_one h0 h1 k), roundToScale_eq_roundHalfEven,
    le_roundHalfEven_iff_of_even (by positivity) heven]
  push_cast
  rfl

/-- The carry at `k = 0`: the integer 1 is odd, so the tie below it stays at 0 (R60). -/
theorem roundToScale_zero_eq_one_iff {f : ℚ} (h0 : 0 ≤ f) (h1 : f < 1) : roundToScale f 0 = 1 ↔ f > 1 / 2 := by
  have hle : roundToScale f 0 ≤ 1 := roundToScale_le_of_lt_one h0 h1 0
  rw [← LE.le.ge_iff_eq hle, roundToScale_eq_roundHalfEven, pow_zero, mul_one, le_roundHalfEven_iff_of_odd h0 rfl]
  norm_num

/-- Settles O8: `2^k` is even but for `k = 0`, and an even integer is reached from the tie below it on. -/
theorem roundRangeAndCarry : Obligations.RoundRangeAndCarry := by
  refine ⟨fun f k h0 h1 => ⟨roundToScale_le_of_lt_one h0 h1 k, roundToScale_eq_two_pow_iff h0 h1, ?_⟩,
    fun f k h0 h2 => roundToScale_le_of_lt_two h0 h2 k, fun _ _ => Iff.rfl⟩
  rintro rfl
  exact roundToScale_zero_eq_one_iff h0 h1

/-! ### The operands of the encoder -/

/-- The fields of the normal branch of R70. -/
theorem provisionalFields_normal {fmt : Format} {e : Int} (h : 0 < e + fmt.bias) (m : ℚ) :
    provisionalFields fmt e m =
      if 2 ^ fmt.mw ≤ roundToScale (m - 1) fmt.mw then (e + fmt.bias + 1, roundToScale (m - 1) fmt.mw - 2 ^ fmt.mw)
      else (e + fmt.bias, roundToScale (m - 1) fmt.mw) := if_neg h.not_ge

/-- The fields of the subnormal branch of R70. -/
theorem provisionalFields_subnormal {fmt : Format} {e : Int} (huf : fmt.uf < e + fmt.bias) (h : e + fmt.bias ≤ 0)
    (m : ℚ) : provisionalFields fmt e m =
      if 2 ^ fmt.mw ≤ roundToScale (m * 2 ^ (e + fmt.bias - 1)) fmt.mw then
        (1, roundToScale (m * 2 ^ (e + fmt.bias - 1)) fmt.mw - 2 ^ fmt.mw)
      else (0, roundToScale (m * 2 ^ (e + fmt.bias - 1)) fmt.mw) := by
  rw [← POW2_eq_zpow]
  exact (if_pos h).trans (if_neg huf.not_ge)

/-- The fields of the underflow branch of R70. -/
theorem provisionalFields_underflow {fmt : Format} (ok : FormatOk fmt) {e : Int} (h : e + fmt.bias ≤ fmt.uf) (m : ℚ) :
    provisionalFields fmt e m = (0, 0) := (if_pos (h.trans ok.uf_neg)).trans (if_pos h)

theorem finenc_eq_ite (fmt : Format) (x : ℚ) :
    finenc fmt x =
      if fmt.emaxf < (provisionalFields fmt (normalForm x).1 (normalForm x).2).1 then ((fmt.emaxf + 1).toNat, 0)
      else ((provisionalFields fmt (normalForm x).1 (normalForm x).2).1.toNat,
        (provisionalFields fmt (normalForm x).1 (normalForm x).2).2) := rfl

/-- The operand of the subnormal branch is below 1, since `2^(be - 1)` is at most one half there (R63). -/
theorem mul_zpow_lt_one_of_nonpos {m : ℚ} (h2 : m < 2) {be : Int} (h : be ≤ 0) : m * 2 ^ (be - 1) < 1 :=
  calc m * 2 ^ (be - 1) < 2 * 2 ^ (be - 1) := mul_lt_mul_of_pos_right h2 (by positivity)
    _ = 2 ^ be := by rw [← zpow_one_add₀ two_ne_zero, add_sub_cancel]
    _ ≤ 1 := zpow_le_one_of_nonpos₀ one_le_two h

/-- Settles O9: the mantissa is in `[1, 2)`, and each branch of R70 takes its fraction from it. -/
theorem encoderRoundsFractionsBelowOne : Obligations.EncoderRoundsFractionsBelowOne := by
  refine ⟨fun m k h1 h2 => ⟨two_pow_le_roundToScale h1 k, roundToScale_le_of_lt_two (by linarith) h2 k⟩, ?_⟩
  intro x fmt hfmt
  obtain ⟨-, h1, h2⟩ := normalForm_spec (F64pos_pos x)
  have ok : FormatOk fmt := by
    obtain rfl | rfl := hfmt
    · exact binary32_ok
    · exact binary64_ok
  exact ⟨fun h => ⟨_, rfl, by linarith, by linarith, provisionalFields_normal h _⟩,
    fun huf h => ⟨_, rfl, by positivity, mul_zpow_lt_one_of_nonpos h2 h, provisionalFields_subnormal huf h _⟩,
    fun h => provisionalFields_underflow ok h _, finenc_eq_ite fmt x.val⟩

end Sys2Proof.Machine
end

section
/-! PROOFS. The binary32 words by their fields (R35, R65, R66), the patterns and the assembled word that the encoders answer
with (R69, R72, R78), and the sign bit of what they encode (R73 (d), R82 (c)). -/

namespace Sys2Proof.Machine

/-! ### The answers of the word operations -/

theorem exec_dec32 (w : BitWord32) (s : State) :
    exec (.dec32 w) s = .next (answered s (writeCarrier binary32 (dec32 w))) := rfl

theorem exec_enc32 (v : NV) (s : State) :
    exec (.enc32 v) s = .next { s with response := some (.word (enc32 v)) } := rfl

/-! ### A word and its fields -/

/-- A word as one integer of its fields (R35). -/
theorem toNat_eq_fields32 (w : BitWord32) :
    w.toNat = (fields32 w).s.toNat * 2 ^ 31 + (fields32 w).E.toNat * 2 ^ 23 + (fields32 w).M.toNat := by
  have hE : (fields32 w).E.toNat ≤ 255 := Nat.le_of_lt_succ (fields32 w).E.isLt
  rw [← assemble32_toNat hE (fields32 w).M.isLt, assemble32_fields32]

/-- Settles O10: the fields are the numbered bits, and their sum is the word. -/
theorem fields32AreTheNumberedBits : Obligations.Fields32AreTheNumberedBits :=
  ⟨fun w => ⟨fields32_s w, fields32_E w, fields32_M w, toNat_eq_fields32 w⟩, by decide, by decide⟩

/-- The fields of the word that is assembled of three fields (R72). -/
theorem assemble32_bits {s : Sign} {E M : Nat} (hE : E ≤ 255) (hM : M < 2 ^ 23) :
    signBit (assemble32 s (E, M)) = s ∧ (assemble32 s (E, M)).toNat / 2 ^ 23 % 2 ^ 8 = E ∧
      (assemble32 s (E, M)).toNat % 2 ^ 23 = M := by
  have hs := s.isLt
  have hsum := assemble32_toNat (s := s) hE hM
  refine ⟨BitVec.eq_of_toNat_eq ?_, ?_, ?_⟩
  · rw [signBit, BitVec.toNat_ofNat, hsum]
    omega
  · omega
  · omega

/-- The three terms of the assembly occupy disjoint bit ranges, so their sum is their bitwise OR (R72). -/
theorem assemble32_toNat_eq_or {s : Sign} {E M : Nat} (hE : E ≤ 255) (hM : M < 2 ^ 23) :
    (assemble32 s (E, M)).toNat = s.toNat <<< 31 ||| E <<< 23 ||| M := by
  have hlow : E <<< 23 + M = E <<< 23 ||| M := Nat.shiftLeft_add_eq_or_of_lt hM E
  have hlt : E <<< 23 + M < 2 ^ 31 := by
    rw [Nat.shiftLeft_eq]
    omega
  rw [Nat.or_assoc, ← hlow, ← Nat.shiftLeft_add_eq_or_of_lt hlt, assemble32_toNat hE hM, Nat.shiftLeft_eq,
    Nat.shiftLeft_eq, Nat.add_assoc]

/-! ### The value of a word -/

theorem dec32_of_zero {w : BitWord32} (hE : w.toNat / 2 ^ 23 % 2 ^ 8 = 0) (hM : w.toNat % 2 ^ 23 = 0) :
    dec32 w = .zero (signBit w) := by
  rw [← fields32_E, ← bitVec_eq_zero] at hE
  rw [← fields32_M, ← bitVec_eq_zero] at hM
  rw [dec32, if_pos hE, dif_pos hM, fields32_s_eq_signBit]

/-- With the exponent field all ones, the mantissa field alone decides between an infinity and NaN (R66). -/
theorem dec32_of_allOnes {w : BitWord32} (hE : w.toNat / 2 ^ 23 % 2 ^ 8 = 255) :
    dec32 w = if w.toNat % 2 ^ 23 = 0 then .inf (signBit w) else .nan := by
  have hE' : (fields32 w).E = 255#8 := BitVec.eq_of_toNat_eq ((fields32_E w).trans hE)
  rw [dec32, if_neg (by rw [hE']; decide), if_pos hE', fields32_s_eq_signBit]
  simp only [bitVec_eq_zero, fields32_M]

/-- Settles O12: the answer is a written carrier, which reads back, of the value in each of the five cases. -/
theorem dec32AnswersTheValueOfTheWord : Obligations.Dec32AnswersTheValueOfTheWord := by
  intro w s
  refine ⟨_, dec32 w, exec_dec32 w s, rfl, rfl, readCarrier_writeCarrier_dec32 w, dec32_of_zero, fun hE hM => ?_,
    fun hE hM => (dec32_of_allOnes hE).trans (if_pos hM), fun hE hM => ?_, fun h0 h1 => ?_⟩
  · rw [← POW2_eq_zpow]
    exact dec32_of_subnormal hE hM
  · have hnan : dec32 w = .nan := (dec32_of_allOnes hE).trans (if_neg hM)
    rw [hnan]
    exact ⟨rfl, (packCarrier_zero_pair 3#2 0#1).2⟩
  · rw [← POW2_eq_zpow]
    exact dec32_of_normal h0 h1

/-! ### The patterns that the encoders answer with -/

/-- Settles O16: the special values go past the Normalizer and the Rounder to their patterns. -/
theorem specialValuesEncodeToTheirPatterns : Obligations.SpecialValuesEncodeToTheirPatterns :=
  ⟨fun _ _ => ⟨by rw [Nat.add_zero]; rfl, rfl, rfl, rfl, rfl, rfl⟩, rfl, rfl⟩

/-- The fields of `FINENC` for binary32 are those of a zero, a finite value or an infinity (R70, R72). -/
theorem finenc_binary32_ranges (x : F64pos) :
    (finenc binary32 x.val).1 ≤ 255 ∧ (finenc binary32 x.val).2 < 2 ^ 23 ∧
      ((finenc binary32 x.val).1 = 255 → (finenc binary32 x.val).2 = 0) := by
  obtain ⟨hE, hM, hinf⟩ := finenc_ranges binary32_ok (F64pos_pos x)
  exact ⟨Int.ofNat_le.mp hE, hM, fun h => hinf (congrArg Nat.cast h)⟩

theorem enc32_fin (s : Sign) (x : F64pos) :
    enc32 (.fin s x) = assemble32 s ((finenc binary32 x.val).1, (finenc binary32 x.val).2) := rfl

theorem enc32_fin_toNat (s : Sign) (x : F64pos) : (enc32 (.fin s x)).toNat
    = s.toNat * 2 ^ 31 + (finenc binary32 x.val).1 * 2 ^ 23 + (finenc binary32 x.val).2 := by
  obtain ⟨hE, hM, -⟩ := finenc_binary32_ranges x
  rw [enc32_fin, assemble32_toNat hE hM]

theorem enc32_zero_toNat (s : Sign) : (enc32 (.zero s)).toNat = s.toNat * 2 ^ 31 := by
  rw [enc32_zero, assemble32_toNat (by decide) (by decide), Nat.zero_mul, Nat.add_zero]

theorem enc32_inf_toNat (s : Sign) : (enc32 (.inf s)).toNat = s.toNat * 2 ^ 31 + 0x7F800000 := by
  rw [enc32_inf, assemble32_toNat (by decide) (by decide)]
  omega

/-- Settles O17: the fields are in their ranges, so the assembly neither wraps nor overlaps. -/
theorem enc32AnswersTheAssembledWord : Obligations.Enc32AnswersTheAssembledWord := by
  intro v s
  refine ⟨enc32 v, exec_enc32 v s, ?_, ?_, ?_, ?_⟩
  · rintro sg x rfl
    obtain ⟨hE, hM, hinf⟩ := finenc_binary32_ranges x
    have hsum := enc32_fin_toNat sg x
    refine ⟨hsum, hE, hM, assemble32_toNat_eq_or hE hM, 
      fun h => by rw [hsum, h, Nat.zero_mul, Nat.add_zero, Nat.add_zero], fun h => ?_⟩
    rw [hsum, h, hinf h]
    omega
  · rintro sg rfl
    exact enc32_zero_toNat sg
  · rintro sg rfl
    exact enc32_inf_toNat sg
  · rintro rfl
    rfl

/-! ### The sign bit -/

theorem signBit_assemble32 {s : Sign} {E M : Nat} (hE : E ≤ 255) (hM : M < 2 ^ 23) :
    signBit (assemble32 s (E, M)) = s := (assemble32_bits hE hM).1

theorem signBit_split64 {s : Sign} {E M : Nat} (hE : E ≤ 2047) (hM : M < 2 ^ 52) :
    signBit (split64 s (E, M)).1 = s := by
  have hs := s.isLt
  apply BitVec.eq_of_toNat_eq
  rw [signBit, BitVec.toNat_ofNat, (split64_toNat hE hM).1]
  omega

theorem signBit_enc32_fin (s : Sign) (x : F64pos) : signBit (enc32 (.fin s x)) = s := by
  obtain ⟨hE, hM, -⟩ := finenc_binary32_ranges x
  exact signBit_assemble32 hE hM

theorem signBit_enc64_fin (s : Sign) (x : F64pos) : signBit (enc64 (.fin s x)).1 = s := by
  obtain ⟨E, M, hf, hE, hM, -⟩ := finenc_binary64_fields x
  rw [enc64_fin hf]
  exact signBit_split64 (by omega) hM

/-- Settles O24: every word but that of a NaN is assembled of the sign of the value and fields in their ranges. -/
theorem encodedSignIsTheSignOfTheValue : Obligations.EncodedSignIsTheSignOfTheValue := by
  refine ⟨fun s x => ⟨signBit_enc32_fin s x, signBit_enc64_fin s x⟩, fun s => ?_, rfl, rfl⟩
  rw [enc32_zero, enc64_zero, enc32_inf, enc64_inf]
  exact ⟨signBit_assemble32 (by decide) (by decide), signBit_split64 (by decide) (by decide),
    signBit_assemble32 (by decide) (by decide), signBit_split64 (by decide) (by decide)⟩

end Sys2Proof.Machine
end

section
/-! PROOFS. `DEC32` and `ENC32` against each other (R67, R73 (a), (b)): each case of `DEC32` is undone by the encoder, and the
values it gives are those that binary32 can hold. -/

namespace Sys2Proof.Machine

/-! ### The NaN patterns -/

/-- `DEC32` gives NaN on the NaN patterns and nowhere else (R66, R67). -/
theorem NaNPattern32_iff_dec32_eq_nan (w : BitWord32) : NaNPattern32 w ↔ dec32 w = .nan := by
  rw [NaNPattern32, ← fields32_E, ← fields32_M, Ne, ← bitVec_eq_zero]
  rcases dec32_cases w with ⟨hE, -, hdec⟩ | ⟨hE, -, x, hdec, -⟩ | ⟨-, hM, hdec⟩ | ⟨hE, hM, hdec⟩ | ⟨-, hE, x, hdec, -⟩
  · simp [hdec, hE]
  · simp [hdec, hE]
  · simp [hdec, hM]
  · simp [hdec, hE, hM]
  · have hne : (fields32 w).E.toNat ≠ 255 := fun h => hE (BitVec.eq_of_toNat_eq h)
    simp [hdec, hne]

theorem fields32_E_bounds_of_normal {w : BitWord32} (hE : (fields32 w).E ≠ 0#8) (hE' : (fields32 w).E ≠ 255#8) :
    1 ≤ (fields32 w).E.toNat ∧ (fields32 w).E.toNat ≤ 254 := by
  have h0 : (fields32 w).E.toNat ≠ 0 := mt bitVec_eq_zero.mpr hE
  have h255 : (fields32 w).E.toNat ≠ 255 := fun h => hE' (BitVec.eq_of_toNat_eq h)
  have hlt := (fields32 w).E.isLt
  omega

/-! ### The round trip of a word -/

/-- `ENC32` gives back every word that does not decode to NaN, case by case of `DEC32` (R73 (a)). -/
theorem enc32_dec32 {w : BitWord32} (h : dec32 w ≠ .nan) : enc32 (dec32 w) = w := by
  have hw := assemble32_fields32 w
  rcases dec32_cases w with ⟨hE, hM, hdec⟩ | ⟨hE, hM, x, hdec, hx⟩ | ⟨hE, hM, hdec⟩ | ⟨-, -, hdec⟩ |
    ⟨hE, hE', x, hdec, hx⟩
  · simpa [hdec, enc32_zero, hE, hM] using hw
  · have hf : finenc binary32 x.val = (0, (fields32 w).M.toNat) :=
      hx ▸ finenc_of_subnormal binary32_ok (mt bitVec_eq_zero.mpr hM) (fields32 w).M.isLt
    rw [hE] at hw
    rwa [hdec, enc32_fin, hf]
  · simpa [hdec, enc32_inf, hE, hM] using hw
  · exact absurd hdec h
  · obtain ⟨h1, h254⟩ := fields32_E_bounds_of_normal hE hE'
    have hf : finenc binary32 x.val = ((fields32 w).E.toNat, (fields32 w).M.toNat) :=
      hx ▸ finenc_of_normal h1 (Int.ofNat_le.mpr h254) (fields32 w).M.isLt
    rwa [hdec, enc32_fin, hf]

/-- Settles O21: the NaN patterns are the words that decode to NaN. -/
theorem enc32UndoesDec32 : Obligations.Enc32UndoesDec32 := fun w =>
  ⟨fun h => enc32_dec32 (mt (NaNPattern32_iff_dec32_eq_nan w).mpr h),
    fun h => by rw [(NaNPattern32_iff_dec32_eq_nan w).mp h]; rfl⟩

/-! ### The values of the words -/

/-- The magnitude of a normal word in the two forms of R66 and R67. -/
theorem normal32_value (E M : Nat) :
    (1 + (M : ℚ) / 2 ^ 23) * POW2 (E - 127) = (2 ^ 23 + M) * (2 : ℚ) ^ ((E : Int) - 150) := by
  have hexp : (E : Int) - 127 = (23 : Nat) + ((E : Int) - 150) := by push_cast; ring
  rw [hexp, POW2_add, POW2_natCast, ← POW2_eq_zpow]
  field_simp

/-- Every finite value that `DEC32` gives is in `F32pos` (R67 (d)). -/
theorem F32pos_of_dec32_eq_fin {w : BitWord32} {s : Sign} {x : F64pos} (h : dec32 w = .fin s x) : F32pos x.val := by
  rcases dec32_cases w with ⟨-, -, hdec⟩ | ⟨-, hM, y, hdec, hy⟩ | ⟨-, -, hdec⟩ | ⟨-, -, hdec⟩ | ⟨hE, hE', y, hdec, hy⟩
  · cases hdec.symm.trans h
  · cases hdec.symm.trans h
    exact .inr ⟨_, Nat.pos_of_ne_zero (mt bitVec_eq_zero.mpr hM), (fields32 w).M.isLt, by rw [hy, POW2_eq_zpow]; rfl⟩
  · cases hdec.symm.trans h
  · cases hdec.symm.trans h
  · cases hdec.symm.trans h
    obtain ⟨h1, h254⟩ := fields32_E_bounds_of_normal hE hE'
    exact .inl ⟨_, _, h1, h254, (fields32 w).M.isLt, hy.trans (normal32_value _ _)⟩

/-- Every magnitude of `F32pos` is given by a word, with each sign: the one assembled of its fields (R67 (d)). -/
theorem exists_dec32_eq_fin (s : Sign) {x : F64pos} (h : F32pos x.val) : ∃ w, dec32 w = .fin s x := by
  rcases h with ⟨E, M, h1, h254, hM, hx⟩ | ⟨M, h1, hM, hx⟩
  · obtain ⟨hs, hE', hM'⟩ := assemble32_bits (s := s) (E := E) (by omega) hM
    obtain ⟨y, hdec, hy⟩ := dec32_of_normal (w := assemble32 s (E, M)) (by omega) (by omega)
    have hyx : y = x := Subtype.ext (by rw [hy, hE', hM', hx, normal32_value])
    exact ⟨_, by rw [hdec, hs, hyx]⟩
  · obtain ⟨hs, hE', hM'⟩ := assemble32_bits (s := s) (E := 0) (by omega) hM
    obtain ⟨y, hdec, hy⟩ := dec32_of_subnormal hE' (by omega)
    have hyx : y = x := Subtype.ext (by rw [hy, hM', hx, POW2_eq_zpow]; rfl)
    exact ⟨_, by rw [hdec, hs, hyx]⟩

theorem dec32_enc32_zero (s : Sign) : dec32 (enc32 (.zero s)) = .zero s := by
  obtain ⟨hs, hE, hM⟩ := assemble32_bits (s := s) (E := 0) (M := 0) (by decide) (by decide)
  rw [enc32_zero, dec32_of_zero hE hM, hs]

theorem dec32_enc32_inf (s : Sign) : dec32 (enc32 (.inf s)) = .inf s := by
  obtain ⟨hs, hE, hM⟩ := assemble32_bits (s := s) (E := 255) (M := 0) (by decide) (by decide)
  rw [enc32_inf, dec32_of_allOnes hE, if_pos hM, hs]

theorem dec32_enc32_nan : dec32 (enc32 .nan) = .nan :=
  (NaNPattern32_iff_dec32_eq_nan _).mp ⟨by decide, by decide⟩

/-- Settles O22: a finite value of binary32 is the value of a word, which the encoder gives back. -/
theorem dec32UndoesEnc32OnRepresentableValues : Obligations.Dec32UndoesEnc32OnRepresentableValues := by
  intro v hv
  cases v with
  | nan => exact dec32_enc32_nan
  | inf s => exact dec32_enc32_inf s
  | zero s => exact dec32_enc32_zero s
  | fin s x =>
    obtain ⟨w, hw⟩ := exists_dec32_eq_fin s (hv s x rfl)
    rw [← hw, enc32_dec32 (by simp [hw])]

/-- `F32pos` lies in `F64pos` (R67 (b)). -/
theorem inF64pos_of_F32pos {x : ℚ} (h : F32pos x) : InF64pos x := by
  rcases h with ⟨E, M, hE, hE', hM, rfl⟩ | ⟨M, hM0, hM, rfl⟩
  · exact ⟨2 ^ 23 + M, E - 150, by omega, by omega, by omega, by omega, by push_cast; rfl⟩
  · exact ⟨M, -149, hM0, by omega, by decide, by decide, rfl⟩

/-- The image of `DEC32` (R67 (d)). -/
theorem dec32_image (v : NV) : (∃ w, dec32 w = v) ↔
    v = .nan ∨ (∃ s, v = .inf s) ∨ (∃ s, v = .zero s) ∨ ∃ s x, v = .fin s x ∧ F32pos x.val := by
  constructor
  · rintro ⟨w, rfl⟩
    cases hdec : dec32 w with
    | nan => exact .inl rfl
    | inf s => exact .inr (.inl ⟨s, rfl⟩)
    | zero s => exact .inr (.inr (.inl ⟨s, rfl⟩))
    | fin s x => exact .inr (.inr (.inr ⟨s, x, rfl, F32pos_of_dec32_eq_fin hdec⟩))
  · rintro (rfl | ⟨s, rfl⟩ | ⟨s, rfl⟩ | ⟨s, x, rfl, hx⟩)
    · exact ⟨_, dec32_enc32_nan⟩
    · exact ⟨_, dec32_enc32_inf s⟩
    · exact ⟨_, dec32_enc32_zero s⟩
    · exact exists_dec32_eq_fin s hx

/-- Settles O14: `ENC32` is a left inverse away from NaN, so no two words decode alike. -/
theorem dec32IsInjectiveOntoItsImage : Obligations.Dec32IsInjectiveOntoItsImage := by
  refine ⟨fun w w' hw hw' heq => ?_, NaNPattern32_iff_dec32_eq_nan, dec32_image, fun x => inF64pos_of_F32pos⟩
  rw [NaNPattern32_iff_dec32_eq_nan] at hw hw'
  rw [← enc32_dec32 hw, heq, enc32_dec32 hw']

end Sys2Proof.Machine
end

section
/-! PROOFS. `FINENC` with the binary32 parameters (R71): one equation below the normal range, one in it and one above, and
the table of R71 from these. -/

namespace Sys2Proof.Machine

/-! ### The exponent by powers of two -/

theorem le_normalForm_exponent_iff {x : ℚ} (hx : 0 < x) (e : Int) : e ≤ (normalForm x).1 ↔ (2 : ℚ) ^ e ≤ x := by
  rw [← POW2_eq_zpow]
  exact le_log_iff hx

theorem normalForm_exponent_lt_iff {x : ℚ} (hx : 0 < x) (e : Int) : (normalForm x).1 < e ↔ x < (2 : ℚ) ^ e := by
  rw [← POW2_eq_zpow]
  exact log_lt_iff hx

/-! ### Rounding to 0 and to 1 -/

theorem roundHalfEven_eq_zero {y : ℚ} (h0 : 0 ≤ y) (h : y ≤ 1 / 2) : roundHalfEven y = 0 := by
  by_contra hne
  have := (le_roundHalfEven_iff_of_odd h0 (n := 1) rfl).mp (Nat.pos_of_ne_zero hne)
  norm_num at this
  linarith

theorem roundHalfEven_eq_one {y : ℚ} (h : 1 / 2 < y) (h1 : y ≤ 1) : roundHalfEven y = 1 := by
  have h0 : 0 ≤ y := by linarith
  have hle : roundHalfEven y ≤ 1 := roundHalfEven_le h0 (by exact_mod_cast h1)
  exact le_antisymm hle ((le_roundHalfEven_iff_of_odd h0 rfl).mpr (by norm_num; linarith))

/-! ### The three ranges -/

/-- Below half of the smallest subnormal a magnitude, in units of that subnormal, is below one half. -/
theorem mul_two_pow_149_lt_half {x : ℚ} (h : x < (2 : ℚ) ^ (-150 : Int)) : x * 2 ^ 149 < 1 / 2 := by
  norm_num at h ⊢
  linarith

/-- `FINENC` below the normal range (R70, R71): the underflow shortcut agrees with rounding, so all of the range is rounded
in units of the smallest subnormal. -/
theorem finenc_binary32_of_lt_normal {x : ℚ} (hx : 0 < x) (h : x < (2 : ℚ) ^ (-126 : Int)) :
    finenc binary32 x =
      if 2 ^ 23 ≤ roundHalfEven (x * 2 ^ 149) then (1, 0) else (0, roundHalfEven (x * 2 ^ 149)) := by
  have hunit : POW2 (binary32.bias - 1 + binary32.mw) = 2 ^ 149 := POW2_natCast 149
  have hlog : Int.log 2 x < -126 := (normalForm_exponent_lt_iff hx _).mpr h
  rcases lt_or_ge x ((2 : ℚ) ^ (-150 : Int)) with hu | hu
  · have hbe : Int.log 2 x + 127 ≤ -24 := by
      have : Int.log 2 x < -150 := (normalForm_exponent_lt_iff hx _).mpr hu
      omega
    rw [finenc_underflow binary32_ok hbe, roundHalfEven_eq_zero (by positivity) (mul_two_pow_149_lt_half hu).le]
    rfl
  · have hbe : -24 < Int.log 2 x + 127 := by
      have : -150 ≤ Int.log 2 x := (le_normalForm_exponent_iff hx _).mpr hu
      omega
    rw [← hunit]
    exact (finenc_subnormal binary32_ok hx hbe (by simp only [binary32]; omega)).2

/-- The carry of the normal branch, by the mantissa (R71). -/
theorem carry_binary32_iff {m : ℚ} (h1 : 1 ≤ m) :
    2 ^ 23 ≤ roundHalfEven ((m - 1) * 2 ^ 23) ↔ 2 - (2 : ℚ) ^ (-24 : Int) ≤ m := by
  rw [le_roundHalfEven_iff_of_even (mul_nonneg (by linarith) (by norm_num)) (by norm_num)]
  norm_num
  constructor <;> intro h <;> linarith

theorem clampFields_binary32_finite {E : Int} (h : E ≤ 254) (M : Nat) :
    clampFields binary32 (E, M) = (E.toNat, M) := if_neg h.not_gt

/-- The field 255 with the mantissa 0 is that of an infinity already, so the overflow test changes nothing there. -/
theorem clampFields_binary32_infinity {E : Int} (h : E ≤ 255) : clampFields binary32 (E, 0) = (E.toNat, 0) := by
  rcases h.lt_or_eq with hlt | rfl
  · exact clampFields_binary32_finite (Int.lt_add_one_iff.mp hlt) 0
  · rfl

/-- `FINENC` in the normal range (R70, R71). The carry out of the largest finite field gives the field of an infinity, so
overflow is no case of its own. -/
theorem finenc_binary32_of_normal {x : ℚ} (hx : (2 : ℚ) ^ (-126 : Int) ≤ x) (hbe : (normalForm x).1 + 127 ≤ 254) :
    1 ≤ (normalForm x).1 + 127 ∧ finenc binary32 x =
      if 2 - (2 : ℚ) ^ (-24 : Int) ≤ (normalForm x).2 then (((normalForm x).1 + 127).toNat + 1, 0)
      else (((normalForm x).1 + 127).toNat, roundHalfEven (((normalForm x).2 - 1) * 2 ^ 23)) := by
  have hpos : 0 < x := lt_of_lt_of_le (by positivity) hx
  have hge : -126 ≤ (normalForm x).1 := (le_normalForm_exponent_iff hpos _).mpr hx
  have hbe1 : 1 ≤ (normalForm x).1 + 127 := by omega
  obtain ⟨-, h1, -⟩ := normalForm_spec hpos
  have hunit : POW2 binary32.mw = 2 ^ 23 := POW2_natCast 23
  have hcarry : 2 ^ binary32.mw ≤ roundHalfEven (((normalForm x).2 - 1) * 2 ^ 23) ↔ _ := carry_binary32_iff h1
  obtain ⟨-, hf⟩ := finenc_normal (fmt := binary32) hpos hbe1
  rw [hf, hunit, if_congr hcarry rfl rfl]
  refine ⟨hbe1, ?_⟩
  split_ifs
  · have hE : ((normalForm x).1 + 127 + 1).toNat = ((normalForm x).1 + 127).toNat + 1 := by omega
    rw [← hE]
    exact clampFields_binary32_infinity (Int.add_le_add_right hbe 1)
  · exact clampFields_binary32_finite hbe _

/-- `FINENC` from `2^128` on (R71): the fields of an infinity. -/
theorem finenc_binary32_of_two_pow_128_le {x : ℚ} (h : (2 : ℚ) ^ (128 : Int) ≤ x) :
    255 ≤ (normalForm x).1 + 127 ∧ finenc binary32 x = (255, 0) := by
  have hpos : 0 < x := lt_of_lt_of_le (by positivity) h
  have hge : 128 ≤ Int.log 2 x := (le_normalForm_exponent_iff hpos _).mpr h
  exact ⟨by simp only [normalForm]; omega, finenc_overflow binary32_ok hpos (by simp only [binary32]; omega)⟩

/-! ### The table -/

/-- The shortcut of the underflow agrees with rounding (R71). -/
theorem underflow_agrees_with_rounding {x : ℚ} (hx : 0 < x) (h : (normalForm x).1 + 127 ≤ -24) :
    x * 2 ^ 149 < 1 / 2 ∧ roundHalfEven (x * 2 ^ 149) = 0 := by
  have hhalf := mul_two_pow_149_lt_half ((normalForm_exponent_lt_iff hx (-150)).mp (by omega))
  exact ⟨hhalf, roundHalfEven_eq_zero (by positivity) hhalf.le⟩

/-- The mantissa of a magnitude at or above `m * 2^e` in the binade of `2^e` is at least `m`. -/
theorem le_normalForm_mantissa {x m : ℚ} {e : Int} (hx : 0 < x) (he : (normalForm x).1 = e) (h : m * (2 : ℚ) ^ e ≤ x) :
    m ≤ (normalForm x).2 := by
  obtain ⟨hval, -, -⟩ := normalForm_spec hx
  rw [hval, he, POW2_eq_zpow] at h
  exact le_of_mul_le_mul_right h (by positivity)

/-- From `(2 - 2^-24) * 2^127` on every magnitude gets the fields of an infinity: by the carry below `2^128`. -/
theorem finenc_binary32_of_overflow {x : ℚ} (h : (2 - (2 : ℚ) ^ (-24 : Int)) * (2 : ℚ) ^ (127 : Int) ≤ x) :
    finenc binary32 x = (255, 0) := by
  have hpos : 0 < x := lt_of_lt_of_le (by norm_num) h
  have hge : 127 ≤ (normalForm x).1 := (le_normalForm_exponent_iff hpos _).mpr (le_trans (by norm_num) h)
  rcases lt_or_ge x ((2 : ℚ) ^ (128 : Int)) with hlt | hge'
  · have he : (normalForm x).1 = 127 := le_antisymm
      (Int.lt_add_one_iff.mp ((normalForm_exponent_lt_iff hpos _).mpr hlt)) hge
    have hx : (2 : ℚ) ^ (-126 : Int) ≤ x := le_trans (by norm_num) h
    rw [(finenc_binary32_of_normal hx (by omega)).2, if_pos (le_normalForm_mantissa hpos he h), he]
    rfl
  · exact (finenc_binary32_of_two_pow_128_le hge').2

/-- Below half of the smallest subnormal: a zero, by the shortcut. -/
theorem finenc_binary32_of_lt_half_unit {x : ℚ} (hx : 0 < x) (h : x < (2 : ℚ) ^ (-150 : Int)) :
    (normalForm x).1 + 127 ≤ -24 ∧ finenc binary32 x = (0, 0) := by
  have he := (normalForm_exponent_lt_iff hx _).mpr h
  have hbe : (normalForm x).1 + 127 ≤ -24 := by omega
  exact ⟨hbe, finenc_underflow binary32_ok hbe⟩

/-- Half of the smallest subnormal: the tie, which goes to the even 0. -/
theorem finenc_binary32_half_unit : finenc binary32 ((2 : ℚ) ^ (-150 : Int)) = (0, 0) := by
  rw [finenc_binary32_of_lt_normal (by positivity) (by norm_num), roundHalfEven_eq_zero (by norm_num) (by norm_num)]
  rfl

/-- Between half of the smallest subnormal and all of it: rounded up to it. -/
theorem finenc_binary32_of_half_unit_lt {x : ℚ} (h : (2 : ℚ) ^ (-150 : Int) < x) (h' : x < (2 : ℚ) ^ (-149 : Int)) :
    (normalForm x).1 + 127 = -23 ∧ finenc binary32 x = (0, 1) := by
  have hx : 0 < x := lt_trans (by positivity) h
  have he := (le_normalForm_exponent_iff hx _).mpr h.le
  have he' := (normalForm_exponent_lt_iff hx _).mpr h'
  refine ⟨by omega, ?_⟩
  rw [finenc_binary32_of_lt_normal hx (h'.trans (by norm_num)),
    roundHalfEven_eq_one (by norm_num at h ⊢; linarith) (by norm_num at h' ⊢; linarith)]
  rfl

/-- From the smallest subnormal on, where rounding stays below `2^23`: the subnormal it rounds to. -/
theorem finenc_binary32_of_subnormal {x : ℚ} (h : (2 : ℚ) ^ (-149 : Int) ≤ x)
    (hr : roundHalfEven (x * 2 ^ 149) < 2 ^ 23) :
    (-22 ≤ (normalForm x).1 + 127 ∧ (normalForm x).1 + 127 ≤ 0) ∧
      finenc binary32 x = (0, roundHalfEven (x * 2 ^ 149)) := by
  have hx : 0 < x := lt_of_lt_of_le (by positivity) h
  have hlt : x < (2 : ℚ) ^ (-126 : Int) := by
    by_contra hnormal
    have : 2 ^ 23 ≤ roundHalfEven (x * 2 ^ 149) := le_roundHalfEven (by norm_num at hnormal ⊢; linarith)
    omega
  have he := (le_normalForm_exponent_iff hx _).mpr h
  have he' := (normalForm_exponent_lt_iff hx _).mpr hlt
  refine ⟨⟨by omega, by omega⟩, ?_⟩
  rw [finenc_binary32_of_lt_normal hx hlt, if_neg hr.not_ge]

/-- The last half unit below the normal range: carried to the smallest normal. -/
theorem finenc_binary32_of_carry_to_normal {x : ℚ} (h : (2 ^ 23 - 1 / 2) * (2 : ℚ) ^ (-149 : Int) ≤ x)
    (h' : x < (2 : ℚ) ^ (-126 : Int)) : (normalForm x).1 + 127 = 0 ∧ finenc binary32 x = (1, 0) := by
  have hx : 0 < x := lt_of_lt_of_le (by norm_num) h
  have he := (le_normalForm_exponent_iff hx (-127)).mpr (le_trans (by norm_num) h)
  have he' := (normalForm_exponent_lt_iff hx _).mpr h'
  have hcarry : 2 ^ 23 ≤ roundHalfEven (x * 2 ^ 149) :=
    (le_roundHalfEven_iff_of_even (by positivity) (by norm_num)).mpr (by norm_num at h ⊢; linarith)
  refine ⟨by omega, ?_⟩
  rw [finenc_binary32_of_lt_normal hx h', if_pos hcarry]

/-- Settles O19, row by row. -/
theorem finencCasesForBinary32 : Obligations.FinencCasesForBinary32 := by
  intro X
  have hpos := F64pos_pos X
  obtain ⟨hmin, hmax⟩ : -1074 ≤ (normalForm X.val).1 ∧ (normalForm X.val).1 ≤ 1023 := F64pos_log X
  refine ⟨⟨by omega, by omega⟩, underflow_agrees_with_rounding hpos, finenc_binary32_of_lt_half_unit hpos, fun h => ?_,
    finenc_binary32_of_half_unit_lt, finenc_binary32_of_subnormal, finenc_binary32_of_carry_to_normal,
    fun h hbe hm => ?_, fun h hbe hm => ?_, fun hbe hm => ?_, finenc_binary32_of_overflow,
    finenc_binary32_of_two_pow_128_le⟩
  · rw [h, normalForm_zpow]
    exact ⟨rfl, rfl, finenc_binary32_half_unit⟩
  · obtain ⟨h1, hf⟩ := finenc_binary32_of_normal h hbe
    exact ⟨h1, hf.trans (if_neg hm.not_ge)⟩
  · obtain ⟨h1, hf⟩ := finenc_binary32_of_normal h (hbe.trans (by decide))
    exact ⟨h1, hf.trans (if_pos hm)⟩
  · obtain ⟨hval, -, -⟩ := normalForm_spec hpos
    have he : (normalForm X.val).1 = 127 := by omega
    have hle : (2 - (2 : ℚ) ^ (-24 : Int)) * (2 : ℚ) ^ (127 : Int) ≤ X.val := by
      rw [hval, he, POW2_eq_zpow]
      exact mul_le_mul_of_nonneg_right hm (by positivity)
    exact ⟨hle, finenc_binary32_of_overflow hle⟩

end Sys2Proof.Machine
end

section
/-! PROOFS. `ENC32` as rounding to the nearest (R73 (c), (e)). The words of one sign, read without it as the integers `c` up
to that of the infinity, stand at the strictly rising magnitudes `codeMagnitude32 c`, which are equally spaced from one power
of two to the next; there the encoder rounds the distance from the power of two, in units of the spacing. -/

namespace Sys2Proof.Machine

/-! ### Where the words stand -/

/-- The integer of the infinity, a word without its sign: no greater one is a pattern but of NaN. -/
def infinityCode32 : Nat := 255 * 2 ^ 23

/-- The magnitude at which a binary32 word, without its sign the integer `c`, stands. With the exponent field `E = c / 2^23`
the last bit has the weight `2^(E - 150)`, and `2^(-149)` for `E = 0` too. -/
def codeMagnitude32 (c : Nat) : ℚ :=
  ((c - (c / 2 ^ 23 - 1) * 2 ^ 23 : Nat) : ℚ) * POW2 ((c / 2 ^ 23 - 1 : Nat) - 149)

/-- The words whose last bit has the weight `2^(b - 149)`, with the power of two that ends them: those of one normal exponent
field, and for `b = 0` the subnormals and the zero too. -/
theorem codeMagnitude32_eq {b k : Nat} (hk : k ≤ 2 ^ 24) (hb : b = 0 ∨ 2 ^ 23 ≤ k) :
    codeMagnitude32 (b * 2 ^ 23 + k) = k * POW2 (b - 149) := by
  rcases hk.lt_or_eq with hlt | rfl
  · have hindex : (b * 2 ^ 23 + k) / 2 ^ 23 - 1 = b := by omega
    rw [codeMagnitude32, hindex, Nat.add_sub_cancel_left]
  · have hindex : (b * 2 ^ 23 + 2 ^ 24) / 2 ^ 23 - 1 = b + 1 := by omega
    have hsig : b * 2 ^ 23 + 2 ^ 24 - (b + 1) * 2 ^ 23 = 2 ^ 23 := by omega
    have hexp : ((b + 1 : Nat) : Int) - 149 = 1 + (b - 149) := by push_cast; ring
    rw [codeMagnitude32, hindex, hsig, hexp, POW2_add, POW2_one]
    push_cast
    ring

theorem codeMagnitude32_strictMono : StrictMono codeMagnitude32 := by
  refine strictMono_nat_of_lt_succ fun c => ?_
  obtain ⟨b, k, hk, hb, rfl⟩ : ∃ b k, k < 2 ^ 24 ∧ (b = 0 ∨ 2 ^ 23 ≤ k) ∧ c = b * 2 ^ 23 + k :=
    ⟨c / 2 ^ 23 - 1, c - (c / 2 ^ 23 - 1) * 2 ^ 23, by omega, by omega, by omega⟩
  rw [add_assoc, codeMagnitude32_eq hk.le hb, codeMagnitude32_eq hk (by omega)]
  exact mul_lt_mul_of_pos_right (by exact_mod_cast k.lt_succ_self) (POW2_pos _)

theorem codeMagnitude32_of_subnormal {j : Nat} (hj : j ≤ 2 ^ 23) : codeMagnitude32 j = j * POW2 (-149) := by
  have h := codeMagnitude32_eq (b := 0) (k := j) (by omega) (.inl rfl)
  rwa [Nat.zero_mul, Nat.zero_add] at h

theorem codeMagnitude32_zero : codeMagnitude32 0 = 0 := by
  rw [codeMagnitude32_of_subnormal (Nat.zero_le _), Nat.cast_zero, zero_mul]

theorem codeMagnitude32_of_normal (b : Nat) {j : Nat} (hj : j ≤ 2 ^ 23) :
    codeMagnitude32 ((b + 1) * 2 ^ 23 + j) = (2 ^ 23 + j) * POW2 (b - 149) := by
  have h := codeMagnitude32_eq (b := b) (k := 2 ^ 23 + j) (by omega) (.inr (Nat.le_add_right _ _))
  rw [← Nat.add_assoc, ← Nat.succ_mul] at h
  exact_mod_cast h

/-- The spacing of the words of one exponent field. -/
def spacing32 (E : Nat) : ℚ := POW2 ((E - 1 : Nat) - 149)

theorem spacing32_pos (E : Nat) : 0 < spacing32 E := POW2_pos _

/-- The words of one exponent field are equally spaced, up to and including the power of two that ends them. -/
theorem codeMagnitude32_add (E : Nat) {j : Nat} (hj : j ≤ 2 ^ 23) :
    codeMagnitude32 (E * 2 ^ 23 + j) = codeMagnitude32 (E * 2 ^ 23) + j * spacing32 E := by
  cases E with
  | zero =>
    rw [Nat.zero_mul, Nat.zero_add, codeMagnitude32_of_subnormal hj, codeMagnitude32_zero, zero_add]
    rfl
  | succ b =>
    rw [codeMagnitude32_of_normal b hj, ← Nat.add_zero ((b + 1) * 2 ^ 23),
      codeMagnitude32_of_normal b (Nat.zero_le _), spacing32, Nat.add_sub_cancel]
    push_cast
    ring

/-- The words of a normal exponent field begin at its power of two. -/
theorem codeMagnitude32_binade {E : Nat} (hE : 1 ≤ E) : codeMagnitude32 (E * 2 ^ 23) = POW2 (E - 127) := by
  obtain ⟨b, rfl⟩ := Nat.exists_eq_add_of_le' hE
  have hexp : ((b + 1 : Nat) : Int) - 127 = (23 : Nat) + (b - 149) := by push_cast; ring
  rw [← Nat.add_zero ((b + 1) * 2 ^ 23), codeMagnitude32_of_normal b (Nat.zero_le _), hexp, POW2_add, POW2_natCast,
    Nat.cast_zero, add_zero]

/-- The infinity stands at `2^128` (R73 (c)). -/
theorem codeMagnitude32_infinity : codeMagnitude32 infinityCode32 = 2 ^ 128 :=
  (codeMagnitude32_binade (E := 255) (by decide)).trans (POW2_natCast 128)

/-- The magnitude of a word that is not a NaN pattern (R73 (c)), and the range of its integer. -/
theorem magnitude32_dec32 {w : BitWord32} (h : ¬ NaNPattern32 w) :
    magnitude32 (dec32 w) = codeMagnitude32 (w.toNat % 2 ^ 31) ∧ w.toNat % 2 ^ 31 ≤ infinityCode32 := by
  have hM := (fields32 w).M.isLt
  have hcode : w.toNat % 2 ^ 31 = (fields32 w).E.toNat * 2 ^ 23 + (fields32 w).M.toNat := by
    have hE := (fields32 w).E.isLt
    have hw := toNat_eq_fields32 w
    omega
  rw [hcode, infinityCode32]
  rcases dec32_cases w with ⟨hE, hM0, hdec⟩ | ⟨hE, -, x, hdec, hx⟩ | ⟨hE, hM0, hdec⟩ | ⟨-, -, hdec⟩ |
    ⟨hE, hE', x, hdec, hx⟩
  · rw [hdec, hE, hM0]
    exact ⟨codeMagnitude32_zero.symm, by decide⟩
  · rw [hdec, hE, BitVec.toNat_ofNat, Nat.zero_mod, Nat.zero_mul, Nat.zero_add]
    exact ⟨hx.trans (codeMagnitude32_of_subnormal hM.le).symm, by omega⟩
  · rw [hdec, hE, hM0]
    exact ⟨codeMagnitude32_infinity.symm, by decide⟩
  · exact absurd ((NaNPattern32_iff_dec32_eq_nan w).mpr hdec) h
  · obtain ⟨h1, h254⟩ := fields32_E_bounds_of_normal hE hE'
    refine ⟨?_, by omega⟩
    obtain ⟨b, hb⟩ := Nat.exists_eq_add_of_le' h1
    have hexp : ((b + 1 : Nat) : Int) - 150 = b - 149 := by push_cast; ring
    rw [hdec, magnitude32, hx, normal32_value, hb, codeMagnitude32_of_normal b hM.le, hexp, POW2_eq_zpow]

/-! ### The nearest word -/

/-- The word `c` is no nearer to `x` than the word `n`, and as near only where `n` is even: what R73 (c) asks of the answer
`n` against one candidate `c`. -/
def NoNearer (x : ℚ) (n c : Nat) : Prop :=
  |codeMagnitude32 n - x| ≤ |codeMagnitude32 c - x| ∧
    (|codeMagnitude32 c - x| = |codeMagnitude32 n - x| → c ≠ n → n % 2 = 0)

theorem NoNearer.of_lt {x : ℚ} {n c : Nat} (h : |codeMagnitude32 n - x| < |codeMagnitude32 c - x|) : NoNearer x n c :=
  ⟨h.le, fun heq => absurd heq h.ne'⟩

/-- Below a word that is at or below `x`, every word is farther from `x`. -/
theorem farther_below {x : ℚ} {d c : Nat} (hd : codeMagnitude32 d ≤ x) (hc : c < d) :
    |codeMagnitude32 d - x| < |codeMagnitude32 c - x| := by
  have hlt := codeMagnitude32_strictMono hc
  rw [abs_of_nonpos (by linarith), abs_of_neg (by linarith)]
  linarith

/-- Above a word that is at or above `x`, every word is farther from `x`. -/
theorem farther_above {x : ℚ} {d c : Nat} (hd : x ≤ codeMagnitude32 d) (hc : d < c) :
    |codeMagnitude32 d - x| < |codeMagnitude32 c - x| := by
  have hlt := codeMagnitude32_strictMono hc
  rw [abs_of_nonneg (by linarith), abs_of_pos (by linarith)]
  linarith

section
variable {E : Nat} {x y : ℚ}

/-- The distance of a word of the exponent field `E` from the magnitude that lies `y` units above the first one. -/
theorem abs_codeMagnitude32_add_sub (hx : x = codeMagnitude32 (E * 2 ^ 23) + y * spacing32 E) {j : Nat}
    (hj : j ≤ 2 ^ 23) : |codeMagnitude32 (E * 2 ^ 23 + j) - x| = |(j : ℚ) - y| * spacing32 E := by
  rw [codeMagnitude32_add E hj, hx, add_sub_add_left_eq_sub, ← sub_mul, abs_mul, abs_of_pos (spacing32_pos E)]

/-- Among the words of an exponent field and the power of two that ends it, none is nearer than the rounded one. -/
theorem noNearer_in_binade (hx : x = codeMagnitude32 (E * 2 ^ 23) + y * spacing32 E) (h0 : 0 ≤ y) (h1 : y ≤ 2 ^ 23)
    {j : Nat} (hj : j ≤ 2 ^ 23) : NoNearer x (E * 2 ^ 23 + roundHalfEven y) (E * 2 ^ 23 + j) := by
  have hu := spacing32_pos E
  have hr : roundHalfEven y ≤ 2 ^ 23 := roundHalfEven_le h0 (by exact_mod_cast h1)
  obtain ⟨hle, heven⟩ := roundHalfEven_nearest h0 j
  rw [Int.cast_natCast] at hle heven
  rw [NoNearer, abs_codeMagnitude32_add_sub hx hr, abs_codeMagnitude32_add_sub hx hj]
  refine ⟨mul_le_mul_of_nonneg_right hle hu.le, fun htie hne => ?_⟩
  have := heven (mul_right_cancel₀ hu.ne' htie) (by omega)
  omega

/-- Rounding the distance from the first word of an exponent field, in units of the spacing, gives a word to which no other
is nearer: the words below the field and above it are farther away than its ends. -/
theorem noNearer_of_round (hx : x = codeMagnitude32 (E * 2 ^ 23) + y * spacing32 E) (h0 : 0 ≤ y) (h1 : y ≤ 2 ^ 23)
    (c : Nat) : NoNearer x (E * 2 ^ 23 + roundHalfEven y) c := by
  have hu := spacing32_pos E
  rcases lt_or_ge c (E * 2 ^ 23) with hlow | hlow
  · have hfirst : codeMagnitude32 (E * 2 ^ 23) ≤ x := by
      rw [hx]
      exact le_add_of_nonneg_right (mul_nonneg h0 hu.le)
    obtain ⟨hle, -⟩ := noNearer_in_binade hx h0 h1 (Nat.zero_le _)
    rw [Nat.add_zero] at hle
    exact .of_lt (hle.trans_lt (farther_below hfirst hlow))
  rcases le_or_gt c (E * 2 ^ 23 + 2 ^ 23) with hhigh | hhigh
  · obtain ⟨j, rfl⟩ := Nat.exists_eq_add_of_le hlow
    exact noNearer_in_binade hx h0 h1 (Nat.le_of_add_le_add_left hhigh)
  · have hlast : x ≤ codeMagnitude32 (E * 2 ^ 23 + 2 ^ 23) := by
      rw [codeMagnitude32_add E le_rfl, hx]
      exact add_le_add_right (mul_le_mul_of_nonneg_right (by exact_mod_cast h1) hu.le) _
    obtain ⟨hle, -⟩ := noNearer_in_binade hx h0 h1 le_rfl
    exact .of_lt (hle.trans_lt (farther_above hlast hhigh))

end

/-! ### The word of a magnitude -/

/-- The word, without its sign, that `ENC32` makes of a magnitude. -/
def code32 (x : ℚ) : Nat := code binary32 (finenc binary32 x)

theorem enc32_fin_toNat_eq_code32 (s : Sign) (x : F64pos) :
    (enc32 (.fin s x)).toNat = s.toNat * 2 ^ 31 + code32 x.val := by
  rw [enc32_fin_toNat, Nat.add_assoc]
  rfl

theorem code32_le (x : F64pos) : code32 x.val ≤ infinityCode32 := by
  obtain ⟨hE, hM, hinf⟩ := finenc_binary32_ranges x
  have hcode : code32 x.val = (finenc binary32 x.val).1 * 2 ^ 23 + (finenc binary32 x.val).2 := rfl
  rw [hcode, infinityCode32]
  omega

/-- Below the normal range the word is the magnitude in units of the smallest subnormal, rounded. -/
theorem code32_of_lt_normal {x : ℚ} (hx : 0 < x) (h : x < (2 : ℚ) ^ (-126 : Int)) :
    code32 x = roundHalfEven (x * 2 ^ 149) := by
  have hle : roundHalfEven (x * 2 ^ 149) ≤ 2 ^ 23 := roundHalfEven_le (by positivity) (by norm_num at h ⊢; linarith)
  rw [code32, finenc_binary32_of_lt_normal hx h]
  split_ifs with hc
  · exact (le_antisymm hle hc).symm
  · simp [code]

/-- In the normal range the word is the first of its exponent field and the fraction of the mantissa, rounded. -/
theorem code32_of_normal {x : ℚ} (hx : 0 < x) (h1 : 1 ≤ (normalForm x).1 + 127) (h254 : (normalForm x).1 + 127 ≤ 254) :
    code32 x = ((normalForm x).1 + 127).toNat * 2 ^ 23 + roundHalfEven (((normalForm x).2 - 1) * 2 ^ 23) := by
  have hunit : POW2 binary32.mw = 2 ^ 23 := POW2_natCast 23
  rw [code32, code_normal (fmt := binary32) hx h1 h254, hunit]
  rfl

/-- Below `2^128` the encoder rounds the distance from the first word of an exponent field, in units of the spacing. -/
theorem code32_eq_round {x : ℚ} (hx : 0 < x) (h : x < (2 : ℚ) ^ (128 : Int)) :
    ∃ (E : Nat) (y : ℚ), x = codeMagnitude32 (E * 2 ^ 23) + y * spacing32 E ∧ 0 ≤ y ∧ y ≤ 2 ^ 23 ∧
      code32 x = E * 2 ^ 23 + roundHalfEven y := by
  rcases lt_or_ge x ((2 : ℚ) ^ (-126 : Int)) with hlow | hlow
  · have hunit : (2 : ℚ) ^ 149 * spacing32 0 = 1 := by
      rw [spacing32, POW2_eq_zpow]
      norm_num
    refine ⟨0, x * 2 ^ 149, ?_, by positivity, by norm_num at hlow ⊢; linarith, ?_⟩
    · rw [Nat.zero_mul, codeMagnitude32_zero, zero_add, mul_assoc, hunit, mul_one]
    · rw [Nat.zero_mul, Nat.zero_add, code32_of_lt_normal hx hlow]
  · have hge := (le_normalForm_exponent_iff hx _).mpr hlow
    have hlt := (normalForm_exponent_lt_iff hx _).mpr h
    obtain ⟨hval, h1, h2⟩ := normalForm_spec hx
    obtain ⟨E, hE⟩ : ∃ E : Nat, (normalForm x).1 + 127 = E := Int.eq_ofNat_of_zero_le (by omega)
    have hunit : 2 ^ 23 * spacing32 E = POW2 (normalForm x).1 := by
      have hexp : (normalForm x).1 = (23 : Nat) + ((E - 1 : Nat) - 149) := by omega
      rw [hexp, POW2_add, POW2_natCast, spacing32]
    refine ⟨E, ((normalForm x).2 - 1) * 2 ^ 23, ?_, mul_nonneg (by linarith) (by positivity), by linarith, ?_⟩
    · rw [codeMagnitude32_binade (by omega), ← hE, add_sub_cancel_right, mul_assoc, hunit]
      linarith
    · rw [code32_of_normal hx (by omega) (by omega), hE, Int.toNat_natCast]

/-- No word is nearer to a magnitude than the one `ENC32` makes of it; from `2^128` on that is the infinity, below it the
rounded one. -/
theorem noNearer_code32 {x : ℚ} (hx : 0 < x) {c : Nat} (hc : c ≤ infinityCode32) : NoNearer x (code32 x) c := by
  rcases lt_or_ge x ((2 : ℚ) ^ (128 : Int)) with hlt | hge
  · obtain ⟨E, y, hy, h0, h1, hcode⟩ := code32_eq_round hx hlt
    rw [hcode]
    exact noNearer_of_round hy h0 h1 c
  · have hcode : code32 x = infinityCode32 := by
      rw [code32, (finenc_binary32_of_two_pow_128_le hge).2]
      rfl
    rw [hcode]
    rcases hc.lt_or_eq with hlt | rfl
    · exact .of_lt (farther_below (by rw [codeMagnitude32_infinity]; exact_mod_cast hge) hlt)
    · exact ⟨le_rfl, fun _ hne => absurd rfl hne⟩

/-- Settles O23: the words of one sign are compared as integers without it, where none is nearer than the code. -/
theorem enc32IsNearestTiesToEven : Obligations.Enc32IsNearestTiesToEven := by
  intro s x
  have hnan : ¬ NaNPattern32 (enc32 (.fin s x)) := fun h => NV.noConfusion (eq_nan_of_NaNPattern32_enc32 h)
  refine ⟨hnan, signBit_enc32_fin s x, fun w hw hs => ?_⟩
  have hsum := enc32_fin_toNat_eq_code32 s x
  have hle : code32 x.val ≤ 255 * 2 ^ 23 := code32_le x
  have hcode : (enc32 (.fin s x)).toNat % 2 ^ 31 = code32 x.val := by omega
  obtain ⟨hmag, hc⟩ := magnitude32_dec32 hw
  obtain ⟨hnear, heven⟩ := noNearer_code32 (F64pos_pos x) hc
  rw [(magnitude32_dec32 hnan).1, hcode, hmag]
  refine ⟨hnear, fun htie hne => ?_⟩
  have hcne : w.toNat % 2 ^ 31 ≠ code32 x.val := fun h => hne (BitVec.eq_of_toNat_eq ?_)
  · have := heven htie hcne
    omega
  · have hsw : w.toNat / 2 ^ 31 = s.toNat := by rw [← fields32_s, fields32_s_eq_signBit, hs]
    omega

/-! ### Monotone -/

/-- A magnitude to which the greater of two is at least as near lies at or above their middle. -/
theorem middle_le_of_abs_le {p q x : ℚ} (hpq : p < q) (h : |q - x| ≤ |p - x|) : p + q ≤ 2 * x := by
  by_contra hlt
  have : (p - x) ^ 2 < (q - x) ^ 2 := by nlinarith
  exact absurd (sq_lt_sq.mp this) h.not_gt

/-- A magnitude to which the lesser of two is at least as near lies at or below their middle. -/
theorem le_middle_of_abs_le {p q x : ℚ} (hpq : p < q) (h : |p - x| ≤ |q - x|) : 2 * x ≤ p + q := by
  by_contra hlt
  have : (q - x) ^ 2 < (p - x) ^ 2 := by nlinarith
  exact absurd (sq_lt_sq.mp this) h.not_gt

/-- Settles O25: if the greater magnitude had the lesser word, both would lie at the middle of the two words and be equal. -/
theorem enc32IsMonotone : Obligations.Enc32IsMonotone := by
  intro x y hxy
  rw [enc32_fin_toNat_eq_code32, enc32_fin_toNat_eq_code32, Nat.add_le_add_iff_left]
  by_contra hlt
  have hrise := codeMagnitude32_strictMono (not_le.mp hlt)
  obtain ⟨hx, -⟩ := noNearer_code32 (F64pos_pos x) (code32_le y)
  obtain ⟨hy, -⟩ := noNearer_code32 (F64pos_pos y) (code32_le x)
  have hmid := middle_le_of_abs_le hrise hx
  have hmid' := le_middle_of_abs_le hrise hy
  have heq : x.val = y.val := by linarith
  exact hlt (by rw [heq])

end Sys2Proof.Machine
end

section
/-! PROOFS. The binary64 word pairs by their fields (R36, R75, R76), the pair that `ENC64` answers with (R80, R81), and the
two operations against each other (R77, R82 (a)): each case of the one is undone by the other. -/

namespace Sys2Proof.Machine

/-! ### The answers of the pair operations -/

theorem exec_dec64 (hi lo : BitWord32) (s : State) :
    exec (.dec64 hi lo) s = .next (answered s (writeCarrier binary64 (dec64 hi lo))) := rfl

theorem exec_enc64 (v : NV) (s : State) :
    exec (.enc64 v) s = .next { s with response := some (.wordPair (enc64 v).1 (enc64 v).2) } := rfl

/-! ### A word pair and its fields -/

/-- A word pair as one integer of its fields (R36). -/
theorem pair_eq_fields64 (hi lo : BitWord32) : hi.toNat * 2 ^ 32 + lo.toNat
    = (fields64 hi lo).s.toNat * 2 ^ 63 + (fields64 hi lo).E.toNat * 2 ^ 52 + (fields64 hi lo).M.toNat := by
  rw [fields64_s, fields64_E, fields64_M]
  omega

/-- Settles O11: the fields are the numbered bits, and their sum is the pair. -/
theorem fields64AreTheNumberedBits : Obligations.Fields64AreTheNumberedBits :=
  ⟨fun hi lo => ⟨fields64_s hi lo, fields64_E hi lo, fields64_M hi lo, pair_eq_fields64 hi lo⟩, by decide, by decide⟩

theorem fields64_M_eq_mantissa64 (hi lo : BitWord32) : (fields64 hi lo).M.toNat = mantissa64 hi lo := fields64_M hi lo

theorem fields64_E_bounds_of_normal {hi lo : BitWord32} (hE : (fields64 hi lo).E ≠ 0#11)
    (hE' : (fields64 hi lo).E ≠ 2047#11) : 0 < (fields64 hi lo).E.toNat ∧ (fields64 hi lo).E.toNat ≤ 2046 := by
  have h0 : (fields64 hi lo).E.toNat ≠ 0 := mt bitVec_eq_zero.mpr hE
  have h2047 : (fields64 hi lo).E.toNat ≠ 2047 := fun h => hE' (BitVec.eq_of_toNat_eq h)
  have hlt := (fields64 hi lo).E.isLt
  omega

/-! ### The value of a word pair -/

theorem dec64_of_zero {hi lo : BitWord32} (hE : hi.toNat / 2 ^ 20 % 2 ^ 11 = 0) (hM : mantissa64 hi lo = 0) :
    dec64 hi lo = .zero (signBit hi) := by
  rw [← fields64_E hi lo, ← bitVec_eq_zero] at hE
  rw [← fields64_M_eq_mantissa64, ← bitVec_eq_zero] at hM
  rw [dec64, dif_pos hE, dif_pos hM, fields64_s_eq_signBit]

/-- With the exponent field all ones, the mantissa field alone decides between an infinity and NaN (R76). -/
theorem dec64_of_allOnes {hi lo : BitWord32} (hE : hi.toNat / 2 ^ 20 % 2 ^ 11 = 2047) :
    dec64 hi lo = if mantissa64 hi lo = 0 then .inf (signBit hi) else .nan := by
  have hE' : (fields64 hi lo).E = 2047#11 := BitVec.eq_of_toNat_eq ((fields64_E hi lo).trans hE)
  rw [dec64, dif_neg (by rw [hE']; decide), dif_pos hE', fields64_s_eq_signBit]
  simp only [bitVec_eq_zero, fields64_M_eq_mantissa64]

/-- Settles O13: the answer is a written carrier, which reads back, of the value in each of the five cases. -/
theorem dec64AnswersTheValueOfThePair : Obligations.Dec64AnswersTheValueOfThePair := by
  intro hi lo s
  refine ⟨_, dec64 hi lo, exec_dec64 hi lo s, rfl, rfl, readCarrier_writeCarrier_binary64 _, dec64_of_zero,
    fun hE hM => ?_, fun hE hM => (dec64_of_allOnes hE).trans (if_pos hM), fun hE hM => ?_, fun h0 h1 => ?_⟩
  · rw [← POW2_eq_zpow]
    exact dec64_of_subnormal hE hM
  · have hnan : dec64 hi lo = .nan := (dec64_of_allOnes hE).trans (if_neg hM)
    rw [hnan]
    exact ⟨rfl, (packCarrier_zero_pair 3#2 0#1).2⟩
  · rw [← POW2_eq_zpow]
    exact dec64_of_normal h0 h1

/-- `DEC64` gives NaN on the NaN patterns and nowhere else (R76, R77). -/
theorem NaNPattern64_iff_dec64_eq_nan (hi lo : BitWord32) : NaNPattern64 hi lo ↔ dec64 hi lo = .nan := by
  rw [NaNPattern64, ← fields64_E hi lo, ← fields64_M_eq_mantissa64, Ne, ← bitVec_eq_zero]
  rcases dec64_cases hi lo with ⟨hE, -, hdec⟩ | ⟨hE, -, x, hdec, -⟩ | ⟨-, hM, hdec⟩ | ⟨hE, hM, hdec⟩ |
    ⟨-, hE, x, hdec, -⟩
  · simp [hdec, hE]
  · simp [hdec, hE]
  · simp [hdec, hM]
  · simp [hdec, hE, hM]
  · have hne : (fields64 hi lo).E.toNat ≠ 2047 := fun h => hE (BitVec.eq_of_toNat_eq h)
    simp [hdec, hne]

/-! ### The pair of a value -/

theorem enc64_zero_toNat (s : Sign) : (enc64 (.zero s)).1.toNat = s.toNat * 2 ^ 31 := by
  rw [enc64_zero, (split64_toNat (by decide) (by decide)).1]
  omega

theorem enc64_inf_toNat (s : Sign) : (enc64 (.inf s)).1.toNat = s.toNat * 2 ^ 31 + 0x7FF00000 := by
  rw [enc64_inf, (split64_toNat (by decide) (by decide)).1]
  omega

/-- Settles O18: the fields are in their ranges, so the assembly does not wrap. -/
theorem enc64AnswersTheSplitPair : Obligations.Enc64AnswersTheSplitPair := by
  intro v s
  refine ⟨_, _, exec_enc64 v s, ?_, ?_, ?_, ?_⟩
  · rintro sg x rfl
    obtain ⟨E, M, hf, hE, hM, -⟩ := finenc_binary64_fields x
    obtain ⟨hhi, hlo⟩ := split64_toNat (s := sg) (E := E) (by omega) hM
    rw [enc64_fin hf, hf]
    exact ⟨hhi, hlo, hE, hM⟩
  · rintro sg rfl
    exact ⟨enc64_zero_toNat sg, rfl⟩
  · rintro sg rfl
    exact ⟨enc64_inf_toNat sg, rfl⟩
  · rintro rfl
    exact ⟨rfl, rfl⟩

/-! ### From a pair to its value and back -/

/-- `ENC64` gives back every word pair that does not decode to NaN, case by case of `DEC64` (R82 (a)). -/
theorem enc64_dec64 {hi lo : BitWord32} (h : dec64 hi lo ≠ .nan) : enc64 (dec64 hi lo) = (hi, lo) := by
  have hpair := split64_fields64 hi lo
  rcases dec64_cases hi lo with ⟨hE, hM, hdec⟩ | ⟨hE, hM, x, hdec, hx⟩ | ⟨hE, hM, hdec⟩ | ⟨-, -, hdec⟩ |
    ⟨hE, hE', x, hdec, hx⟩
  · rw [hE, hM] at hpair
    rwa [hdec, enc64_zero]
  · have hf : finenc binary64 x.val = (0, (fields64 hi lo).M.toNat) :=
      hx ▸ finenc_of_subnormal binary64_ok (mt bitVec_eq_zero.mpr hM) (fields64 hi lo).M.isLt
    rw [hE] at hpair
    rwa [hdec, enc64_fin hf]
  · rw [hE, hM] at hpair
    rwa [hdec, enc64_inf]
  · exact absurd hdec h
  · obtain ⟨h0, h2046⟩ := fields64_E_bounds_of_normal hE hE'
    have hf : finenc binary64 x.val = ((fields64 hi lo).E.toNat, (fields64 hi lo).M.toNat) :=
      hx ▸ finenc_of_normal h0 (Int.ofNat_le.mpr h2046) (fields64 hi lo).M.isLt
    rw [hdec, enc64_fin hf, hpair]

/-! ### From a value to its pair and back -/

theorem dec64_split64_zero (s : Sign) : dec64 (split64 s (0, 0)).1 (split64 s (0, 0)).2 = .zero s := by
  obtain ⟨hE, hM, -⟩ := split64_fields (s := s) (E := 0) (M := 0) (by decide) (by decide)
  rw [dec64_of_zero hE hM, signBit_split64 (by decide) (by decide)]

theorem dec64_split64_inf (s : Sign) : dec64 (split64 s (2047, 0)).1 (split64 s (2047, 0)).2 = .inf s := by
  obtain ⟨hE, hM, -⟩ := split64_fields (s := s) (E := 2047) (M := 0) (by decide) (by decide)
  rw [dec64_of_allOnes hE, if_pos hM, signBit_split64 le_rfl (by decide)]

theorem dec64_split64_of_normal (s : Sign) {E M : Nat} (h0 : 0 < E) (h1 : E < 2047) (hM : M < 2 ^ 52) {x : F64pos}
    (hx : x.val = (1 + M / 2 ^ 52) * POW2 (E - 1023)) :
    dec64 (split64 s (E, M)).1 (split64 s (E, M)).2 = .fin s x := by
  obtain ⟨hexp, hman, -⟩ := split64_fields (s := s) h1.le hM
  obtain ⟨y, hdec, hy⟩ := dec64_of_normal (h0.trans_eq hexp.symm) (hexp.trans_lt h1)
  have hyx : y = x := Subtype.ext (by rw [hy, hexp, hman, hx])
  rw [hdec, hyx, signBit_split64 h1.le hM]

theorem dec64_split64_of_subnormal (s : Sign) {M : Nat} (hM0 : M ≠ 0) (hM : M < 2 ^ 52) {x : F64pos}
    (hx : x.val = M * POW2 (1 - 1023 - 52)) :
    dec64 (split64 s (0, M)).1 (split64 s (0, M)).2 = .fin s x := by
  obtain ⟨hexp, hman, -⟩ := split64_fields (s := s) (E := 0) (by decide) hM
  obtain ⟨y, hdec, hy⟩ := dec64_of_subnormal hexp (hman ▸ hM0)
  have hyx : y = x := Subtype.ext (by rw [hy, hman, hx])
  rw [hdec, hyx, signBit_split64 (by decide) hM]

/-- `DEC64` gives back every value: each magnitude of `F64pos` is that of the pair `FINENC` makes of it (R82 (a)). -/
theorem dec64_enc64 (v : NV) : dec64 (enc64 v).1 (enc64 v).2 = v := by
  cases v with
  | nan => exact (NaNPattern64_iff_dec64_eq_nan _ _).mp ⟨by decide, by decide⟩
  | inf s => rw [enc64_inf, dec64_split64_inf]
  | zero s => rw [enc64_zero, dec64_split64_zero]
  | fin s x =>
    rcases F64pos_normal_or_subnormal x with ⟨E, M, hE, hE', hM, hx⟩ | ⟨M, hM0, hM, hx⟩
    · rw [enc64_fin (hx ▸ finenc_of_normal hE hE' hM)]
      exact dec64_split64_of_normal s hE (Nat.lt_succ_of_le (Int.ofNat_le.mp hE')) hM hx
    · rw [enc64_fin (hx ▸ finenc_of_subnormal binary64_ok hM0 hM)]
      exact dec64_split64_of_subnormal s hM0 hM hx

/-- Settles O26: the NaN patterns are the word pairs that decode to NaN. -/
theorem enc64AndDec64AreInverse : Obligations.Enc64AndDec64AreInverse :=
  ⟨fun hi lo => ⟨fun h => enc64_dec64 (mt (NaNPattern64_iff_dec64_eq_nan hi lo).mpr h),
    fun h => by rw [(NaNPattern64_iff_dec64_eq_nan hi lo).mp h]; rfl⟩, dec64_enc64⟩

/-- Settles O15: away from NaN `ENC64` is a left inverse, so no two pairs decode alike; and the pair of a value decodes to
it. -/
theorem dec64IsInjectiveOntoNV : Obligations.Dec64IsInjectiveOntoNV := by
  refine ⟨fun hi lo hi' lo' h h' heq => Prod.mk.inj ?_, NaNPattern64_iff_dec64_eq_nan, fun v => ⟨_, _, dec64_enc64 v⟩⟩
  rw [NaNPattern64_iff_dec64_eq_nan] at h h'
  rw [← enc64_dec64 h, heq, enc64_dec64 h']

end Sys2Proof.Machine
end

section
/-! PROOFS. `FINENC` with the binary64 parameters (R79): on a magnitude of `F64pos` the Rounder gets the mantissa field of
the magnitude's own pattern as an integer number of units, so it has nothing to round. -/

namespace Sys2Proof.Machine

theorem roundToScale_of_integer {f : ℚ} {k n : Nat} (h : f * 2 ^ k = n) : roundToScale f k = n := by
  rw [roundToScale_eq_roundHalfEven, h, roundHalfEven_natCast]

/-- The normal row of R79, on the magnitude of the normal pattern `(E, M)`. -/
theorem finenc_binary64_exact_of_normal {E M : Nat} (hE : 0 < E) (hE' : (E : Int) ≤ 2046) (hM : M < 2 ^ 52) {x : ℚ}
    (hx : x = (1 + M / 2 ^ 52) * POW2 (E - 1023)) :
    (normalForm x).1 + 1023 = E ∧ ((normalForm x).2 - 1) * 2 ^ 52 = M ∧
      finenc binary64 x = (((normalForm x).1 + 1023).toNat, M) := by
  have hfrac : (M : ℚ) / 2 ^ 52 < 1 := (div_lt_one (by positivity)).mpr (by exact_mod_cast hM)
  have hfrac0 : (0 : ℚ) ≤ M / 2 ^ 52 := by positivity
  have hnf : normalForm x = ((E : Int) - 1023, 1 + (M : ℚ) / 2 ^ 52) :=
    normalForm_unique hx (by linarith) (by linarith)
  have hf : finenc binary64 x = (E, M) := hx ▸ finenc_of_normal (fmt := binary64) hE hE' hM
  rw [hf, hnf, sub_add_cancel, add_sub_cancel_left, Int.toNat_natCast]
  exact ⟨rfl, div_mul_cancel₀ _ (by norm_num), rfl⟩

/-- The subnormal row of R79, on the magnitude of the subnormal pattern `M`. -/
theorem finenc_binary64_exact_of_subnormal {M : Nat} (hM0 : M ≠ 0) (hM : M < 2 ^ 52) {x : ℚ}
    (hx : x = M * POW2 (1 - 1023 - 52)) :
    x * 2 ^ 1074 = M ∧ (normalForm x).2 * (2 : ℚ) ^ ((normalForm x).1 + 1023 - 1) * 2 ^ 52 = M ∧
      finenc binary64 x = (0, M) := by
  have hunits : x * POW2 (1023 - 1 + 52) = M := by
    have hcancel : POW2 (1 - 1023 - 52) * POW2 (1023 - 1 + 52) = 1 := by rw [← POW2_add]; exact POW2_zero
    rw [hx, mul_assoc, hcancel, mul_one]
  have hoperand := (subnormal_operand binary64 (x := x)).trans hunits
  rw [POW2_natCast, POW2_eq_zpow] at hoperand
  exact ⟨POW2_natCast 1074 ▸ hunits, hoperand, hx ▸ finenc_of_subnormal binary64_ok hM0 hM⟩

/-- The magnitude of a subnormal pattern lies below the normal range. -/
theorem subnormal64_lt_normal {M : Nat} (hM : M < 2 ^ 52) : (M : ℚ) * POW2 (1 - 1023 - 52) < (2 : ℚ) ^ (-1022 : Int) :=
  calc (M : ℚ) * POW2 (1 - 1023 - 52) < POW2 (52 : Nat) * POW2 (1 - 1023 - 52) := by
        rw [POW2_natCast]
        exact mul_lt_mul_of_pos_right (by exact_mod_cast hM) (POW2_pos _)
    _ = 2 ^ (-1022 : Int) := by rw [← POW2_add, POW2_eq_zpow]; rfl

/-- Settles O20: a magnitude of `F64pos` is that of a pattern, whose class says on which side of `2^-1022` it lies. -/
theorem finencIsExactForBinary64 : Obligations.FinencIsExactForBinary64 := by
  intro X
  have hpos := F64pos_pos X
  rcases F64pos_normal_or_subnormal X with ⟨E, M, hE, hE', hM, hx⟩ | ⟨M, hM0, hM, hx⟩
  · obtain ⟨hbe, hunits, hf⟩ := finenc_binary64_exact_of_normal hE hE' hM hx
    have hge : (2 : ℚ) ^ (-1022 : Int) ≤ X.val := (le_normalForm_exponent_iff hpos _).mp (by omega)
    exact ⟨fun hlt => absurd hge hlt.not_ge,
      fun _ => ⟨by rw [hbe]; exact ⟨Int.ofNat_le.mpr hE, hE'⟩, M, hM, hunits, roundToScale_of_integer hunits, hf⟩⟩
  · obtain ⟨hunits, hoperand, hf⟩ := finenc_binary64_exact_of_subnormal hM0 hM hx
    have hlt : X.val < (2 : ℚ) ^ (-1022 : Int) := hx ▸ subnormal64_lt_normal hM
    have hmin : -1074 ≤ (normalForm X.val).1 := (F64pos_log X).1
    have hmax := (normalForm_exponent_lt_iff hpos _).mpr hlt
    exact ⟨fun _ => ⟨⟨by omega, by omega⟩, M, Nat.pos_of_ne_zero hM0, hM, hoperand, hunits,
      roundToScale_of_integer hoperand, hf⟩, fun hge => absurd hge hlt.not_ge⟩

end Sys2Proof.Machine
end

section
/-! PROOFS. The buffer operations (R85 to R94). The two byte orders of an operation go through the same lemmas: each order of
`readFloat`, `readDouble`, `writeFloat` and `writeDouble` below is one instruction of the model. -/

namespace Sys2Proof.Machine

/-! ### The operations by their byte order -/

/-- The float read of a byte order (R85, R86). -/
def readFloat : Order → Buffer → Int → Instr
  | .be => .readFloatBE
  | .le => .readFloatLE

/-- The double read of a byte order (R87, R88). -/
def readDouble : Order → Buffer → Int → Instr
  | .be => .readDoubleBE
  | .le => .readDoubleLE

/-- The float write of a byte order (R89, R90). -/
def writeFloat : Order → Buffer → NV → Int → Instr
  | .be => .writeFloatBE
  | .le => .writeFloatLE

/-- The double write of a byte order (R91, R92). -/
def writeDouble : Order → Buffer → NV → Int → Instr
  | .be => .writeDoubleBE
  | .le => .writeDoubleLE

/-- The state after a write: the byte writes and the completion, and nothing else (R93). -/
def written (s : State) (m : Memory) : State := { s with mem := m, response := some .completed }

section
variable (o : Order) (buf : Buffer) (offset : Int) (v : NV) (s : State)

theorem exec_readFloat : exec (readFloat o buf offset) s
    = .next (answered s (writeCarrier binary32 (dec32 (packw s.mem buf offset o)))) := by
  cases o <;> rfl

theorem exec_readDouble : exec (readDouble o buf offset) s
    = .next (answered s (writeCarrier binary64
        (dec64 (packd s.mem buf offset o).1 (packd s.mem buf offset o).2))) := by
  cases o <;> rfl

theorem exec_writeFloat : exec (writeFloat o buf v offset) s
    = .next (written s (memWriteAll s.mem buf (unpackw offset (enc32 v) o))) := by
  cases o <;> rfl

theorem exec_writeDouble : exec (writeDouble o buf v offset) s
    = .next (written s (memWriteAll s.mem buf (unpackd offset (enc64 v) o))) := by
  cases o <;> rfl

/-! ### Reads and writes on their own -/

theorem readFloat_answers_window : ∃ (c : BitVec 68) (w : BitWord32),
    exec (readFloat o buf offset) s = .next (answered s c) ∧ w.toNat = ofBytes (windowByte s.mem buf offset) 4 o ∧
      c = writeCarrier binary32 (dec32 w) ∧ readCarrier c = some (dec32 w) :=
  ⟨_, _, exec_readFloat o buf offset s, packw_toNat s.mem buf offset o, rfl, readCarrier_writeCarrier_dec32 _⟩

theorem readDouble_answers_window : ∃ (c : BitVec 68) (p : BitWord32 × BitWord32),
    exec (readDouble o buf offset) s = .next (answered s c) ∧ pairNat p = ofBytes (windowByte s.mem buf offset) 8 o ∧
      c = writeCarrier binary64 (dec64 p.1 p.2) ∧ readCarrier c = some (dec64 p.1 p.2) :=
  ⟨_, _, exec_readDouble o buf offset s, pairNat_packd s.mem buf offset o, rfl, readCarrier_writeCarrier_binary64 _⟩

theorem writeFloat_writes_image : ∃ m : Memory, exec (writeFloat o buf v offset) s = .next (written s m) ∧
    (s.Inv → Memory.wf m = true ∧ ImageWritten s.mem m buf offset (enc32 v).toNat 4 o) :=
  ⟨_, exec_writeFloat o buf offset v s,
    fun hs => ⟨wf_memWriteAll hs buf _, imageWritten_unpackw hs buf offset (enc32 v) o⟩⟩

theorem writeDouble_writes_image : ∃ m : Memory, exec (writeDouble o buf v offset) s = .next (written s m) ∧
    (s.Inv → Memory.wf m = true ∧ ImageWritten s.mem m buf offset (pairNat (enc64 v)) 8 o) :=
  ⟨_, exec_writeDouble o buf offset v s,
    fun hs => ⟨wf_memWriteAll hs buf _, imageWritten_unpackd hs buf offset (enc64 v) o⟩⟩

end

/-- Settles O43: `PACKW` is the integer of its window, and the carrier of a decoded word reads back. -/
theorem readFloatAnswersTheValueInTheBuffer : Obligations.ReadFloatAnswersTheValueInTheBuffer := fun buf offset s =>
  ⟨readFloat_answers_window .be buf offset s, readFloat_answers_window .le buf offset s⟩

/-- Settles O44: `PACKD` is the integer of its window, and every binary64 carrier reads back. -/
theorem readDoubleAnswersTheValueInTheBuffer : Obligations.ReadDoubleAnswersTheValueInTheBuffer := fun buf offset s =>
  ⟨readDouble_answers_window .be buf offset s, readDouble_answers_window .le buf offset s⟩

/-- Settles O45: the byte writes are those of `UNPACKW`, which write the image of the word. -/
theorem writeFloatStoresTheEncodedWord : Obligations.WriteFloatStoresTheEncodedWord := fun buf v offset s =>
  ⟨writeFloat_writes_image .be buf offset v s, writeFloat_writes_image .le buf offset v s⟩

/-- Settles O46: the byte writes are those of `UNPACKD`, which write the image of the pair. -/
theorem writeDoubleStoresTheEncodedPair : Obligations.WriteDoubleStoresTheEncodedPair := fun buf v offset s =>
  ⟨writeDouble_writes_image .be buf offset v s, writeDouble_writes_image .le buf offset v s⟩

/-! ### Windows wholly out of bounds -/

/-- Byte writes that all miss the buffer leave the store alone (R23). -/
theorem memWriteAll_of_not_valid {buf : Buffer} {l : List Store} (h : ∀ w ∈ l, ¬ Buffer.Valid buf w.1) (m : Memory) :
    memWriteAll m buf l = m := by
  induction l with
  | nil => rfl
  | cons w rest ih =>
    obtain ⟨hw, hrest⟩ := List.forall_mem_cons.mp h
    rw [memWriteAll_cons, memWrite_of_not_valid hw, ih hrest]

theorem memWriteAll_imageStores_of_outOfBounds {buf : Buffer} {offset : Int} {n : Nat} (h : OutOfBounds buf offset n)
    (m : Memory) (p : Nat) (o : Order) : memWriteAll m buf (imageStores offset p n o) = m := by
  refine memWriteAll_of_not_valid (fun w hw => ?_) m
  obtain ⟨i, hi, rfl⟩ := mem_imageStores.mp hw
  exact h i hi

theorem packd_of_outOfBounds {buf : Buffer} {offset : Int} (h : OutOfBounds buf offset 8) (m : Memory) (o : Order) :
    packd m buf offset o = (0#32, 0#32) := pairNat_inj <| by
  rw [pairNat_packd, ofBytes_congr fun i hi => windowByte_of_not_valid (h i hi) m, ofBytes_zero]
  rfl

theorem writeCarrier_plus_zero (fmt : Format) : writeCarrier fmt (.zero 0#1) = 0#68 := rfl

section
variable {buf : Buffer} {offset : Int}

theorem readFloat_of_outOfBounds (h : OutOfBounds buf offset 4) (o : Order) (s : State) :
    exec (readFloat o buf offset) s = .next (answered s 0#68) := by
  have hdec : dec32 0#32 = .zero 0#1 := dec32_of_zero rfl rfl
  rw [exec_readFloat, packw_of_outOfBounds h, hdec, writeCarrier_plus_zero]

theorem readDouble_of_outOfBounds (h : OutOfBounds buf offset 8) (o : Order) (s : State) :
    exec (readDouble o buf offset) s = .next (answered s 0#68) := by
  have hdec : dec64 0#32 0#32 = .zero 0#1 := dec64_of_zero rfl rfl
  rw [exec_readDouble, packd_of_outOfBounds h, hdec, writeCarrier_plus_zero]

theorem writeFloat_of_outOfBounds (h : OutOfBounds buf offset 4) (o : Order) (v : NV) (s : State) :
    exec (writeFloat o buf v offset) s = .next (written s s.mem) := by
  rw [exec_writeFloat, unpackw_eq_imageStores, memWriteAll_imageStores_of_outOfBounds h]

theorem writeDouble_of_outOfBounds (h : OutOfBounds buf offset 8) (o : Order) (v : NV) (s : State) :
    exec (writeDouble o buf v offset) s = .next (written s s.mem) := by
  rw [exec_writeDouble, unpackd_eq_imageStores, memWriteAll_imageStores_of_outOfBounds h]

end

/-- Settles O47: every byte read is filled with zero, and every byte write is skipped. -/
theorem outOfBoundsReadsZeroAndWritesNothing : Obligations.OutOfBoundsReadsZeroAndWritesNothing := fun _ _ v s =>
  ⟨fun h => ⟨readFloat_of_outOfBounds h .be s, readFloat_of_outOfBounds h .le s,
     writeFloat_of_outOfBounds h .be v s, writeFloat_of_outOfBounds h .le v s⟩,
   fun h => ⟨readDouble_of_outOfBounds h .be s, readDouble_of_outOfBounds h .le s,
     writeDouble_of_outOfBounds h .be v s, writeDouble_of_outOfBounds h .le v s⟩,
   readCarrier_writeCarrier_zero binary64 0#1⟩

/-! ### A read after a write (R94) -/

/-- A float read in the order `o'` after a float write in the order `o` answers the value of the word packed from what was
unpacked. -/
theorem readFloat_after_writeFloat (o o' : Order) (buf : Buffer) (offset : Int) (v : NV) (s : State) :
    ∃ t c w, exec (writeFloat o buf v offset) s = .next t ∧ exec (readFloat o' buf offset) t = .next (answered t c) ∧
      readCarrier c = some (dec32 w) ∧ w = packw (memWriteAll s.mem buf (unpackw offset (enc32 v) o)) buf offset o' :=
  ⟨_, _, _, exec_writeFloat o buf offset v s, exec_readFloat o' buf offset _, readCarrier_writeCarrier_dec32 _, rfl⟩

/-- A double read in the order `o'` after a double write in the order `o` answers the value of the pair packed from what was
unpacked. -/
theorem readDouble_after_writeDouble (o o' : Order) (buf : Buffer) (offset : Int) (v : NV) (s : State) :
    ∃ t c p, exec (writeDouble o buf v offset) s = .next t ∧ exec (readDouble o' buf offset) t = .next (answered t c) ∧
      readCarrier c = some (dec64 p.1 p.2) ∧
      p = packd (memWriteAll s.mem buf (unpackd offset (enc64 v) o)) buf offset o' :=
  ⟨_, _, _, exec_writeDouble o buf offset v s, exec_readDouble o' buf offset _, readCarrier_writeCarrier_binary64 _, rfl⟩

/-- A window in bounds that an image was written to holds the bytes of the image. -/
theorem windowByte_of_imageWritten_inBounds {m m' : Memory} {buf : Buffer} {offset : Int} {p n : Nat} {o : Order}
    (h : ImageWritten m m' buf offset p n o) (hin : InBounds buf offset n) {i : Nat} (hi : i < n) :
    windowByte m' buf offset i = imageByte p n o i :=
  (windowByte_of_imageWritten h hi).trans (if_pos (valid_of_inBounds hin hi))

/-- Byte `i` of the image of a packed pair is the byte of the window (R52, R37). -/
theorem imageByte_packd (m : Memory) (buf : Buffer) (offset : Int) (o : Order) {i : Nat} (hi : i < 8) :
    imageByte (pairNat (packd m buf offset o)) 8 o i = windowByte m buf offset i := by
  rw [pairNat_packd, imageByte_ofBytes (fun j _ => windowByte_lt m buf offset j) hi]

section
variable {buf : Buffer} {offset : Int} {s : State} (hs : s.Inv) (v : NV)
include hs

/-- R94 (b): in one byte order the word packed is the word unpacked. -/
theorem readFloat_after_writeFloat_same (hin : InBounds buf offset 4) (o : Order) :
    ∃ t c, exec (writeFloat o buf v offset) s = .next t ∧ exec (readFloat o buf offset) t = .next (answered t c) ∧
      readCarrier c = some (dec32 (enc32 v)) ∧ ((∀ sg x, v = .fin sg x → F32pos x.val) → readCarrier c = some v) := by
  obtain ⟨t, c, w, hwrite, hread, hc, hw⟩ := readFloat_after_writeFloat o o buf offset v s
  rw [hw, packw_unpackw hs hin] at hc
  exact ⟨t, c, hwrite, hread, hc, fun hv => dec32UndoesEnc32OnRepresentableValues v hv ▸ hc⟩

/-- R94 (a): in one byte order the pair packed is the pair unpacked, whose value is the value encoded. -/
theorem readDouble_after_writeDouble_same (hin : InBounds buf offset 8) (o : Order) :
    ∃ t c, exec (writeDouble o buf v offset) s = .next t ∧ exec (readDouble o buf offset) t = .next (answered t c) ∧
      readCarrier c = some v := by
  obtain ⟨t, c, p, hwrite, hread, hc, hp⟩ := readDouble_after_writeDouble o o buf offset v s
  rw [hp, packd_unpackd hs hin, dec64_enc64] at hc
  exact ⟨t, c, hwrite, hread, hc⟩

/-- R94 (c): the word read in the order `o'` has, in that order, the bytes that the encoded word has in the order `o`. -/
theorem readFloat_after_writeFloat_bytes (hin : InBounds buf offset 4) (o o' : Order) :
    ∃ t c w, exec (writeFloat o buf v offset) s = .next t ∧ exec (readFloat o' buf offset) t = .next (answered t c) ∧
      readCarrier c = some (dec32 w) ∧ ∀ i < 4, imageByte w.toNat 4 o' i = imageByte (enc32 v).toNat 4 o i := by
  obtain ⟨t, c, w, hwrite, hread, hc, rfl⟩ := readFloat_after_writeFloat o o' buf offset v s
  have himage := imageWritten_unpackw hs buf offset (enc32 v) o
  exact ⟨t, c, _, hwrite, hread, hc, fun i hi =>
    (imageByte_packw _ buf offset o' hi).trans (windowByte_of_imageWritten_inBounds himage hin hi)⟩

/-- R94 (c): the pair read in the order `o'` has, in that order, the bytes that the encoded pair has in the order `o`. -/
theorem readDouble_after_writeDouble_bytes (hin : InBounds buf offset 8) (o o' : Order) :
    ∃ t c p, exec (writeDouble o buf v offset) s = .next t ∧ exec (readDouble o' buf offset) t = .next (answered t c) ∧
      readCarrier c = some (dec64 p.1 p.2) ∧
      ∀ i < 8, imageByte (pairNat p) 8 o' i = imageByte (pairNat (enc64 v)) 8 o i := by
  obtain ⟨t, c, p, hwrite, hread, hc, rfl⟩ := readDouble_after_writeDouble o o' buf offset v s
  have himage := imageWritten_unpackd hs buf offset (enc64 v) o
  exact ⟨t, c, _, hwrite, hread, hc, fun i hi =>
    (imageByte_packd _ buf offset o' hi).trans (windowByte_of_imageWritten_inBounds himage hin hi)⟩

end

/-- Settles O48: packing undoes unpacking in the same order, and `DEC64` undoes `ENC64`. -/
theorem readAfterWriteReturnsTheValue : Obligations.ReadAfterWriteReturnsTheValue := fun _ _ v _ hs =>
  ⟨fun hin => ⟨readDouble_after_writeDouble_same hs v hin .be, readDouble_after_writeDouble_same hs v hin .le⟩,
   fun hin => ⟨readFloat_after_writeFloat_same hs v hin .be, readFloat_after_writeFloat_same hs v hin .le⟩⟩

/-- Settles O49: the window holds the bytes of the written image, and the read takes them in the other order. -/
theorem readInTheOtherOrderReversesTheBytes : Obligations.ReadInTheOtherOrderReversesTheBytes := fun _ _ v _ hs =>
  ⟨fun hin => ⟨readFloat_after_writeFloat_bytes hs v hin .be .le, readFloat_after_writeFloat_bytes hs v hin .le .be⟩,
   fun hin => ⟨readDouble_after_writeDouble_bytes hs v hin .be .le, readDouble_after_writeDouble_bytes hs v hin .le .be⟩⟩

end Sys2Proof.Machine
end

section
/-! PROOFS. What the block refuses and what it serves (R95, R97, R112): a command is refused exactly when the decoder rejects
it, every other input completes and leaves the inputs behind it as they are. -/

namespace Sys2Proof.Machine

/-! ### The command of an input -/

/-- The command that an input presents to the block, raced, cut short or undisturbed (log entries 2, 8, 9). -/
def Input.presented : Input → Option Request
  | .command r => some r
  | .agentWrite _ _ => none
  | .racedCommand r _ => some r
  | .reset => none
  | .cutCommand r => some r

theorem presented_eq_some_iff {input : Input} {r : Request} : input.presented = some r ↔
    input = .command r ∨ (∃ ws, input = .racedCommand r ws) ∨ input = .cutCommand r := by
  cases input <;> simp [Input.presented]

theorem exists_input_presents_iff {inputs rest : List Input} {r : Request} :
    (∃ input, inputs = input :: rest ∧ input.presented = some r) ↔
      inputs = .command r :: rest ∨ (∃ ws, inputs = .racedCommand r ws :: rest) ∨ inputs = .cutCommand r :: rest := by
  constructor
  · rintro ⟨input, rfl, hr⟩
    simpa using presented_eq_some_iff.mp hr
  · rintro (rfl | ⟨ws, rfl⟩ | rfl) <;> exact ⟨_, rfl, rfl⟩

theorem servableInput_iff {input : Input} : ServableInput input ↔ ∀ r, input.presented = some r → Servable r := by
  cases input <;> simp [ServableInput, Input.presented]

/-! ### Served or refused -/

/-- An input that asks for nothing the block refuses completes, and nothing of it waits any more (R95, R112). -/
theorem runInput_of_servable {input : Input} (h : ServableInput input) (s : State) :
    ∃ t, runInput input s = .next t ∧ t.inputs = s.inputs := by
  cases input with
  | command r =>
    obtain ⟨i, hd⟩ := h
    obtain ⟨t, ht, hinputs, -⟩ := exec_next i s
    exact ⟨t, (runRequest_of_ok hd s).trans ht, hinputs⟩
  | agentWrite addr b => exact ⟨_, rfl, rfl⟩
  | racedCommand r ws =>
    obtain ⟨i, hd⟩ := h
    obtain ⟨u, hu, hinputs, -⟩ := exec_next i (s.raced ws)
    exact ⟨_, runRaced_of_ok hd hu, hinputs⟩
  | reset => exact ⟨_, rfl, rfl⟩
  | cutCommand r =>
    obtain ⟨i, hd⟩ := h
    exact ⟨_, runCut_of_ok hd s, rfl⟩

theorem runInput_of_rejected {input : Input} {r : Request} {why : Reject} (hr : input.presented = some r)
    (hd : decode r = .error why) (s : State) : runInput input s = .refused (Reject.refusal why) := by
  obtain rfl | ⟨ws, rfl⟩ | rfl := presented_eq_some_iff.mp hr
  · exact runRequest_of_error hd s
  · exact runRaced_of_error hd ws s
  · exact runCut_of_error hd s

/-- R97: an input is refused exactly for the reason for which the decoder rejects its command. -/
theorem runInput_eq_refused_iff {input : Input} {s : State} {why : Refusal} : runInput input s = .refused why ↔
    ∃ r e, input.presented = some r ∧ decode r = .error e ∧ why = Reject.refusal e := by
  constructor
  · intro h
    by_cases hserv : ServableInput input
    · obtain ⟨t, ht, -⟩ := runInput_of_servable hserv s
      cases ht.symm.trans h
    · obtain ⟨r, hr, hreject⟩ : ∃ r, input.presented = some r ∧ ¬ Servable r := by
        simpa [servableInput_iff] using hserv
      cases hd : decode r with
      | ok i => exact absurd ⟨i, hd⟩ hreject
      | error e =>
        cases (runInput_of_rejected hr hd s).symm.trans h
        exact ⟨r, e, hr, hd, rfl⟩
  · rintro ⟨r, e, hr, hd, rfl⟩
    exact runInput_of_rejected hr hd s

/-- R97: a step refuses exactly when the decoder rejects the command that the oldest input presents, and for that reason. -/
theorem step_eq_refused_iff {s : State} {why : Refusal} : step s = .refused why ↔
    ∃ r rest, (∃ input, s.inputs = input :: rest ∧ input.presented = some r) ∧
      ∃ e, decode r = .error e ∧ why = Reject.refusal e := by
  cases hin : s.inputs with
  | nil => simp [step_of_inputs_nil hin]
  | cons input rest => simp [step_of_inputs_cons hin, runInput_eq_refused_iff]

/-! ### Safe runs -/

/-- Settles O57: the oldest input of a safe state can be served, so it completes; the inputs behind it were in the list
before, and the store stays canonical. -/
theorem safeStatesAlwaysStepToSafeStates : Obligations.SafeStatesAlwaysStepToSafeStates := fun s ⟨hInv, hserv⟩ => by
  cases hin : s.inputs with
  | nil => exact ⟨s, step_of_inputs_nil hin, ⟨hInv, hserv⟩, hin⟩
  | cons input rest =>
    obtain ⟨hinput, hrest⟩ := List.forall_mem_cons.mp (hin ▸ hserv)
    obtain ⟨t, ht, hinputs⟩ := runInput_of_servable hinput { s with inputs := rest }
    have hstep : step s = .next t := (step_of_inputs_cons hin).trans ht
    exact ⟨t, hstep, ⟨everyStepKeepsTheStoreCanonical s t hInv hstep, hinputs ▸ hrest⟩, hinputs⟩

/-! ### What the decoder rejects -/

/-- R39: the carriers that denote no value are the `cls = 1` carriers without a finite operand. -/
theorem readCarrier_eq_none_iff {nv : BitVec 68} :
    readCarrier nv = none ↔ carrierClass nv = 1#2 ∧ ¬ DenotesFinite nv := by
  refine ⟨fun h => ?_, fun ⟨hc, hfin⟩ => readCarrier_of_not_denotesFinite hc hfin⟩
  rw [readCarrier] at h
  split_ifs at h with h0 h2 h3 hlegal
  have hclass : carrierClass nv = 1#2 := by bv_omega
  exact ⟨hclass, mt (finiteLegal_iff_denotesFinite nv).mpr hlegal⟩

theorem withValue_eq_error_iff {r : Request} {f : NV → Instr} {e : Reject} : withValue r f = .error e ↔
    carrierClass r.val = 1#2 ∧ ¬ DenotesFinite r.val ∧ e = .noNumericValue r.val := by
  rw [← and_assoc, ← readCarrier_eq_none_iff]
  cases h : readCarrier r.val with
  | some v => simp [withValue_of_some h]
  | none => simp [withValue_of_none h, eq_comm]

/-- R97: the decoder rejects the reserved codes (R43), and the operations with a value operand whose `val` port carries no
value (R39); nothing else. -/
theorem decode_eq_error_iff {r : Request} {e : Reject} : decode r = .error e ↔
    ((r.op.toNat = 1 ∨ r.op.toNat = 3 ∨ r.op.toNat = 5 ∨ r.op.toNat = 7) ∧ e = .reservedOp r.op) ∨
      ((r.op.toNat = 4 ∨ r.op.toNat = 6 ∨ 12 ≤ r.op.toNat) ∧ carrierClass r.val = 1#2 ∧ ¬ DenotesFinite r.val ∧
        e = .noNumericValue r.val) := by
  by_cases hres : r.op.toNat = 1 ∨ r.op.toNat = 3 ∨ r.op.toNat = 5 ∨ r.op.toNat = 7
  · have hval : ¬ (r.op.toNat = 4 ∨ r.op.toNat = 6 ∨ 12 ≤ r.op.toNat) := by omega
    simp only [decode_of_reserved hres, hres, hval, true_and, false_and, or_false, Except.error.injEq, @eq_comm _ e]
  · by_cases hval : r.op.toNat = 4 ∨ r.op.toNat = 6 ∨ 12 ≤ r.op.toNat
    · obtain ⟨f, hf⟩ := decode_of_op_with_value hval
      simp only [hf, withValue_eq_error_iff, hres, hval, true_and, false_and, false_or]
    · obtain ⟨i, hi⟩ := decode_of_op_without_value (r := r) (by omega)
      simp only [hi, hres, hval, false_and, or_false, reduceCtorEq]

/-- The same with the refusal that the machine answers a rejection with. -/
theorem exists_rejection_iff {r : Request} {why : Refusal} : (∃ e, decode r = .error e ∧ why = Reject.refusal e) ↔
    ((r.op.toNat = 1 ∨ r.op.toNat = 3 ∨ r.op.toNat = 5 ∨ r.op.toNat = 7) ∧ why = .reservedOp r.op) ∨
      ((r.op.toNat = 4 ∨ r.op.toNat = 6 ∨ 12 ≤ r.op.toNat) ∧ carrierClass r.val = 1#2 ∧ ¬ DenotesFinite r.val ∧
        why = .noNumericValue r.val) := by
  simp only [decode_eq_error_iff, or_and_right, exists_or, and_assoc, exists_and_left, exists_eq_left, Reject.refusal]

/-- Settles O36: a step refuses what the decoder rejects, whichever kind of input presents the command. -/
theorem refusalsAreExactlyTheMeaninglessCommands : Obligations.RefusalsAreExactlyTheMeaninglessCommands := fun s why => by
  simp only [step_eq_refused_iff, exists_input_presents_iff, exists_rejection_iff]

/-! ### The answer to a command -/

/-- Settles O54: the step runs the instruction, which completes and keeps the inputs and the draws; its arm answers on the
ports of the operation. -/
theorem everyServableCommandIsAnswered : Obligations.EveryServableCommandIsAnswered := fun s r rest i hin hd => by
  obtain ⟨t, ht, hinputs, hdraws, -⟩ := exec_next i { s with inputs := rest }
  have hstep : step s = .next t := ((step_of_inputs_cons hin).trans (runRequest_of_ok hd _)).trans ht
  refine ⟨t, hstep, hinputs, hdraws, ?_⟩
  cases i with
  | dec32 | dec64 | readFloatBE | readFloatLE | readDoubleBE | readDoubleLE =>
    cases ht
    exact ⟨_, rfl⟩
  | enc32 =>
    cases ht
    exact ⟨_, rfl⟩
  | enc64 =>
    cases ht
    exact ⟨_, _, rfl⟩
  | writeFloatBE | writeFloatLE | writeDoubleBE | writeDoubleLE =>
    cases ht
    rfl

end Sys2Proof.Machine
end

section
/-! PROOFS. What an operation depends on (R26, R108): the bytes of its window alone, for the response and for each byte that
it leaves. -/

namespace Sys2Proof.Machine

/-! ### The store -/

/-- Whether a byte write lands does not depend on the store, so it sends a byte that is the same in two stores to the same
byte. -/
theorem read_memWrite_congr {m m' : Memory} (hm : Memory.wf m = true) (hm' : Memory.wf m' = true) {h : Nat}
    (hsame : Memory.read m h = Memory.read m' h) (buf : Buffer) (a : Int) (b : Byte) :
    Memory.read (memWrite m buf a b) h = Memory.read (memWrite m' buf a b) h := by
  rw [read_memWrite hm, read_memWrite hm', hsame]

theorem read_memWriteAll_congr {m m' : Memory} (hm : Memory.wf m = true) (hm' : Memory.wf m' = true) {h : Nat}
    (hsame : Memory.read m h = Memory.read m' h) (buf : Buffer) (l : List Store) :
    Memory.read (memWriteAll m buf l) h = Memory.read (memWriteAll m' buf l) h := by
  induction l generalizing m m' with
  | nil => exact hsame
  | cons w rest ih =>
    exact ih (wf_memWrite hm buf w.1 w.2) (wf_memWrite hm' buf w.1 w.2) (read_memWrite_congr hm hm' hsame buf w.1 w.2)

/-- A byte that an instruction leaves depends on that byte alone of the store it finds. -/
theorem read_memAfter_congr {m m' : Memory} (hm : Memory.wf m = true) (hm' : Memory.wf m' = true) {h : Nat}
    (hsame : Memory.read m h = Memory.read m' h) (i : Instr) :
    Memory.read (memAfter i m) h = Memory.read (memAfter i m') h := by
  cases hstores : Instr.stores i with
  | none => rwa [memAfter_of_stores_none hstores, memAfter_of_stores_none hstores]
  | some p =>
    rw [memAfter_of_stores_some hstores, memAfter_of_stores_some hstores, read_memWriteAll_congr hm hm' hsame]

/-! ### What is packed -/

section
variable {m m' : Memory} {buf : Buffer} {offset : Int}

/-- Two stores that agree on the bytes that an instruction touches have one window: the rest of it is filled with zero (R22). -/
theorem windowByte_congr {i : Instr} {n k : Nat}
    (hsame : ∀ h : Nat, Instr.Touches i h → Memory.read m h = Memory.read m' h)
    (hw : Instr.window i = some (buf, offset, n)) (hk : k < n) :
    windowByte m buf offset k = windowByte m' buf offset k := by
  by_cases hv : Buffer.Valid buf (effectiveAddress offset k)
  · rw [windowByte_of_valid hv, windowByte_of_valid hv, hsame _ ⟨buf, offset, n, hw, k, hk, hv, rfl⟩]
  · rw [windowByte_of_not_valid hv, windowByte_of_not_valid hv]

theorem packw_congr (hsame : ∀ k < 4, windowByte m buf offset k = windowByte m' buf offset k) (o : Order) :
    packw m buf offset o = packw m' buf offset o := BitVec.eq_of_toNat_eq <| by
  rw [packw_toNat, packw_toNat, ofBytes_congr hsame]

theorem packd_congr (hsame : ∀ k < 8, windowByte m buf offset k = windowByte m' buf offset k) (o : Order) :
    packd m buf offset o = packd m' buf offset o := pairNat_inj <| by
  rw [pairNat_packd, pairNat_packd, ofBytes_congr hsame]

end

/-! ### The response -/

/-- A read answers the value of what it packs from its window; every other response is made of the operands alone. -/
theorem exec_response_congr {i : Instr} {s s' t t' : State}
    (hsame : ∀ h : Nat, Instr.Touches i h → Memory.read s.mem h = Memory.read s'.mem h)
    (ht : exec i s = .next t) (ht' : exec i s' = .next t') : t.response = t'.response := by
  cases i with
  | readFloatBE | readFloatLE =>
    cases ht
    cases ht'
    rw [answerValue_response, answerValue_response, packw_congr fun _ => windowByte_congr hsame rfl]
  | readDoubleBE | readDoubleLE =>
    cases ht
    cases ht'
    rw [answerValue_response, answerValue_response, packd_congr fun _ => windowByte_congr hsame rfl]
  | dec32 | dec64 | enc32 | enc64 | writeFloatBE | writeFloatLE | writeDoubleBE | writeDoubleLE =>
    cases ht
    cases ht'
    rfl

/-- Settles O52: the response comes from the window, and each byte of it afterwards from that byte before. -/
theorem resultsDependOnlyOnOperandsAndWindow : Obligations.ResultsDependOnlyOnOperandsAndWindow :=
  fun i s s' t t' hs hs' hsame ht ht' => by
  obtain ⟨-, -, hmem, -⟩ := exec_inversion ht
  obtain ⟨-, -, hmem', -⟩ := exec_inversion ht'
  refine ⟨exec_response_congr hsame ht ht', fun h htouch => ?_⟩
  rw [hmem, hmem', read_memAfter_congr hs hs' (hsame h htouch)]

end Sys2Proof.Machine
end

section
/-! PROOFS. The start of the machine and its operation (R105, R106, R112): the power-of-two table, the state after reset, the
command that a step runs, and reset of the idle block and of a block at work (U10). -/

namespace Sys2Proof.Machine

/-- Settles O1: the table is exact exponentiation at every integer, so at its indexes. -/
theorem pow2EntriesAreExactPowers : Obligations.Pow2EntriesAreExactPowers := fun n _ _ => POW2_eq_zpow n

/-! ### A command -/

/-- R112: an undisturbed command runs the instruction that it decodes to. -/
theorem step_of_command {s : State} {r : Request} {rest : List Input} {i : Instr} (hin : s.inputs = .command r :: rest)
    (hd : decode r = .ok i) : step s = exec i { s with inputs := rest } :=
  (step_of_inputs_cons hin).trans (runRequest_of_ok hd _)

theorem decodeTableWord_eq_some_iff {nbits w : Nat} {i : Instr} :
    decodeTableWord nbits w = some i ↔ decode (Request.ofWord (w % 2 ^ nbits)) = .ok i := by
  unfold decodeTableWord
  cases decode (Request.ofWord (w % 2 ^ nbits)) <;> simp [Except.toOption]

/-- Settles O53: a command as one word is a command at the head of the inputs, and without it the state is the one before. -/
theorem stepRunsTheDecodedInstruction : Obligations.StepRunsTheDecodedInstruction :=
  ⟨fun _ _ _ _ hin hd => step_of_command hin hd, fun _ hin => step_of_inputs_nil hin,
   fun s nbits w _ hw => step_of_command (s := s.withFetchWord nbits w) rfl (decodeTableWord_eq_some_iff.mp hw)⟩

/-! ### Reset -/

/-- Settles O56: the empty store is canonical, and no input waits. -/
theorem resetStateIsSafe : Obligations.ResetStateIsSafe :=
  ⟨⟨rfl, fun _ hmem => absurd hmem List.not_mem_nil⟩, rfl⟩

theorem step_of_reset {s : State} {rest : List Input} (hin : s.inputs = .reset :: rest) :
    step s = .next { s with inputs := rest, response := none } :=
  step_of_inputs_cons hin

/-- Of byte writes to pairwise different addresses, a part leaves each byte as it was or as all of them leave it. -/
theorem read_memWriteAll_sublist {m : Memory} (hm : Memory.wf m = true) (buf : Buffer) {l l' : List Store}
    (hsub : l'.Sublist l) (hnd : (l.map Prod.fst).Nodup) (h : Nat) :
    Memory.read (memWriteAll m buf l') h = Memory.read m h ∨
      Memory.read (memWriteAll m buf l') h = Memory.read (memWriteAll m buf l) h := by
  by_cases hw : ∃ w ∈ l', Buffer.Valid buf w.1 ∧ h = Buffer.cell buf w.1
  · obtain ⟨w, hmem, hv, rfl⟩ := hw
    have hnd' : (l'.map Prod.fst).Nodup := hnd.sublist (hsub.map Prod.fst)
    right
    rw [read_memWriteAll_mem hm buf l' hnd' hmem hv, read_memWriteAll_mem hm buf l hnd (hsub.subset hmem) hv]
  · left
    exact read_memWriteAll_other hm buf l' h fun w hmem hv hcell => hw ⟨w, hmem, hv, hcell⟩

theorem memCut_of_stores_none {i : Instr} (h : Instr.stores i = none) (n : Nat) (m : Memory) : memCut n i m = m := by
  simp [memCut, h]

theorem memCut_of_stores_some {i : Instr} {buf : Buffer} {stores : List Store}
    (h : Instr.stores i = some (buf, stores)) (n : Nat) (m : Memory) :
    memCut n i m = memWriteAll m buf (chosen (fun k _ => Config.writeLanded n k) 0 stores) := by
  simp [memCut, h]

/-- Whichever byte writes of a cut operation have landed, each byte is the old one or that of the whole operation (U10). -/
theorem read_memCut {m : Memory} (hm : Memory.wf m = true) (n : Nat) (i : Instr) (h : Nat) :
    Memory.read (memCut n i m) h = Memory.read m h ∨
      Memory.read (memCut n i m) h = Memory.read (memAfter i m) h := by
  cases hstores : Instr.stores i with
  | none => exact .inl (by rw [memCut_of_stores_none hstores])
  | some p =>
    rw [memCut_of_stores_some hstores, memAfter_of_stores_some hstores]
    exact read_memWriteAll_sublist hm p.1 (chosen_sublist _ 0 p.2) (stores_nodup hstores) h

/-- Settles O58: reset of the idle block only clears the response; a cut operation has issued a part of its byte writes. -/
theorem resetLeavesOldOrNewBytes : Obligations.ResetLeavesOldOrNewBytes :=
  ⟨fun _ _ hin => step_of_reset hin, fun s _ rest i hs hin hd => by
    obtain ⟨u, hu, -, -, humem, -⟩ := exec_next i { s with inputs := rest }
    exact ⟨_, u, (step_of_inputs_cons hin).trans (runCut_of_ok hd _), hu, rfl, rfl,
      fun h => humem ▸ read_memCut hs s.draws i h⟩⟩

end Sys2Proof.Machine
end

section
/-! PROOFS. The boundary reads of the source (R22, C1): each byte outside the buffer reads as zero, byte by byte, so a window
that is partly outside packs the bytes that lie inside, and the fields of that word say which magnitude is answered. -/

namespace Sys2Proof.Machine

/-! ### The answer to a float read, by the fields of the packed word -/

section
variable {s : State} {buf : Buffer} {offset : Int} {o : Order} {w : BitWord32}

theorem readFloat_of_normal (hw : packw s.mem buf offset o = w) (h0 : 0 < w.toNat / 2 ^ 23 % 2 ^ 8)
    (h1 : w.toNat / 2 ^ 23 % 2 ^ 8 < 255) : exec (readFloat o buf offset) s = .next (answered s
      (packCarrier 1#2 (signBit w) ((w.toNat / 2 ^ 23 % 2 ^ 8 : Nat) - 150) (2 ^ 23 + w.toNat % 2 ^ 23))) := by
  rw [exec_readFloat, hw, writeCarrier_dec32_of_normal h0 h1]

theorem readFloat_of_subnormal (hw : packw s.mem buf offset o = w) (h0 : w.toNat / 2 ^ 23 % 2 ^ 8 = 0)
    (hM : w.toNat % 2 ^ 23 ≠ 0) :
    exec (readFloat o buf offset) s = .next (answered s (packCarrier 1#2 (signBit w) (-149) (w.toNat % 2 ^ 23))) := by
  rw [exec_readFloat, hw, writeCarrier_dec32_of_subnormal h0 hM]

end

/-! ### The buffer of the source -/

/-- The words that the windows at 0, 1 and -1 of the buffer `[0x3F, 0xC0, 0x00, 0x00]` hold, filled with zero (C1). -/
theorem packw_boundary {m : Memory} (hm : m = [(0, 0x3F#8), (1, 0xC0#8)]) :
    packw m { base := 0, len := 4 } 0 .be = 0x3FC00000#32 ∧ packw m { base := 0, len := 4 } 1 .be = 0xC0000000#32 ∧
      packw m { base := 0, len := 4 } (-1) .be = 0x003FC000#32 := by
  subst hm
  decide

/-- Settles O50: the words at 0 and 1 are normal, the one at -1 is subnormal. -/
theorem boundaryReadsFillPerByte : Obligations.BoundaryReadsFillPerByte := by
  intro s hs
  obtain ⟨hstart, hend, hbefore⟩ := packw_boundary hs
  refine ⟨?_, ?_, ?_⟩
  · exact readFloat_of_normal hstart (by decide) (by decide)
  · exact readFloat_of_normal hend (by decide) (by decide)
  · exact readFloat_of_subnormal hbefore (by decide) (by decide)

end Sys2Proof.Machine
end
